-- ==== Sys2Proof/Word.lean ====
section
/-! DEFINITION. The word types of the block: 64-bit words, bytes, masked lanes and the lane grid. -/

namespace Sys2Proof

/-- A 64-bit word: a share, a host register, a random word (R11). -/
abbrev Word := BitVec 64

/-- One byte of the input or output stream (R84, R85). -/
abbrev Byte := BitVec 8

/-- A masked lane: the ordered list of its `D + 1` shares, share 0 first (R15, R18). -/
abbrev Lane := List Word

/-- The masked state: lane `L` at place `L`, which is `S(x, y)` for `L = x + 5y` (R15, R30). -/
abbrev Grid := List Lane

/-- The RandomnessMatrix `Rm`: a list of rows (R49). -/
abbrev RandMatrix := List (List Word)

end Sys2Proof
end

