-- ==== Sys2Proof/Syntax.lean ====
section
/-! DEFINITION. The command set: one constructor per row of the opcode table (R116). A constructor holds the
fields its row uses, at the widths of R110: lane fields LD, LA, LB of 5 bits, the immediate N of 6 bits. -/

namespace Sys2Proof

/-- A decoded command (R116). A field may hold any value its bits can: the range checks are made when the
command is taken, in the order of R307. -/
inductive Instr where
  | lmask (ld : BitVec 5)
  | lmxor (ld : BitVec 5)
  | lxorc (ld : BitVec 5)
  | lunmask (la : BitVec 5)
  | lmov (ld la : BitVec 5)
  | lxor (ld la lb : BitVec 5)
  | lnot (ld la : BitVec 5)
  | lrotl (ld la : BitVec 5) (n : BitVec 6)
  | land (ld la lb : BitVec 5)
  | stclr
  | theta
  | rho
  | pi
  | chi
  | iota (n : BitVec 6)
  | round (n : BitVec 6)
  | permute
  | sinit (n : BitVec 6)
  | sabsorb (n : BitVec 6)
  | sfinal
  | ssqueeze (n : BitVec 6)
deriving DecidableEq, Repr

end Sys2Proof
end

