-- ==== Sys2Proof/WellFormed.lean ====
section
/-! DEFINITION. Which commands are well formed: the operand ranges of R111 and R112, which the assembler syntax
of R119 also keeps. A command that is not well formed still encodes and decodes; it is rejected when it is taken
(R305, R306). -/

namespace Sys2Proof

/-- A lane index names a lane: `0..24` (R32, R111). -/
def laneOk (l : BitVec 5) : Bool := l.toNat < 25

/-- A round index of IOTA or ROUND: `0..23` (R112). -/
def roundOk (n : BitVec 6) : Bool := n.toNat < 24

/-- A variant code of SINIT: `0..6` (R112, R251). -/
def variantOk (n : BitVec 6) : Bool := n.toNat ≤ 6

/-- A byte count of SABSORB or SSQUEEZE: `1..8` (R112). -/
def countOk (n : BitVec 6) : Bool := 1 ≤ n.toNat && n.toNat ≤ 8

/-- The operand ranges of R111 and R112. -/
def Instr.wellFormed : Instr → Bool
  | .lmask ld => laneOk ld
  | .lmxor ld => laneOk ld
  | .lxorc ld => laneOk ld
  | .lunmask la => laneOk la
  | .lmov ld la => laneOk ld && laneOk la
  | .lxor ld la lb => laneOk ld && laneOk la && laneOk lb
  | .lnot ld la => laneOk ld && laneOk la
  | .lrotl ld la _ => laneOk ld && laneOk la
  | .land ld la lb => laneOk ld && laneOk la && laneOk lb
  | .stclr => true
  | .theta => true
  | .rho => true
  | .pi => true
  | .chi => true
  | .iota n => roundOk n
  | .round n => roundOk n
  | .permute => true
  | .sinit n => variantOk n
  | .sabsorb n => countOk n
  | .sfinal => true
  | .ssqueeze n => countOk n

end Sys2Proof
end

