-- ==== Sys2Proof/Decode.lean ====
section
/-! DEFINITION. The first decode stage (R118) and the encoder (R110). Decoding is total: every 64-bit value written
to CMD is one command or is rejected under a name; every rejection is ERR_ILLEGAL (R302). -/

namespace Sys2Proof

/-- Why a CMD value does not decode: the three causes of R302. The names are the model's own; the block records
ERR_ILLEGAL for each. -/
inductive DecodeError where
  /-- One of bits 63:29 (RSV or the upper word) is 1. -/
  | reservedBits
  /-- OPC is not one of the 21 opcodes of R116. -/
  | unknownOpcode
  /-- A field the opcode does not use is not zero (R114). -/
  | unusedField
deriving DecidableEq, Repr

/-- OPC, bits 7:0 (R110). -/
def fieldOpc (cmd : Word) : BitVec 8 := cmd.extractLsb' 0 8

/-- LD, bits 12:8 (R110). -/
def fieldLd (cmd : Word) : BitVec 5 := cmd.extractLsb' 8 5

/-- LA, bits 17:13 (R110). -/
def fieldLa (cmd : Word) : BitVec 5 := cmd.extractLsb' 13 5

/-- LB, bits 22:18 (R110). -/
def fieldLb (cmd : Word) : BitVec 5 := cmd.extractLsb' 18 5

/-- N, bits 28:23 (R110). -/
def fieldN (cmd : Word) : BitVec 6 := cmd.extractLsb' 23 6

/-- RSV and the upper word, bits 63:29 (R110). -/
def fieldRsv (cmd : Word) : BitVec 35 := cmd.extractLsb' 29 35

/-- The command `i`, if the fields its opcode does not use are zero (R114). -/
def needZero (unusedAreZero : Bool) (i : Instr) : Except DecodeError Instr :=
  if unusedAreZero then .ok i else .error .unusedField

/-- The row of R116 for an opcode, with its unused fields checked. -/
def decodeRow (opc : BitVec 8) (ld la lb : BitVec 5) (n : BitVec 6) : Except DecodeError Instr :=
  match opc.toNat with
  | 0x01 => needZero (la == 0 && lb == 0 && n == 0) (.lmask ld)
  | 0x02 => needZero (la == 0 && lb == 0 && n == 0) (.lmxor ld)
  | 0x03 => needZero (la == 0 && lb == 0 && n == 0) (.lxorc ld)
  | 0x04 => needZero (ld == 0 && lb == 0 && n == 0) (.lunmask la)
  | 0x05 => needZero (lb == 0 && n == 0) (.lmov ld la)
  | 0x06 => needZero (n == 0) (.lxor ld la lb)
  | 0x07 => needZero (lb == 0 && n == 0) (.lnot ld la)
  | 0x08 => needZero (lb == 0) (.lrotl ld la n)
  | 0x09 => needZero (n == 0) (.land ld la lb)
  | 0x10 => needZero (ld == 0 && la == 0 && lb == 0 && n == 0) .stclr
  | 0x11 => needZero (ld == 0 && la == 0 && lb == 0 && n == 0) .theta
  | 0x12 => needZero (ld == 0 && la == 0 && lb == 0 && n == 0) .rho
  | 0x13 => needZero (ld == 0 && la == 0 && lb == 0 && n == 0) .pi
  | 0x14 => needZero (ld == 0 && la == 0 && lb == 0 && n == 0) .chi
  | 0x15 => needZero (ld == 0 && la == 0 && lb == 0) (.iota n)
  | 0x16 => needZero (ld == 0 && la == 0 && lb == 0) (.round n)
  | 0x17 => needZero (ld == 0 && la == 0 && lb == 0 && n == 0) .permute
  | 0x20 => needZero (ld == 0 && la == 0 && lb == 0) (.sinit n)
  | 0x21 => needZero (ld == 0 && la == 0 && lb == 0) (.sabsorb n)
  | 0x22 => needZero (ld == 0 && la == 0 && lb == 0 && n == 0) .sfinal
  | 0x23 => needZero (ld == 0 && la == 0 && lb == 0) (.ssqueeze n)
  | _ => .error .unknownOpcode

/-- The decode of R118, in its order: reserved bits, opcode, unused fields. -/
def decode (cmd : Word) : Except DecodeError Instr :=
  if fieldRsv cmd == 0 then
    decodeRow (fieldOpc cmd) (fieldLd cmd) (fieldLa cmd) (fieldLb cmd) (fieldN cmd)
  else .error .reservedBits

/-- `word = OPC | (LD << 8) | (LA << 13) | (LB << 18) | (N << 23)` (R110). -/
def assemble (opc : BitVec 8) (ld la lb : BitVec 5) (n : BitVec 6) : Word :=
  opc.setWidth 64 ||| (ld.setWidth 64 <<< 8) ||| (la.setWidth 64 <<< 13) ||| (lb.setWidth 64 <<< 18)
    ||| (n.setWidth 64 <<< 23)

/-- The one encoding of each command: its opcode and used fields, every other bit zero (R114, R116). -/
def encode : Instr → Word
  | .lmask ld => assemble 0x01 ld 0 0 0
  | .lmxor ld => assemble 0x02 ld 0 0 0
  | .lxorc ld => assemble 0x03 ld 0 0 0
  | .lunmask la => assemble 0x04 0 la 0 0
  | .lmov ld la => assemble 0x05 ld la 0 0
  | .lxor ld la lb => assemble 0x06 ld la lb 0
  | .lnot ld la => assemble 0x07 ld la 0 0
  | .lrotl ld la n => assemble 0x08 ld la 0 n
  | .land ld la lb => assemble 0x09 ld la lb 0
  | .stclr => assemble 0x10 0 0 0 0
  | .theta => assemble 0x11 0 0 0 0
  | .rho => assemble 0x12 0 0 0 0
  | .pi => assemble 0x13 0 0 0 0
  | .chi => assemble 0x14 0 0 0 0
  | .iota n => assemble 0x15 0 0 0 n
  | .round n => assemble 0x16 0 0 0 n
  | .permute => assemble 0x17 0 0 0 0
  | .sinit n => assemble 0x20 0 0 0 n
  | .sabsorb n => assemble 0x21 0 0 0 n
  | .sfinal => assemble 0x22 0 0 0 0
  | .ssqueeze n => assemble 0x23 0 0 0 n

/-- The 64-bit CMD value of a table word: its low `nbits` bits, every higher bit zero. -/
def tableWord (nbits w : Nat) : Word := BitVec.ofNat 64 (w % 2 ^ nbits)

/-- The command the decoder reads from a table word (a command is one whole CMD write, R110). -/
def decodeTableWord (nbits w : Nat) : Option Instr :=
  match decode (tableWord nbits w) with
  | .ok i => some i
  | .error _ => none

end Sys2Proof
end

