-- ==== Sys2Proof/Config.lean ====
section
/-! DEFINITION. What one instance fixes at construction (R9, R10, R12), and the free values: constants with
no body that stand for what the spec leaves open. -/

namespace Sys2Proof

/-- The construction parameters of an instance: the masking order `D` and the design's bound `D_MAX`, with
`0 ≤ D ≤ D_MAX ≤ 255` (R9, R10). The two proof fields are R314: an instance out of these bounds does not exist. -/
structure Params where
  D : Nat
  DMax : Nat
  D_le_DMax : D ≤ DMax
  DMax_le_255 : DMax ≤ 255
deriving DecidableEq, Repr

/-- The engine's temporaries (R50): the column parities `C`, the theta effects `Dm`, the chi input copy `B`
and the round counter `RCNT`. -/
structure Temps where
  C : List Lane
  Dm : List Lane
  B : List Lane
  RCNT : BitVec 5
deriving DecidableEq, Repr, Inhabited

/-- OPEN parameter `D_MAX`, at most 255, of the instance that `State.reset` is the reset state of (R10, D11). No
body: nothing can be proved of it beyond its bound (log entry 1). -/
opaque Config.DMax : Fin 256

/-- OPEN parameter `D`, at most `D_MAX`, of that instance (R9, D11; log entry 1). -/
opaque Config.D : Fin (Config.DMax.val + 1)

/-- The instance of `State.reset`. -/
def Config.params : Params :=
  ⟨Config.D.val, Config.DMax.val, Nat.le_of_lt_succ Config.D.isLt, Nat.le_of_lt_succ Config.DMax.isLt⟩

/-- OPEN parameter `BASE`: the platform address of the register window (R12). The block itself sees offsets
only (log entry 2). -/
opaque Config.BASE : Nat

/-- Free value: what the temporaries of R50 hold after a command was accepted (I25, log entry 7). -/
opaque Config.freeTemps : Nat → Temps

/-- Free value: how far a read of RNG_COUNT while BUSY has caught up with the words delivered (R44, I22,
log entry 5). -/
opaque Config.freeCount : Nat → Nat

/-- Free value: whether a read of STATUS during SFINAL shows PADDED or the final phase (R42, I24, log entry 6). -/
opaque Config.freePadded : Nat → Bool

/-- Free value: what the platform answers to a read at an offset outside `0x00..0x3F`, which the block does not
decode (R83, I33, log entry 10). -/
opaque Config.platformRead : Nat → Nat → Word

end Sys2Proof
end

