-- ==== Sys2Proof/Machine/State.lean ====
section
/-! DEFINITION. The state of the block and its reset value (10_state.md), with the inputs of the two outside
agents, the host and the RandomWordSource (R8), held as lists the step reads. -/

namespace Sys2Proof.Machine

/-- The sponge phase (R42). PADDED and PERMUTED are taken only inside SFINAL. -/
inductive Phase where
  | empty
  | absorbing
  | padded
  | permuted
  | squeezing
  | done
deriving DecidableEq, Repr

/-- The codes of STATUS.ERR (R301). Codes 6 to 14 are never recorded (I30), so the type has no such value. -/
inductive Err where
  | ok
  | illegal
  | operand
  | sequence
  | config
  | disabled
  | rng
deriving DecidableEq, Repr

/-- One answer of the RandomWordSource to one request (R45). -/
inductive Answer where
  | word (w : Word)
  | failure
deriving DecidableEq, Repr

/-- What the world outside the block does next (R8, R16, R371). The order of the inputs is the order in which they
reach the block (R92). -/
inductive Input where
  /-- The host reads `width` bytes at byte offset `off` from BASE: `MemRead(off, width)`. -/
  | read (off width : Nat)
  /-- The host writes `width` bytes at byte offset `off` from BASE: `MemWrite(off, width, value)`. -/
  | write (off width : Nat) (value : Word)
  /-- The RandomWordSource gives one more answer. -/
  | answer (a : Answer)
  /-- The RandomWordSource answers a request that was issued before a reset (R350). -/
  | lateAnswer (a : Answer)
  /-- The platform resets the block (R350). -/
  | reset
deriving DecidableEq, Repr

/-- A command that was accepted and waits for the RandomWordSource: STATUS.BUSY = 1 (R360). Until it completes, the
other fields of `State` keep their values from before the command (R89). -/
structure Running where
  /-- The command. -/
  cmd : Instr
  /-- RNG_COUNT at its acceptance. -/
  start : Word
  /-- The words delivered to it so far, oldest first. -/
  drawn : List Word
  /-- How many of them a read of RNG_COUNT has shown (R44). -/
  shown : Nat
deriving DecidableEq, Repr

/-- No fault exists: the block has no trap mechanism and signals no bus error (R81, R316). -/
inductive Fault where
deriving DecidableEq, Repr

/-- Why the model gives no meaning. -/
inductive Refusal where
  /-- Raised by `exec` for a command that has no meaning yet; safe. No arm of `exec` raises it. -/
  | notModelled (mnemonic : String)
deriving DecidableEq, Repr

/-- The state of the block, its parameters, and the inputs still to come. -/
structure State where
  /-- `D` and `D_MAX`, constant for the instance (R9, R10); INFO shows them (R40). -/
  params : Params
  /-- The masked state `S`: 25 lanes of `D + 1` shares (R30). -/
  lanes : Grid
  /-- ARG (R38). -/
  arg : Word
  /-- RESULT (R39). -/
  result : Word
  /-- STATUS.HALT (R41, R310). -/
  halt : Bool
  /-- STATUS.IGN (R41, R315). -/
  ign : Bool
  /-- STATUS.ERR (R41, R301). -/
  err : Err
  /-- STATUS.SPH, the sponge phase (R42). -/
  sph : Phase
  /-- CTRL.RAW_EN (R43). -/
  rawEn : Bool
  /-- RNG_COUNT (R44). -/
  rngCount : Word
  /-- RATE, the rate in bytes (R46). -/
  rate : BitVec 8
  /-- DS, the domain-separation byte (R46). -/
  ds : BitVec 8
  /-- OUTLEN, the number of output bytes (R46). -/
  outLen : Word
  /-- APOS, the bytes of the current block received so far (R47). -/
  apos : BitVec 8
  /-- LACC, the plaintext accumulator of the lane being filled (R47). -/
  lacc : Word
  /-- SPOS, the bytes of the current rate window already output (R48). -/
  spos : BitVec 8
  /-- DELIVERED, the output bytes delivered (R48). -/
  delivered : Word
  /-- `Rm`, the randomness matrix; all zero outside an AND gadget (R49). -/
  rm : RandMatrix
  /-- The engine's temporaries (R50). -/
  temps : Temps
  /-- The command that is BUSY, if one is: STATUS.BUSY is whether there is one (R41, R360). -/
  running : Option Running
  /-- The answers the RandomWordSource has ready for the requests to come, in order (R45, R361). -/
  answers : List Answer
  /-- The inputs still to come, in order. The model's own field. -/
  inputs : List Input
  /-- The value the last host read returned. The model's own field. -/
  readData : Word
  /-- Counts the free values taken. The model's own field. -/
  freeTick : Nat
deriving DecidableEq, Repr

/-- The lane whose `D + 1` shares are all 0. -/
def zeroLane (D : Nat) : Lane := List.replicate (D + 1) 0

/-- The grid of 25 zero lanes. -/
def zeroGrid (D : Nat) : Grid := List.replicate 25 (zeroLane D)

/-- The all-zero randomness matrix, `(D + 1) x (D + 1)` (R49). -/
def zeroMatrix (D : Nat) : RandMatrix := List.replicate (D + 1) (List.replicate (D + 1) 0)

/-- The state after reset of an instance with these parameters: the table of R54. The temporaries, whose reset
value R54 leaves unspecified, are zero (log entry 7, DESIGN CHOICE); the model's own fields are empty or 0. -/
def State.resetOf (p : Params) : State where
  params := p
  lanes := zeroGrid p.D
  arg := 0
  result := 0
  halt := false
  ign := false
  err := .ok
  sph := .empty
  rawEn := false
  rngCount := 0
  rate := 0
  ds := 0
  outLen := 0
  apos := 0
  lacc := 0
  spos := 0
  delivered := 0
  rm := zeroMatrix p.D
  temps := ⟨List.replicate 5 (zeroLane p.D), List.replicate 5 (zeroLane p.D), zeroGrid p.D, 0⟩
  running := none
  answers := []
  inputs := []
  readData := 0
  freeTick := 0

/-- Construct an instance: refused when `D > D_MAX` or `D_MAX > 255` (R10, R314). -/
def State.construct (D DMax : Nat) : Option State :=
  if h : D ≤ DMax ∧ DMax ≤ 255 then some (State.resetOf ⟨D, DMax, h.1, h.2⟩) else none

/-- The state right after reset (R54), of the instance of `Config` (log entry 1). -/
def State.reset : State := State.resetOf Config.params

end Sys2Proof.Machine
end

