-- ==== Sys2Proof/Machine/Flags.lean ====
section
/-! DEFINITION. The register views: the bits of STATUS, CTRL and INFO (R40, R41, R43). The block has no condition
codes or arithmetic flags (R52). -/

namespace Sys2Proof.Machine

/-- The code of STATUS.ERR (R301). -/
def Err.code : Err → BitVec 4
  | .ok => 0
  | .illegal => 1
  | .operand => 2
  | .sequence => 3
  | .config => 4
  | .disabled => 5
  | .rng => 15

/-- The code of STATUS.SPH (R42). -/
def Phase.code : Phase → BitVec 3
  | .empty => 0
  | .absorbing => 1
  | .padded => 2
  | .permuted => 3
  | .squeezing => 4
  | .done => 5

/-- STATUS.BUSY: a command was accepted and has not completed (R41, R360). -/
def State.busy (s : State) : Bool := s.running.isSome

/-- STATUS with a given phase shown: BUSY bit 0, HALT bit 1, IGN bit 2, ERR bits 7:4, SPH bits 10:8, all other bits
0 (R41). -/
def statusWord (s : State) (shown : Phase) : Word :=
  (BitVec.ofBool s.busy).setWidth 64 ||| ((BitVec.ofBool s.halt).setWidth 64 <<< 1)
    ||| ((BitVec.ofBool s.ign).setWidth 64 <<< 2) ||| (s.err.code.setWidth 64 <<< 4)
    ||| (shown.code.setWidth 64 <<< 8)

/-- CTRL: RAW_EN in bit 0, all other bits 0 (R43). -/
def ctrlWord (s : State) : Word := (BitVec.ofBool s.rawEn).setWidth 64

/-- INFO: `D` in bits 7:0, `D_MAX` in bits 15:8, IFVER = 1 in bits 23:16, all other bits 0 (R40). -/
def infoWord (p : Params) : Word :=
  (BitVec.ofNat 8 p.D).setWidth 64 ||| ((BitVec.ofNat 8 p.DMax).setWidth 64 <<< 8) ||| (1 <<< 16)

end Sys2Proof.Machine
end

