-- ==== Sys2Proof/Machine/Operands.lean ====
section
/-! DEFINITION. The operands of a command and the checks it must pass when it is taken, in the order of R307. -/

namespace Sys2Proof.Machine

/-- Byte `k` of a 64-bit word: `w[8k+7:8k]` (R13). -/
def byteOf (w : Word) (k : Nat) : Byte := w.extractLsb' (8 * k) 8

/-- The bytes `0 .. n-1` of a word, byte 0 first (R85). -/
def bytesOf (w : Word) (n : Nat) : List Byte := (List.range n).map (byteOf w)

/-- The sponge parameters SINIT sets (R46). -/
structure SpongeParams where
  rate : BitVec 8
  ds : BitVec 8
  outLen : Word
deriving DecidableEq, Repr

/-- The parameters the CUSTOM variant takes from ARG, if they are valid: `ARG[15:0]` a multiple of 8 in `8..192`,
and `ARG[31:24]` zero (R252). -/
def customParams (arg : Word) : Option SpongeParams :=
  let rate := (arg.extractLsb' 0 16).toNat
  if rate % 8 == 0 && 8 ≤ rate && rate ≤ 192 && arg.extractLsb' 24 8 == 0 then
    some ⟨arg.extractLsb' 0 8, arg.extractLsb' 16 8, (arg.extractLsb' 32 32).setWidth 64⟩
  else none

/-- The variant table (R251): the parameters of variant `n` with operand `arg`; none where SINIT is ERR_CONFIG
(R305). -/
def spongeVariant (n : BitVec 6) (arg : Word) : Option SpongeParams :=
  match n.toNat with
  | 0 => some ⟨144, 0x06, 28⟩
  | 1 => some ⟨136, 0x06, 32⟩
  | 2 => some ⟨104, 0x06, 48⟩
  | 3 => some ⟨72, 0x06, 64⟩
  | 4 => some ⟨168, 0x1F, arg⟩
  | 5 => some ⟨136, 0x1F, arg⟩
  | 6 => customParams arg
  | _ => none

/-- The raw commands: opcodes 0x01 to 0x17 (R116). -/
def isRaw : Instr → Bool
  | .sinit _ => false
  | .sabsorb _ => false
  | .sfinal => false
  | .ssqueeze _ => false
  | .lmask _ => true
  | .lmxor _ => true
  | .lxorc _ => true
  | .lunmask _ => true
  | .lmov _ _ => true
  | .lxor _ _ _ => true
  | .lnot _ _ => true
  | .lrotl _ _ _ => true
  | .land _ _ _ => true
  | .stclr => true
  | .theta => true
  | .rho => true
  | .pi => true
  | .chi => true
  | .iota _ => true
  | .round _ => true
  | .permute => true

/-- The phases in which raw commands run: EMPTY and DONE (R266). -/
def phaseFree (ph : Phase) : Bool := ph == .empty || ph == .done

/-- Whether the phase allows the command: the table of R266. SINIT is allowed in every phase (R304). -/
def phaseAllows (i : Instr) (ph : Phase) : Bool :=
  match i with
  | .sinit _ => true
  | .sabsorb _ => ph == .absorbing
  | .sfinal => ph == .absorbing
  | .ssqueeze _ => ph == .squeezing
  | _ => phaseFree ph

/-- Whether SINIT names an unsupported configuration (R305). -/
def configInvalid (i : Instr) (s : State) : Bool :=
  match i with
  | .sinit n => (spongeVariant n s.arg).isNone
  | _ => false

/-- Whether every operand is in range (R306): the ranges of R111 and R112, and for SSQUEEZE also
`N <= OUTLEN - DELIVERED`. -/
def operandsOk (i : Instr) (s : State) : Bool :=
  match i with
  | .sinit _ => true
  | .ssqueeze n => countOk n && n.toNat ≤ s.outLen.toNat - s.delivered.toNat
  | i => i.wellFormed

/-- The checks of R307 after decoding, in its order: DISABLED, SEQUENCE, CONFIG, OPERAND. The first that fails gives
the code; none means the command is accepted. -/
def check (i : Instr) (s : State) : Option Err :=
  if isRaw i && !s.rawEn then some .disabled
  else if !phaseAllows i s.sph then some .sequence
  else if configInvalid i s then some .config
  else if !operandsOk i s then some .operand
  else none

end Sys2Proof.Machine
end

