-- ==== Sys2Proof/Machine/Ops.lean ====
section
/-! DEFINITION. The shared operations: rotation, the lane file, the RandomWordSource port, scrub, rejection, the fatal
randomness failure, and the life of a command from its checks to its completion. -/

namespace Sys2Proof.Machine

/-- What one command answers. -/
abbrev Result := Host.Outcome State Fault Refusal

/-- `rotl(v, n)`: rotate left by `n mod 64` (R14). -/
def rotl (v : Word) (n : Nat) : Word :=
  let m := n % 64
  if m = 0 then v else (v <<< m) ||| (v >>> (64 - m))

/-- Lane `L` of a grid (R15). -/
def laneAt (g : Grid) (L : Nat) : Lane := g.getD L []

/-- `S(x, y) = S[x + 5y]`, coordinates mod 5 (R15). -/
def laneXY (g : Grid) (x y : Nat) : Lane := laneAt g (x % 5 + 5 * (y % 5))

/-- Share `k` of a lane. -/
def shareAt (a : Lane) (k : Nat) : Word := a.getD k 0

/-- `S[L] <- v`, all shares together (R156). -/
def State.setLane (s : State) (L : Nat) (v : Lane) : State := { s with lanes := s.lanes.set L v }

/-! ### The RandomWordSource port (R45) -/

/-- What the engine sees of the source while it runs one command: the answers ready, and RNG_COUNT. -/
structure Port where
  answers : List Answer
  count : Word
deriving DecidableEq, Repr

/-- How a computation that draws words ends: done with a value, failed because the source answered Failure, or waiting
because the source has no answer ready. -/
inductive Drawn (α : Type) where
  | done (a : α) (p : Port)
  | failed (p : Port)
  | waiting (p : Port)
deriving DecidableEq, Repr

/-- A computation that may draw words. -/
abbrev Draw (α : Type) := Port → Drawn α

/-- `RNG()`: one request. A word counts as a draw and is used; a Failure is not counted (R44, R45). -/
def rng : Draw Word := fun p =>
  match p.answers with
  | [] => .waiting p
  | .word w :: rest => .done w ⟨rest, p.count + 1⟩
  | .failure :: rest => .failed ⟨rest, p.count⟩

/-- No draw. -/
def Draw.pure {α : Type} (a : α) : Draw α := fun p => .done a p

/-- First `x`, then `k` of its value; a failure or a wait of `x` ends the whole (R157). -/
def Draw.bind {α β : Type} (x : Draw α) (k : α → Draw β) : Draw β := fun p =>
  match x p with
  | .done a q => k a q
  | .failed q => .failed q
  | .waiting q => .waiting q

/-- `x`, with `f` of its value. -/
def Draw.map {α β : Type} (f : α → β) (x : Draw α) : Draw β := Draw.bind x fun a => Draw.pure (f a)

/-- A loop over a list that carries a value. -/
def Draw.fold {ι σ : Type} (f : σ → ι → Draw σ) : List ι → σ → Draw σ
  | [], a => Draw.pure a
  | x :: xs, a => Draw.bind (f a x) (Draw.fold f xs)

/-- A loop over a list that collects its values in order. -/
def Draw.each {ι α : Type} (f : ι → Draw α) : List ι → Draw (List α)
  | [] => Draw.pure []
  | x :: xs => Draw.bind (f x) fun a => Draw.map (a :: ·) (Draw.each f xs)

/-! ### Scrub, rejection and the fatal randomness failure -/

/-- `scrub()` (R353). -/
def scrub (s : State) : State :=
  { s with
    lanes := zeroGrid s.params.D
    rm := zeroMatrix s.params.D
    rate := 0
    ds := 0
    outLen := 0
    apos := 0
    lacc := 0
    spos := 0
    delivered := 0
    result := 0
    sph := .empty }

/-- `raise Error(code)`: a rejection changes ERR and IGN and nothing else (R308). -/
def reject (e : Err) (s : State) : State := { s with err := e, ign := false }

/-- `raise RngFailure()`: scrub, ERR = 15, HALT = 1, BUSY = 0 (R310). -/
def rngFailure (s : State) : State := { scrub s with err := .rng, halt := true, running := none }

/-- Acceptance: ERR and IGN become 0 (R309, R360). DEDUCED (log entry 23): R362 says that ERR describes the previous command
until completion; the model follows R309 and R360, with R41, R89, R301 and R361, so a read while BUSY shows ERR = 0. -/
def accept (s : State) : State := { s with err := .ok, ign := false }

/-- After a command ends the temporaries of R50 hold a free value (log entry 7). -/
def freshTemps (s : State) : State :=
  { s with temps := Config.freeTemps s.freeTick, freeTick := s.freeTick + 1 }

/-- The words among the answers. -/
def wordsOf : List Answer → List Word
  | [] => []
  | .word w :: rest => w :: wordsOf rest
  | .failure :: rest => wordsOf rest

/-- The port of a state. -/
def State.port (s : State) : Port := ⟨s.answers, s.rngCount⟩

/-- The end of an accepted command `i` that was in state `s` at its acceptance. Done: its writes take effect together,
and the words it drew are counted. Failed: R310, and the words drawn before the Failure stay counted. Waiting: it stays
BUSY with the words delivered so far, and nothing else has changed (R89, R360). -/
def finish (i : Instr) (s : State) (d : Drawn State) : State :=
  match d with
  | .done t p => freshTemps { t with rngCount := p.count, answers := p.answers }
  | .failed p => freshTemps (rngFailure { s with rngCount := p.count, answers := p.answers })
  | .waiting p =>
    { s with
      rngCount := p.count
      answers := p.answers
      running := some ⟨i, s.rngCount, wordsOf s.answers, 0⟩ }

/-- A taken command (R300, R360): checked, then rejected, or accepted and run. `body` is the command's pseudocode. -/
def command (i : Instr) (body : State → Draw State) (s : State) : Result :=
  match check i s with
  | some e => .next (reject e s)
  | none => .next (finish i (accept s) (body (accept s) s.port))

/-! ### The bus -/

/-- The platform address of an offset in the window (R12, R80). -/
def windowAddress (off : Nat) : Nat := Config.BASE + off

/-- The offset of a platform address, if it is in the window of 64 bytes at BASE (R80). -/
def windowOffset (addr : Nat) : Option Nat :=
  if Config.BASE ≤ addr ∧ addr < Config.BASE + 0x40 then some (addr - Config.BASE) else none

end Sys2Proof.Machine
end

