-- ==== Sys2Proof/Machine/Gadgets.lean ====
section
/-! DEFINITION. The masked gadgets (R150 to R156): `mask`, `unmask`, `xor`, `not`, the ISW `and`, sharewise
rotation. -/

namespace Sys2Proof.Machine

/-- The XOR of a list of words. -/
def xorAll (ws : List Word) : Word := ws.foldl (· ^^^ ·) 0

/-- `n` words, in the order they are delivered (R45). -/
def drawWords (n : Nat) : Draw (List Word) := Draw.each (fun _ => rng) (List.range n)

/-- `mask(v)`: the k-th draw is share k, and share D is `v ^ m[0] ^ .. ^ m[D-1]` (R150).
Its law: `unmask(mask(v)) = v` (R158). -/
def gMask (D : Nat) (v : Word) : Draw Lane :=
  Draw.map (fun m => m ++ [v ^^^ xorAll m]) (drawWords D)

/-- `unmask(a)`: the XOR of all shares (R151). The gadget laws of R158 are said with it. -/
def gUnmask (a : Lane) : Word := xorAll a

/-- `xor(a, b)`: share by share (R152). Its law: `unmask(xor(a,b)) = unmask(a) ^ unmask(b)` (R158). -/
def gXor (a b : Lane) : Lane := List.zipWith (· ^^^ ·) a b

/-- XOR a public constant into share 0 (R162). -/
def xorShare0 (a : Lane) (c : Word) : Lane := a.set 0 (shareAt a 0 ^^^ c)

/-- `not(a)`: complement every share, then correct share 0 by all ones when `D + 1` is even (R153).
Its law: `unmask(not(a)) = ~unmask(a)` (R158). -/
def gNot (D : Nat) (a : Lane) : Lane :=
  xorShare0 (a.map (~~~ ·)) (if (D + 1) % 2 = 0 then BitVec.allOnes 64 else 0)

/-- `rotl_s(a, n)`: the same rotation of every share (R155). Its law:
`unmask(rotl_s(a,n)) = rotl(unmask(a),n)` (R158). -/
def gRotl (a : Lane) (n : Nat) : Lane := a.map (rotl · n)

/-- The pairs `(i, j)` with `i < j <= D`, in the draw order of R154: (0,1), (0,2) .. (0,D), (1,2) .. (D-1,D). -/
def pairs (D : Nat) : List (Nat × Nat) :=
  (List.range (D + 1)).flatMap fun i => (List.range' (i + 1) (D - i)).map fun j => (i, j)

/-- Entry `(i, j)` of a matrix. -/
def entry (m : RandMatrix) (i j : Nat) : Word := (m.getD i []).getD j 0

/-- `m` with entry `(i, j)` set. -/
def setEntry (m : RandMatrix) (i j : Nat) (w : Word) : RandMatrix := m.set i ((m.getD i []).set j w)

/-- Fill the randomness matrix with fresh draws: both `(i, j)` and `(j, i)` get the word of the pair (R49, R154). -/
def drawMatrix (D : Nat) : Draw RandMatrix :=
  Draw.fold (fun m ij => Draw.map (fun w => setEntry (setEntry m ij.1 ij.2 w) ij.2 ij.1 w) rng)
    (pairs D) (zeroMatrix D)

/-- The cross term `(a[i] & b[j]) ^ (a[j] & b[i])` (R154). -/
def crossTerm (a b : Lane) (i j : Nat) : Word :=
  (shareAt a i &&& shareAt b j) ^^^ (shareAt a j &&& shareAt b i)

/-- One pass of the second loop of R154, for one pair. -/
def andStep (a b : Lane) (rm : RandMatrix) (c : Lane) (ij : Nat × Nat) : Lane :=
  let i := ij.1
  let j := ij.2
  let c := c.set i (shareAt c i ^^^ entry rm i j)
  c.set j (shareAt c j ^^^ (crossTerm a b i j ^^^ entry rm i j))

/-- The products of R154 for a given matrix: the diagonal terms, then one pass for each pair. -/
def andShares (D : Nat) (a b : Lane) (rm : RandMatrix) : Lane :=
  (pairs D).foldl (andStep a b rm) (List.zipWith (· &&& ·) a b)

/-- `and(a, b)`, the `isw_and_gadget` (R154): the whole matrix is drawn first, used and dropped.
Its law: `unmask(and(a,b)) = unmask(a) & unmask(b)` (R158). -/
def gAnd (D : Nat) (a b : Lane) : Draw Lane := Draw.map (andShares D a b) (drawMatrix D)

end Sys2Proof.Machine
end

