-- ==== Sys2Proof/Machine/Transforms.lean ====
section
/-! DEFINITION. The masked round transforms, one round and the permutation (R200 to R210). -/

namespace Sys2Proof.Machine

/-- The round constants `RC[0..23]` (R201). -/
def roundConstants : List Word :=
  [0x0000000000000001, 0x0000000000008082, 0x800000000000808A, 0x8000000080008000,
   0x000000000000808B, 0x0000000080000001, 0x8000000080008081, 0x8000000000008009] ++
  [0x000000000000008A, 0x0000000000000088, 0x0000000080008009, 0x000000008000000A,
   0x000000008000808B, 0x800000000000008B, 0x8000000000008089, 0x8000000000008003] ++
  [0x8000000000008002, 0x8000000000000080, 0x000000000000800A, 0x800000008000000A,
   0x8000000080008081, 0x8000000000008080, 0x0000000080000001, 0x8000000080008008]

/-- `RC[i]` (R201). -/
def rc (i : Nat) : Word := roundConstants.getD i 0

/-- The rotation offsets: row `x` holds `RHO[x][0..4]` (R202). -/
def rhoTable : List (List Nat) :=
  [[0, 36, 3, 41, 18], [1, 44, 10, 45, 2], [62, 6, 43, 15, 61], [28, 55, 25, 21, 56], [27, 20, 39, 8, 14]]

/-- `RHO[x][y]` (R202). -/
def rhoOffset (x y : Nat) : Nat := (rhoTable.getD x []).getD y 0

/-- The lane indices in order, `L = x + 5y` (R15). -/
def laneIndices : List Nat := List.range 25

/-- The column parity `C[x]` (R203). -/
def columnParity (g : Grid) (x : Nat) : Lane :=
  gXor (gXor (gXor (gXor (laneXY g x 0) (laneXY g x 1)) (laneXY g x 2)) (laneXY g x 3)) (laneXY g x 4)

/-- `theta`: all column parities, then all theta effects, then every lane (R203). -/
def theta (g : Grid) : Grid :=
  let C := (List.range 5).map (columnParity g)
  let Dm := (List.range 5).map fun x => gXor (laneAt C ((x + 4) % 5)) (gRotl (laneAt C ((x + 1) % 5)) 1)
  laneIndices.map fun L => gXor (laneAt g L) (laneAt Dm (L % 5))

/-- `rho`: every share of lane `(x, y)` rotated by `RHO[x][y]` (R204). -/
def rho (g : Grid) : Grid :=
  laneIndices.map fun L => gRotl (laneAt g L) (rhoOffset (L % 5) (L / 5))

/-- `pi`: `S(y, 2x + 3y) <- T(x, y)` for every lane, `T` the state before (R205). -/
def pi (g : Grid) : Grid :=
  laneIndices.foldl
    (fun s L => s.set (L / 5 + 5 * ((2 * (L % 5) + 3 * (L / 5)) % 5)) (laneXY g (L % 5) (L / 5))) g

/-- One lane of `chi`: `xor(a, and(not(b), c))` with `a, b, c` the pre-chi lanes at `(x,y), (x+1,y), (x+2,y)`
(R206). -/
def chiLane (D : Nat) (B : Grid) (L : Nat) : Draw Lane :=
  let x := L % 5
  let y := L / 5
  Draw.map (gXor (laneXY B x y)) (gAnd D (gNot D (laneXY B (x + 1) y)) (laneXY B (x + 2) y))

/-- `chi`: every lane in the order `L = 0..24` from the pre-chi copy, each with its own matrix (R206). -/
def chi (D : Nat) (g : Grid) : Draw Grid := Draw.each (chiLane D g) laneIndices

/-- `iota(i)`: `RC[i]` into share 0 of lane `(0, 0)` (R207). -/
def iota (i : Nat) (g : Grid) : Grid := g.set 0 (xorShare0 (laneAt g 0) (rc i))

/-- `round(i)`: theta, rho, pi, chi, iota (R208). -/
def round (D : Nat) (i : Nat) (g : Grid) : Draw Grid := Draw.map (iota i) (chi D (pi (rho (theta g))))

/-- `permute()`: rounds 0 to 23 in order (R209). -/
def permute (D : Nat) (g : Grid) : Draw Grid := Draw.fold (fun g i => round D i g) (List.range 24) g

/-- The state with a new grid after AND gadgets ran: `Rm` is all zero again (R154). -/
def State.setGridDiscard (s : State) (g : Grid) : State := { s with lanes := g, rm := zeroMatrix s.params.D }

end Sys2Proof.Machine
end

