-- ==== Sys2Proof/Machine/LaneCmds.lean ====
section
/-! DEFINITION. The lane command family, opcodes 0x01 to 0x09 (R159 to R168). Every body reads its source lanes and
ARG from the state at acceptance before it writes a lane (R159). -/

namespace Sys2Proof.Machine

/-- Lane `l` of the state. -/
def State.lane (s : State) (l : BitVec 5) : Lane := laneAt s.lanes l.toNat

/-- LMASK: `S[LD] <- mask(ARG)` (R160). -/
def bodyLmask (ld : BitVec 5) (s : State) : Draw State :=
  Draw.map (s.setLane ld.toNat) (gMask s.params.D s.arg)

/-- LMASK (R160). -/
def execLmask (ld : BitVec 5) (s : State) : Result := command (.lmask ld) (bodyLmask ld) s

/-- LMXOR: `m <- mask(ARG); S[LD] <- xor(S[LD], m)` (R161). -/
def bodyLmxor (ld : BitVec 5) (s : State) : Draw State :=
  Draw.map (fun m => s.setLane ld.toNat (gXor (s.lane ld) m)) (gMask s.params.D s.arg)

/-- LMXOR (R161). -/
def execLmxor (ld : BitVec 5) (s : State) : Result := command (.lmxor ld) (bodyLmxor ld) s

/-- LXORC: `S[LD][0] <- S[LD][0] ^ ARG` (R162). -/
def bodyLxorc (ld : BitVec 5) (s : State) : Draw State :=
  Draw.pure (s.setLane ld.toNat (xorShare0 (s.lane ld) s.arg))

/-- LXORC (R162). -/
def execLxorc (ld : BitVec 5) (s : State) : Result := command (.lxorc ld) (bodyLxorc ld) s

/-- LUNMASK: `RESULT <- unmask(S[LA])` (R163). -/
def bodyLunmask (la : BitVec 5) (s : State) : Draw State :=
  Draw.pure { s with result := gUnmask (s.lane la) }

/-- LUNMASK (R163). -/
def execLunmask (la : BitVec 5) (s : State) : Result := command (.lunmask la) (bodyLunmask la) s

/-- LMOV: `S[LD] <- S[LA]`, all shares (R164). -/
def bodyLmov (ld la : BitVec 5) (s : State) : Draw State :=
  Draw.pure (s.setLane ld.toNat (s.lane la))

/-- LMOV (R164). -/
def execLmov (ld la : BitVec 5) (s : State) : Result := command (.lmov ld la) (bodyLmov ld la) s

/-- LXOR: `S[LD] <- xor(S[LA], S[LB])` (R165). -/
def bodyLxor (ld la lb : BitVec 5) (s : State) : Draw State :=
  Draw.pure (s.setLane ld.toNat (gXor (s.lane la) (s.lane lb)))

/-- LXOR (R165). -/
def execLxor (ld la lb : BitVec 5) (s : State) : Result := command (.lxor ld la lb) (bodyLxor ld la lb) s

/-- LNOT: `S[LD] <- not(S[LA])` (R166). -/
def bodyLnot (ld la : BitVec 5) (s : State) : Draw State :=
  Draw.pure (s.setLane ld.toNat (gNot s.params.D (s.lane la)))

/-- LNOT (R166). -/
def execLnot (ld la : BitVec 5) (s : State) : Result := command (.lnot ld la) (bodyLnot ld la) s

/-- LROTL: `S[LD] <- rotl_s(S[LA], N)` (R167). -/
def bodyLrotl (ld la : BitVec 5) (n : BitVec 6) (s : State) : Draw State :=
  Draw.pure (s.setLane ld.toNat (gRotl (s.lane la) n.toNat))

/-- LROTL (R167). -/
def execLrotl (ld la : BitVec 5) (n : BitVec 6) (s : State) : Result :=
  command (.lrotl ld la n) (bodyLrotl ld la n) s

/-- LAND: `S[LD] <- and(S[LA], S[LB])`, with a freshly drawn matrix that is all zero again after it (R168). -/
def bodyLand (ld la lb : BitVec 5) (s : State) : Draw State :=
  Draw.map (fun c => s.setGridDiscard (s.lanes.set ld.toNat c)) (gAnd s.params.D (s.lane la) (s.lane lb))

/-- LAND (R168). -/
def execLand (ld la lb : BitVec 5) (s : State) : Result := command (.land ld la lb) (bodyLand ld la lb) s

end Sys2Proof.Machine
end

