-- ==== Sys2Proof/Machine/RoundCmds.lean ====
section
/-! DEFINITION. The round command family, opcodes 0x10 to 0x17 (R212 to R222). -/

namespace Sys2Proof.Machine

/-- STCLR: every share of every lane becomes 0 (R215). -/
def bodyStclr (s : State) : Draw State := Draw.pure { s with lanes := zeroGrid s.params.D }

/-- STCLR (R215). -/
def execStclr (s : State) : Result := command .stclr bodyStclr s

/-- THETA: `theta()` (R216). -/
def bodyTheta (s : State) : Draw State := Draw.pure { s with lanes := theta s.lanes }

/-- THETA (R216). -/
def execTheta (s : State) : Result := command .theta bodyTheta s

/-- RHO: `rho()` (R217). -/
def bodyRho (s : State) : Draw State := Draw.pure { s with lanes := rho s.lanes }

/-- RHO (R217). -/
def execRho (s : State) : Result := command .rho bodyRho s

/-- PI: `pi()` (R218). -/
def bodyPi (s : State) : Draw State := Draw.pure { s with lanes := pi s.lanes }

/-- PI (R218). -/
def execPi (s : State) : Result := command .pi bodyPi s

/-- CHI: `chi()` (R219). -/
def bodyChi (s : State) : Draw State := Draw.map s.setGridDiscard (chi s.params.D s.lanes)

/-- CHI (R219). -/
def execChi (s : State) : Result := command .chi bodyChi s

/-- IOTA: `iota(N)` (R220). -/
def bodyIota (n : BitVec 6) (s : State) : Draw State := Draw.pure { s with lanes := iota n.toNat s.lanes }

/-- IOTA (R220). -/
def execIota (n : BitVec 6) (s : State) : Result := command (.iota n) (bodyIota n) s

/-- ROUND: `round(N)` (R221). -/
def bodyRound (n : BitVec 6) (s : State) : Draw State :=
  Draw.map s.setGridDiscard (round s.params.D n.toNat s.lanes)

/-- ROUND (R221). -/
def execRound (n : BitVec 6) (s : State) : Result := command (.round n) (bodyRound n) s

/-- PERMUTE: `permute()` (R222). -/
def bodyPermute (s : State) : Draw State := Draw.map s.setGridDiscard (permute s.params.D s.lanes)

/-- PERMUTE (R222). -/
def execPermute (s : State) : Result := command .permute bodyPermute s

end Sys2Proof.Machine
end

