-- ==== Sys2Proof/Machine/SpongeCmds.lean ====
section
/-! DEFINITION. The sponge command family, opcodes 0x20 to 0x23 (R250 to R263). -/

namespace Sys2Proof.Machine

/-- `zext_64(b) << (8 * k)`: byte `b` at byte place `k` of a word. -/
def byteAt (b : Byte) (k : Nat) : Word := b.setWidth 64 <<< (8 * k)

/-- `S[L] <- xor(S[L], mask(w))`: the absorb primitive (R253, R261). -/
def absorbLane (L : Nat) (w : Word) (s : State) : Draw State :=
  Draw.map (fun m => s.setLane L (gXor (laneAt s.lanes L) m)) (gMask s.params.D w)

/-- `permute()` on the state (R209). -/
def permuteState (s : State) : Draw State := Draw.map s.setGridDiscard (permute s.params.D s.lanes)

/-- SINIT's pseudocode for given parameters: scrub, set them, phase ABSORBING (R260). -/
def startSponge (sp : SpongeParams) (s : State) : State :=
  { scrub s with
    rate := sp.rate
    ds := sp.ds
    outLen := sp.outLen
    apos := 0
    lacc := 0
    spos := 0
    delivered := 0
    sph := .absorbing }

/-- SINIT: `table(N, ARG)` of R251 and R252 (R260). The check of R307 accepts it only where the table has a row. -/
def bodySinit (n : BitVec 6) (s : State) : Draw State :=
  match spongeVariant n s.arg with
  | some sp => Draw.pure (startSponge sp s)
  | none => Draw.pure s

/-- SINIT (R260). -/
def execSinit (n : BitVec 6) (s : State) : Result := command (.sinit n) (bodySinit n) s

/-- The end of a block: when `APOS == RATE`, permute and start the next block (R261). -/
def absorbBlockEnd (s : State) : Draw State :=
  if s.apos = s.rate then Draw.map (fun t => { t with apos := 0 }) (permuteState s) else Draw.pure s

/-- The end of a lane: when `APOS mod 8 == 0`, mask LACC into lane `APOS div 8 - 1` and clear it (R261). -/
def absorbLaneEnd (s : State) : Draw State :=
  if s.apos.toNat % 8 = 0 then
    Draw.bind (absorbLane (s.apos.toNat / 8 - 1) s.lacc s) fun t => absorbBlockEnd { t with lacc := 0 }
  else Draw.pure s

/-- One pass of SABSORB's loop, for one byte (R261). -/
def absorbByte (s : State) (b : Byte) : Draw State :=
  absorbLaneEnd { s with lacc := s.lacc ||| byteAt b (s.apos.toNat % 8), apos := s.apos + 1 }

/-- SABSORB: the bytes `0 .. N-1` of ARG, in order (R261). -/
def bodySabsorb (n : BitVec 6) (s : State) : Draw State :=
  Draw.fold absorbByte (bytesOf s.arg n.toNat) s

/-- SABSORB (R261). -/
def execSabsorb (n : BitVec 6) (s : State) : Result := command (.sabsorb n) (bodySabsorb n) s

/-- Lane `P[L]` of the padded last block: LACC with DS after it in lane `APOS div 8`, 0 in the lanes after it, and
0x80 in the last byte of the rate (R262). -/
def padLane (s : State) (L : Nat) : Word :=
  (if L = s.apos.toNat / 8 then s.lacc ^^^ byteAt s.ds (s.apos.toNat % 8) else 0) ^^^
    (if L = s.rate.toNat / 8 - 1 then byteAt 0x80 7 else 0)

/-- The lanes SFINAL masks: `APOS div 8 .. RATE/8 - 1`, ascending (R262). -/
def padLanes (s : State) : List Nat :=
  List.range' (s.apos.toNat / 8) (s.rate.toNat / 8 - s.apos.toNat / 8)

/-- What SFINAL does after its permutation: the squeeze position is 0 and the phase is SQUEEZING, or DONE when there is
no output (R262). -/
def startSqueeze (s : State) : State :=
  { s with spos := 0, delivered := 0, sph := if s.outLen = 0 then .done else .squeezing }

/-- SFINAL: PADDED, the padded lanes, then the permutation, then PERMUTED and the phase of `startSqueeze` (R262). -/
def bodySfinal (s : State) : Draw State :=
  Draw.bind (Draw.fold (fun t L => absorbLane L (padLane s L) t) (padLanes s) { s with sph := .padded }) fun t =>
    Draw.map (fun u => startSqueeze { u with sph := .permuted }) (permuteState { t with lacc := 0, apos := 0 })

/-- SFINAL (R262). -/
def execSfinal (s : State) : Result := command .sfinal bodySfinal s

/-- Open the next rate window when another byte is needed at `SPOS == RATE` (R263). -/
def openWindow (s : State) : Draw State :=
  if s.spos = s.rate then Draw.map (fun t => { t with spos := 0 }) (permuteState s) else Draw.pure s

/-- The output byte at SPOS, unmasked from its lane (R263). -/
def squeezedByte (s : State) : Byte := byteOf (gUnmask (laneAt s.lanes (s.spos.toNat / 8))) (s.spos.toNat % 8)

/-- One pass of SSQUEEZE's loop: byte `k` of the command goes to byte `k` of the result so far (R263). -/
def squeezeByte (sr : State × Word) (k : Nat) : Draw (State × Word) :=
  Draw.map (fun t => ({ t with spos := t.spos + 1 }, sr.2 ||| byteAt (squeezedByte t) k)) (openWindow sr.1)

/-- The end of SSQUEEZE: RESULT, DELIVERED, and DONE after the last byte (R263). -/
def deliver (n : BitVec 6) (sr : State × Word) : State :=
  let d := sr.1.delivered + n.setWidth 64
  { sr.1 with result := sr.2, delivered := d, sph := if d = sr.1.outLen then .done else sr.1.sph }

/-- SSQUEEZE: `N` output bytes (R263). -/
def bodySsqueeze (n : BitVec 6) (s : State) : Draw State :=
  Draw.map (deliver n) (Draw.fold squeezeByte (List.range n.toNat) (s, 0))

/-- SSQUEEZE (R263). -/
def execSsqueeze (n : BitVec 6) (s : State) : Result := command (.ssqueeze n) (bodySsqueeze n) s

end Sys2Proof.Machine
end

