-- ==== Sys2Proof/Machine/Dispatch.lean ====
section
/-! DEFINITION. The dispatch: one arm per command, each one call of its meaning. -/

namespace Sys2Proof.Machine

/-- The effect of a taken CMD write that decodes to `i` (R300). -/
def exec (i : Instr) (s : State) : Host.Outcome State Fault Refusal :=
  match i with
  | .lmask ld => Sys2Proof.Machine.execLmask ld s
  | .lmxor ld => Sys2Proof.Machine.execLmxor ld s
  | .lxorc ld => Sys2Proof.Machine.execLxorc ld s
  | .lunmask la => Sys2Proof.Machine.execLunmask la s
  | .lmov ld la => Sys2Proof.Machine.execLmov ld la s
  | .lxor ld la lb => Sys2Proof.Machine.execLxor ld la lb s
  | .lnot ld la => Sys2Proof.Machine.execLnot ld la s
  | .lrotl ld la n => Sys2Proof.Machine.execLrotl ld la n s
  | .land ld la lb => Sys2Proof.Machine.execLand ld la lb s
  | .stclr => Sys2Proof.Machine.execStclr s
  | .theta => Sys2Proof.Machine.execTheta s
  | .rho => Sys2Proof.Machine.execRho s
  | .pi => Sys2Proof.Machine.execPi s
  | .chi => Sys2Proof.Machine.execChi s
  | .iota n => Sys2Proof.Machine.execIota n s
  | .round n => Sys2Proof.Machine.execRound n s
  | .permute => Sys2Proof.Machine.execPermute s
  | .sinit n => Sys2Proof.Machine.execSinit n s
  | .sabsorb n => Sys2Proof.Machine.execSabsorb n s
  | .sfinal => Sys2Proof.Machine.execSfinal s
  | .ssqueeze n => Sys2Proof.Machine.execSsqueeze n s

end Sys2Proof.Machine
end

