-- ==== Sys2Proof/Machine/Engine.lean ====
section
/-! DEFINITION. What each input does to the block: host reads and writes of the register window (20_memory.md), the
answers of the RandomWordSource, and reset (R350). -/

namespace Sys2Proof.Machine

/-- An access the window performs: 64 bits wide, 8-aligned (R81). -/
def performed (off width : Nat) : Bool := width == 8 && off % 8 == 0

/-- Whether the block decodes the offset: the window of 64 bytes (R80, R83). -/
def inWindow (off : Nat) : Bool := off < 0x40

/-- A CMD write that is taken (BUSY = 0, HALT = 0): decoded, then run or rejected (R118, R300, R307). -/
def submit (v : Word) (s : State) : Result :=
  match decode v with
  | .ok i => exec i s
  | .error _ => .next (reject .illegal s)

/-- A write of CTRL with BUSY = 0 and HALT = 0: RAW_EN takes bit 0; a change from 0 to 1 scrubs first (R43). -/
def writeCtrl (v : Word) (s : State) : State :=
  if v.getLsbD 0 && !s.rawEn then { scrub s with rawEn := true } else { s with rawEn := v.getLsbD 0 }

/-- The offsets whose writes have an effect: CMD 0x00, ARG 0x08, CTRL 0x20 (R36, R88). -/
def writable (off : Nat) : Bool := off == 0x00 || off == 0x08 || off == 0x20

/-- A performed write while BUSY = 1: ignored, and IGN set when it goes to CMD, ARG or CTRL (R315). -/
def writeBusy (off : Nat) (s : State) : State := if writable off then { s with ign := true } else s

/-- A performed write with BUSY = 0 and HALT = 0 (R88). -/
def writeIdle (off : Nat) (v : Word) (s : State) : Result :=
  match off with
  | 0x00 => submit v s
  | 0x08 => .next { s with arg := v }
  | 0x20 => .next (writeCtrl v s)
  | _ => .next s

/-- A host write (R81, R83, R88, R311, R315). -/
def hostWrite (off width : Nat) (v : Word) (s : State) : Result :=
  if !(inWindow off && performed off width) then .next s
  else if s.halt then .next s
  else if s.busy then .next (writeBusy off s)
  else writeIdle off v s

/-- The phase SFINAL ends in (R262). -/
def finalPhase (s : State) : Phase := if s.outLen = 0 then .done else .squeezing

/-- The phase a read of STATUS shows: the phase; while SFINAL is BUSY, PADDED or the phase it ends in (R42, I24). -/
def shownPhase (s : State) : Phase :=
  match s.running with
  | some r => if r.cmd = .sfinal then (if Config.freePadded s.freeTick then .padded else finalPhase s) else s.sph
  | none => s.sph

/-- How many of the delivered words a read of RNG_COUNT shows while BUSY: any number from the last shown to all of
them (R44, I22). -/
def shownCount (r : Running) (tick : Nat) : Nat :=
  r.shown + Config.freeCount tick % (r.drawn.length - r.shown + 1)

/-- A read of RNG_COUNT: the counter; while BUSY, a value between the count at acceptance and the words delivered, never
smaller than the last one read (R44). -/
def readCount (s : State) : State :=
  match s.running with
  | none => { s with readData := s.rngCount }
  | some r =>
    { s with
      readData := r.start + BitVec.ofNat 64 (shownCount r s.freeTick)
      running := some { r with shown := shownCount r s.freeTick }
      freeTick := s.freeTick + 1 }

/-- A read of STATUS; while BUSY it takes a free value (log entry 6). -/
def readStatus (s : State) : State :=
  match s.running with
  | none => { s with readData := statusWord s s.sph }
  | some _ => { s with readData := statusWord s (shownPhase s), freeTick := s.freeTick + 1 }

/-- A performed read: the register map of R36. CMD and 0x38 read 0. -/
def readRegister (off : Nat) (s : State) : State :=
  match off with
  | 0x08 => { s with readData := s.arg }
  | 0x10 => { s with readData := s.result }
  | 0x18 => readStatus s
  | 0x20 => { s with readData := ctrlWord s }
  | 0x28 => { s with readData := infoWord s.params }
  | 0x30 => readCount s
  | _ => { s with readData := 0 }

/-- A host read: a performed access reads its register, any other in the window reads 0 (R81), and outside the window
the platform answers (R83). -/
def hostRead (off width : Nat) (s : State) : State :=
  if !inWindow off then { s with readData := Config.platformRead s.freeTick off, freeTick := s.freeTick + 1 }
  else if performed off width then readRegister off s
  else { s with readData := 0 }

/-- The state a BUSY command was accepted in, with the words it has drawn and one more answer ready (R361). -/
def rewind (r : Running) (a : Answer) (s : State) : State :=
  { s with running := none, rngCount := r.start, answers := r.drawn.map .word ++ s.answers ++ [a] }

/-- What stays of the BUSY interval when the command goes on: IGN, and how much of RNG_COUNT was shown. -/
def restore (s : State) (r : Running) (t : State) : State :=
  { t with ign := s.ign, running := t.running.map fun q => { q with shown := r.shown } }

/-- One more answer of the RandomWordSource (R45). A BUSY command goes on with it: it completes, fails, or waits for
the next. Otherwise the answer stays ready for the next request. -/
def takeAnswer (a : Answer) (s : State) : Result :=
  match s.running with
  | none => .next { s with answers := s.answers ++ [a] }
  | some r =>
    match exec r.cmd (rewind r a s) with
    | .next t => .next (restore s r t)
    | .fault f => .fault f
    | .refused f => .refused f

/-- Reset (R350): every piece of the block's state takes its reset value; what the host and the source do next is
theirs. -/
def resetBlock (s : State) : State :=
  { State.resetOf s.params with
    answers := s.answers, inputs := s.inputs, readData := s.readData, freeTick := s.freeTick }

/-- The effect of one input. -/
def takeInput (e : Input) (s : State) : Result :=
  match e with
  | .read off width => .next (hostRead off width s)
  | .write off width v => hostWrite off width v s
  | .answer a => takeAnswer a s
  | .lateAnswer _ => .next s
  | .reset => .next (resetBlock s)

end Sys2Proof.Machine
end

