-- ==== Sys2Proof/Machine/Step.lean ====
section
/-! DEFINITION. One step: the next input takes effect. The block fetches nothing (R35): its commands are the host's CMD
writes, so the step reads the list of inputs. -/

namespace Sys2Proof.Machine

/-- One step. With no input the block is idle, or BUSY waiting for the source, and holds its state (R322). -/
def step (s : State) : Host.Outcome State Fault Refusal :=
  match s.inputs with
  | [] => .next s
  | e :: rest => takeInput e { s with inputs := rest }

/-- `s` with a CMD write of the word as its next input, and with BUSY = 0 and HALT = 0, so that the write is taken
(R300): the very next step runs that command (log entry 12). -/
def State.withFetchWord (s : State) (nbits w : Nat) : State :=
  { s with inputs := .write 0x00 8 (tableWord nbits w) :: s.inputs, running := none, halt := false }

end Sys2Proof.Machine
end

