-- ==== Sys2Proof/Machine/Reference.lean ====
section
/-! DEFINITION. The functions the block is compared with: Keccak-f[1600] on 25 plaintext words, and the whole-input sponge
of R253 to R255, on plaintext words and, with its draws, on shares. No step calls them; the claims do. -/

namespace Sys2Proof.Machine

/-- The plaintext lane `(x, y)` of an unmasked state. -/
def plainAt (g : List Word) (x y : Nat) : Word := g.getD (x % 5 + 5 * (y % 5)) 0

/-- The XOR of the five plaintext lanes of column `x`. -/
def plainParity (g : List Word) (x : Nat) : Word :=
  plainAt g x 0 ^^^ plainAt g x 1 ^^^ plainAt g x 2 ^^^ plainAt g x 3 ^^^ plainAt g x 4

/-- theta on plaintext lanes: the formula of R203. -/
def plainTheta (g : List Word) : List Word :=
  laneIndices.map fun L =>
    plainAt g (L % 5) (L / 5) ^^^ (plainParity g (L % 5 + 4) ^^^ rotl (plainParity g (L % 5 + 1)) 1)

/-- rho on plaintext lanes (R204). -/
def plainRho (g : List Word) : List Word :=
  laneIndices.map fun L => rotl (plainAt g (L % 5) (L / 5)) (rhoOffset (L % 5) (L / 5))

/-- The flat-index table of pi: new lane `L'` takes old lane `piSource[L']` (R205). -/
def piSource : List Nat :=
  [0, 6, 12, 18, 24, 3, 9, 10, 16, 22, 1, 7, 13] ++ [19, 20, 4, 5, 11, 17, 23, 2, 8, 14, 15, 21]

/-- pi on plaintext lanes, by the flat-index table (R205). -/
def plainPi (g : List Word) : List Word := piSource.map fun L => g.getD L 0

/-- chi on plaintext lanes: `a ^ (~b & c)` (R206). -/
def plainChi (g : List Word) : List Word :=
  laneIndices.map fun L =>
    plainAt g (L % 5) (L / 5) ^^^ (~~~(plainAt g (L % 5 + 1) (L / 5)) &&& plainAt g (L % 5 + 2) (L / 5))

/-- iota on plaintext lanes (R207). -/
def plainIota (i : Nat) (g : List Word) : List Word := g.set 0 (plainAt g 0 0 ^^^ rc i)

/-- One round of Keccak-f[1600] (R208). -/
def plainRound (i : Nat) (g : List Word) : List Word := plainIota i (plainChi (plainPi (plainRho (plainTheta g))))

/-- Keccak-f[1600]: rounds 0 to 23 in order (R209, R210). -/
def keccakF (g : List Word) : List Word := (List.range 24).foldl (fun g i => plainRound i g) g

/-- The little-endian word of at most eight bytes (R84, R253). -/
def leWord (bs : List Byte) : Word := bs.foldr (fun b w => (w <<< 8) ||| b.setWidth 64) 0

/-- The word lane `L` takes from a block (R84): its bytes `8L .. 8L+7`. -/
def blockWord (block : List Byte) (L : Nat) : Word := leWord ((block.drop (8 * L)).take 8)

/-- The state with the first `lanes` lanes of a block XORed in (R253). -/
def xorBlock (lanes : Nat) (block : List Byte) (st : List Word) : List Word :=
  laneIndices.map fun L => st.getD L 0 ^^^ (if L < lanes then blockWord block L else 0)

/-- The loop of R253 over the full blocks, on `fuel` blocks at most: the state after them, and the bytes left. -/
def fullBlocks (rate : Nat) : Nat → List Byte → List Word → List Word × List Byte
  | 0, msg, st => (st, msg)
  | fuel + 1, msg, st =>
    if rate ≤ msg.length then fullBlocks rate fuel (msg.drop rate) (keccakF (xorBlock (rate / 8) msg st))
    else (st, msg)

/-- All full blocks of a message, from the zero state (R253). A message has no more blocks than bytes. -/
def absorbFull (rate : Nat) (msg : List Byte) : List Word × List Byte :=
  fullBlocks rate msg.length msg (List.replicate 25 0)

/-- `P[k] <- P[k] ^ b`. -/
def xorByteAt (block : List Byte) (k : Nat) (b : Byte) : List Byte := block.set k (block.getD k 0 ^^^ b)

/-- The padded last block (R253, R254): the bytes left, zeros, DS at the first unused place, 0x80 at the last place. -/
def padBlock (rate : Nat) (ds : Byte) (rest : List Byte) : List Byte :=
  xorByteAt (xorByteAt (rest ++ List.replicate (rate - rest.length) 0) rest.length ds) (rate - 1) 0x80

/-- The reference absorb of R253. -/
def absorbRef (rate : Nat) (ds : Byte) (msg : List Byte) : List Word :=
  let (st, rest) := absorbFull rate msg
  keccakF (xorBlock (rate / 8) (padBlock rate ds rest) st)

/-- The loop of R255: `n` more bytes from the state `st` at position `pos` of its rate window. -/
def squeezeFrom (rate : Nat) : Nat → List Word → Nat → List Byte
  | 0, _, _ => []
  | n + 1, st, pos =>
    if pos = rate then byteOf ((keccakF st).getD 0 0) 0 :: squeezeFrom rate n (keccakF st) 1
    else byteOf (st.getD (pos / 8) 0) (pos % 8) :: squeezeFrom rate n st (pos + 1)

/-- The reference squeeze of R255. -/
def squeezeRef (rate : Nat) (outLen : Nat) (st : List Word) : List Byte := squeezeFrom rate outLen st 0

/-! ### The sponge of R253 and R255 on shares -/

/-- `S[L] <- xor(S[L], mask(w))` for `n` lanes from `L = first` on, `w` the word of the block at each (R253). -/
def maskedLanes (D : Nat) (block : List Byte) (first n : Nat) (g : Grid) : Draw Grid :=
  Draw.fold (fun g L => Draw.map (fun m => g.set L (gXor (laneAt g L) m)) (gMask D (blockWord block L)))
    (List.range' first n) g

/-- The last block of R253: padded, masked in, permuted. -/
def maskedLast (D rate : Nat) (ds : Byte) (rest : List Byte) (g : Grid) : Draw Grid :=
  Draw.bind (maskedLanes D (padBlock rate ds rest) 0 (rate / 8) g) (permute D)

/-- `absorb_ref` of R253 from the state `g`, on `fuel` full blocks at most, then the last block. -/
def maskedAbsorbFrom (D rate : Nat) (ds : Byte) : Nat → List Byte → Grid → Draw Grid
  | 0, msg, g => maskedLast D rate ds msg g
  | fuel + 1, msg, g =>
    if rate ≤ msg.length then
      Draw.bind (maskedLanes D msg 0 (rate / 8) g) fun g =>
        Draw.bind (permute D g) (maskedAbsorbFrom D rate ds fuel (msg.drop rate))
    else maskedLast D rate ds msg g

/-- The loop of R255: `n` more bytes from the state `g` at position `pos` of its rate window; the state it ends in, and
the bytes. -/
def maskedSqueezeFrom (D rate : Nat) : Nat → Grid → Nat → Draw (Grid × List Byte)
  | 0, g, _ => Draw.pure (g, [])
  | n + 1, g, pos =>
    Draw.bind (if pos = rate then Draw.map (fun g => (g, 0)) (permute D g) else Draw.pure (g, pos)) fun gp =>
      Draw.map (fun r => (r.1, byteOf (gUnmask (laneAt gp.1 (gp.2 / 8))) (gp.2 % 8) :: r.2))
        (maskedSqueezeFrom D rate n gp.1 (gp.2 + 1))

/-- `absorb_ref(msg)`, then `squeeze_ref(outLen)` (R253, R255). -/
def maskedSponge (D rate : Nat) (ds : Byte) (outLen : Nat) (msg : List Byte) : Draw (Grid × List Byte) :=
  Draw.bind (maskedAbsorbFrom D rate ds msg.length msg (zeroGrid D)) fun g => maskedSqueezeFrom D rate outLen g 0

end Sys2Proof.Machine
end

