-- ==== Sys2Proof/Safety.lean ====
section
/-! DEFINITION. The terms the claims use: plaintext values, the draw counts of R368, the invariant every step keeps, the
relations between the streamed sponge and the whole-input sponge of R253 and R255, and what a command leaves unchanged. -/

namespace Sys2Proof.Machine

/-! ### Values and shapes -/

/-- A grid of 25 lanes of `D + 1` shares each (R30). -/
def gridOk (D : Nat) (g : Grid) : Prop := g.length = 25 ∧ ∀ a ∈ g, a.length = D + 1

/-- The plaintext value of every lane (R31). -/
def gridValues (g : Grid) : List Word := g.map gUnmask

/-- The plaintext value of the state `S` (R31). -/
def State.values (s : State) : List Word := gridValues s.lanes

/-! ### Draw counts -/

/-- The words one AND gadget draws: `D(D+1)/2` (R154). -/
def andDraws (D : Nat) : Nat := D * (D + 1) / 2

/-- The words one permutation draws: `300*D*(D+1)` (R210). -/
def permuteDraws (D : Nat) : Nat := 300 * D * (D + 1)

/-- The lanes that `n` more bytes complete (R261). -/
def lanesCompleted (s : State) (n : Nat) : Nat := (s.apos.toNat % 8 + n) / 8

/-- The blocks that `n` more bytes complete (R261). -/
def blocksCompleted (s : State) (n : Nat) : Nat := if s.rate.toNat ≤ s.apos.toNat + n then 1 else 0

/-- The rate windows that `n` more output bytes open (R263). -/
def windowsOpened (s : State) (n : Nat) : Nat := if s.rate.toNat < s.spos.toNat + n then 1 else 0

/-- The words a command draws: the table of R368. -/
def drawsOf (i : Instr) (s : State) : Nat :=
  let D := s.params.D
  match i with
  | .lmask _ => D
  | .lmxor _ => D
  | .lxorc _ => 0
  | .lunmask _ => 0
  | .lmov _ _ => 0
  | .lxor _ _ _ => 0
  | .lnot _ _ => 0
  | .lrotl _ _ _ => 0
  | .land _ _ _ => andDraws D
  | .stclr => 0
  | .theta => 0
  | .rho => 0
  | .pi => 0
  | .chi => 25 * andDraws D
  | .iota _ => 0
  | .round _ => 25 * andDraws D
  | .permute => permuteDraws D
  | .sinit _ => 0
  | .sabsorb n => D * lanesCompleted s n.toNat + permuteDraws D * blocksCompleted s n.toNat
  | .sfinal => D * (s.rate.toNat / 8 - s.apos.toNat / 8) + permuteDraws D
  | .ssqueeze n => permuteDraws D * windowsOpened s n.toNat

/-! ### The invariant -/

/-- A rate in bytes that is a multiple of 8 in `8..192` (R46, R252). -/
def legalRate (r : Nat) : Prop := r % 8 = 0 ∧ 8 ≤ r ∧ r ≤ 192

/-- RATE holds a rate that SINIT can set (R46). -/
def rateOk (r : BitVec 8) : Prop := r.toNat % 8 = 0 ∧ 8 ≤ r.toNat ∧ r.toNat ≤ 192

/-- The sponge registers in each phase that is stable between commands (R42, R46 to R48). -/
def spongeOk (s : State) : Prop :=
  match s.sph with
  | .empty => s.rate = 0 ∧ s.ds = 0 ∧ s.outLen = 0 ∧ s.apos = 0 ∧ s.lacc = 0 ∧ s.spos = 0 ∧ s.delivered = 0
  | .absorbing =>
    rateOk s.rate ∧ s.apos.toNat < s.rate.toNat ∧ s.lacc.toNat < 2 ^ (8 * (s.apos.toNat % 8)) ∧ s.spos = 0 ∧
      s.delivered = 0
  | .squeezing =>
    rateOk s.rate ∧ s.apos = 0 ∧ s.lacc = 0 ∧ s.spos.toNat ≤ s.rate.toNat ∧ s.delivered.toNat < s.outLen.toNat
  | .done => rateOk s.rate ∧ s.apos = 0 ∧ s.lacc = 0 ∧ s.spos.toNat ≤ s.rate.toNat ∧ s.delivered = s.outLen
  | .padded => False
  | .permuted => False

/-- What holds of a BUSY command (R44, R89, R360): it passed its checks, it has used every answer ready, RNG_COUNT has
counted its words, and it needs more. -/
def runningOk (s : State) (r : Running) : Prop :=
  s.halt = false ∧ s.answers = [] ∧ s.err = .ok ∧ check r.cmd s = none ∧
    s.rngCount = r.start + BitVec.ofNat 64 r.drawn.length ∧ r.shown ≤ r.drawn.length ∧
    r.drawn.length < drawsOf r.cmd s

/-- The invariant that holds at reset and that every step keeps. -/
structure State.Inv (s : State) : Prop where
  /-- Every lane is complete (R30, R31). -/
  grid : gridOk s.params.D s.lanes
  /-- The randomness matrix is discarded (R49). -/
  matrix : s.rm = zeroMatrix s.params.D
  /-- The phase is stable, and the sponge registers fit it (R42, R46 to R48). -/
  sponge : spongeOk s
  /-- HALT is the state of ERR_RNG (R301, R310). -/
  halted : s.halt = true ↔ s.err = .rng
  /-- A halted block is scrubbed and runs nothing (R310, R311). -/
  scrubbed : s.halt = true → s.running = none ∧ scrub s = s
  /-- A BUSY command is as R360 leaves it. -/
  busyOk : ∀ r, s.running = some r → runningOk s r

/-! ### The sponge and its reference -/

/-- The sponge is in phase ABSORBING and has received exactly the bytes `msg` since SINIT: APOS and LACC hold the bytes
that do not fill a block, and the state is the reference state with their complete lanes XORed in (R253, R261). -/
def absorbed (s : State) (msg : List Byte) : Prop :=
  let st := (absorbFull s.rate.toNat msg).1
  let rest := (absorbFull s.rate.toNat msg).2
  s.sph = .absorbing ∧ rateOk s.rate ∧ s.apos.toNat = rest.length ∧ rest.length < s.rate.toNat ∧
    s.lacc = leWord (rest.drop (8 * (rest.length / 8))) ∧ s.values = xorBlock (rest.length / 8) rest st

/-- The output bytes still to come from a state in phase SQUEEZING or DONE, by the loop of R255. -/
def remaining (s : State) : List Byte :=
  squeezeFrom s.rate.toNat (s.outLen.toNat - s.delivered.toNat) s.values s.spos.toNat

/-! ### What is unchanged, and what a command that ran leaves -/

/-- What no command writes: the parameters, ARG, HALT, CTRL.RAW_EN, the command that is BUSY, the inputs to come and the
last value read. RATE, DS and OUTLEN stand here too: only SINIT and scrub write them (R46). -/
structure hostSame (s t : State) : Prop where
  params : t.params = s.params
  arg : t.arg = s.arg
  halt : t.halt = s.halt
  rawEn : t.rawEn = s.rawEn
  running : t.running = s.running
  inputs : t.inputs = s.inputs
  readData : t.readData = s.readData

/-- The sponge parameters of R46 are unchanged. -/
structure paramsSame (s t : State) : Prop where
  rate : t.rate = s.rate
  ds : t.ds = s.ds
  outLen : t.outLen = s.outLen

/-- The positions of R47 and R48 and the phase are unchanged. -/
structure positionsSame (s t : State) : Prop where
  sph : t.sph = s.sph
  apos : t.apos = s.apos
  lacc : t.lacc = s.lacc
  spos : t.spos = s.spos
  delivered : t.delivered = s.delivered

/-- What an accepted and completed command does apart from its own rule's writes (R309): ERR and IGN are 0, RNG_COUNT has
counted its `n` words, the answers after them are left, and nothing of `hostSame` has changed. -/
structure ran (n : Nat) (rest : List Answer) (s t : State) : Prop where
  err : t.err = .ok
  ign : t.ign = false
  count : t.rngCount = s.rngCount + BitVec.ofNat 64 n
  answers : t.answers = rest
  same : hostSame s t

/-- `ran`, for a command that draws nothing and, of the state the program can name, writes lanes only: the sponge
registers, the phase, RESULT and `Rm` are unchanged (R159, R212). -/
structure ranLinear (s t : State) : Prop where
  ran : ran 0 s.answers s t
  spongeParams : paramsSame s t
  positions : positionsSame s t
  result : t.result = s.result
  rm : t.rm = s.rm

/-- `ran`, for a raw command that draws `n` words: as `ranLinear`, but for the words drawn; `Rm` is all zero again. -/
structure ranMasked (n : Nat) (rest : List Answer) (s t : State) : Prop where
  ran : ran n rest s t
  spongeParams : paramsSame s t
  positions : positionsSame s t
  result : t.result = s.result
  rm : t.rm = zeroMatrix s.params.D

/-- Raw commands pass the checks of R307 that come before their operands: RAW_EN = 1, phase EMPTY or DONE. -/
def rawReady (s : State) : Prop := s.rawEn = true ∧ (s.sph = .empty ∨ s.sph = .done)

/-- The next answers of the source are the words `ws`, then `rest`. -/
def supplied (s : State) (ws : List Word) (rest : List Answer) : Prop := s.answers = ws.map .word ++ rest

/-- A lane index in range (R111). -/
def validLane (l : BitVec 5) : Prop := l.toNat < 25

/-! ### Shares, said one by one -/

/-- Lane `a` is complete, and its share `k` is `f k` (R15). -/
def laneIs (D : Nat) (a : Lane) (f : Nat → Word) : Prop := a.length = D + 1 ∧ ∀ k ≤ D, shareAt a k = f k

/-- All 25 lanes are there, and only lane `L` may have changed. -/
def othersSame (L : Nat) (s t : State) : Prop :=
  t.lanes.length = 25 ∧ ∀ M, M ≠ L → laneAt t.lanes M = laneAt s.lanes M

/-- The share-`k` slice of a grid: one word for each lane (R203). -/
def slice (k : Nat) (g : Grid) : List Word := g.map fun a => shareAt a k

/-- Share `k` of `mask(v)` with the draws `ws` (R150). -/
def maskShare (D : Nat) (v : Word) (ws : List Word) (k : Nat) : Word :=
  if k = D then v ^^^ xorAll ws else ws.getD k 0

/-- Share `k` of `not(a)`: complemented, but for share 0 when `D + 1` is even (R153, R166). -/
def notShare (D : Nat) (a : Lane) (k : Nat) : Word :=
  if k = 0 ∧ (D + 1) % 2 = 0 then shareAt a 0 else ~~~(shareAt a k)

/-- The place of the pair `(i, j)`, `i < j ≤ D`, in the draw order of R154: after the `D + (D-1) + ..` pairs of the rows
before `i`. -/
def pairPlace (D i j : Nat) : Nat := i * D - i * (i - 1) / 2 + (j - i - 1)

/-- The word drawn for the pair `(i, j)` (R154). -/
def pairWord (D : Nat) (ws : List Word) (i j : Nat) : Word := ws.getD (pairPlace D i j) 0

/-- Share `k` of `and(a, b)` with the draws `ws`: the diagonal term, the cross term and the word of each pair `(i, k)`, the
word of each pair `(k, j)` (R154). -/
def andShare (D : Nat) (a b : Nat → Word) (ws : List Word) (k : Nat) : Word :=
  (a k &&& b k)
    ^^^ xorAll ((List.range k).map fun i => ((a i &&& b k) ^^^ (a k &&& b i)) ^^^ pairWord D ws i k)
    ^^^ xorAll ((List.range' (k + 1) (D - k)).map fun j => pairWord D ws k j)

/-- `S[L] <- xor(S[L], mask(w))` with the draws `ws`, share by share (R150, R152). -/
def maskInto (D L : Nat) (w : Word) (ws : List Word) (g : Grid) : Grid :=
  g.set L ((List.range (D + 1)).map fun k => shareAt (laneAt g L) k ^^^ maskShare D w ws k)

/-- `maskInto` for each lane of a list in order, each with the next `D` draws; `w` gives the words (R253, R262). -/
def maskLanes (D : Nat) (w : Nat → Word) : List Nat → Grid → List Word → Grid
  | [], g, _ => g
  | L :: Ls, g, ws => maskLanes D w Ls (maskInto D L (w L) (ws.take D) g) (ws.drop D)

/-- Every share of `chi` with the draws `ws`: lane `L` takes the `L`-th `D(D+1)/2` of them (R206). -/
def chiShares (D : Nat) (g : Grid) (ws : List Word) : Grid :=
  laneIndices.map fun L => (List.range (D + 1)).map fun k =>
    shareAt (laneXY g (L % 5) (L / 5)) k ^^^
      andShare D (notShare D (laneXY g (L % 5 + 1) (L / 5))) (shareAt (laneXY g (L % 5 + 2) (L / 5)))
        ((ws.drop (L * andDraws D)).take (andDraws D)) k

/-- Every share of one round with the draws `ws`, all of them in chi (R208). -/
def roundShares (D i : Nat) (g : Grid) (ws : List Word) : Grid := iota i (chiShares D (pi (rho (theta g))) ws)

/-- Every share of the permutation with the draws `ws`: round `i` takes the `i`-th `25*D(D+1)/2` of them (R209). -/
def permuteShares (D : Nat) (g : Grid) (ws : List Word) : Grid :=
  (List.range 24).foldl
    (fun g i => roundShares D i g ((ws.drop (i * (25 * andDraws D))).take (25 * andDraws D))) g

/-! ### The checks, by opcode -/

/-- The opcode of a command: the low eight bits of its word (R110). -/
def opcodeOf (i : Instr) : Nat := (encode i).toNat % 256

/-- The table of R266: the opcodes a phase allows. -/
def phaseRow (p : Phase) (opc : Nat) : Prop :=
  match p with
  | .empty => opc < 0x20 ∨ opc = 0x20
  | .absorbing => opc = 0x20 ∨ opc = 0x21 ∨ opc = 0x22
  | .squeezing => opc = 0x20 ∨ opc = 0x23
  | .done => opc < 0x20 ∨ opc = 0x20
  | .padded => opc = 0x20
  | .permuted => opc = 0x20

/-- SINIT names an unsupported configuration: the two cases of R305. -/
def badConfig (i : Instr) (arg : Word) : Prop :=
  ∃ n, i = .sinit n ∧ (6 < n.toNat ∨ n.toNat = 6 ∧
    (¬ legalRate (arg.toNat % 2 ^ 16) ∨ arg.toNat / 2 ^ 24 % 2 ^ 8 ≠ 0))

/-- An operand is out of range: the four cases of R306, field by field. -/
def badOperand (i : Instr) (s : State) : Prop :=
  match i with
  | .lmask ld => 25 ≤ ld.toNat
  | .lmxor ld => 25 ≤ ld.toNat
  | .lxorc ld => 25 ≤ ld.toNat
  | .lunmask la => 25 ≤ la.toNat
  | .lmov ld la => 25 ≤ ld.toNat ∨ 25 ≤ la.toNat
  | .lxor ld la lb => 25 ≤ ld.toNat ∨ 25 ≤ la.toNat ∨ 25 ≤ lb.toNat
  | .lnot ld la => 25 ≤ ld.toNat ∨ 25 ≤ la.toNat
  | .lrotl ld la _ => 25 ≤ ld.toNat ∨ 25 ≤ la.toNat
  | .land ld la lb => 25 ≤ ld.toNat ∨ 25 ≤ la.toNat ∨ 25 ≤ lb.toNat
  | .stclr => False
  | .theta => False
  | .rho => False
  | .pi => False
  | .chi => False
  | .iota n => 24 ≤ n.toNat
  | .round n => 24 ≤ n.toNat
  | .permute => False
  | .sinit _ => False
  | .sabsorb n => n.toNat = 0 ∨ 8 < n.toNat
  | .sfinal => False
  | .ssqueeze n => n.toNat = 0 ∨ 8 < n.toNat ∨ s.outLen.toNat - s.delivered.toNat < n.toNat

/-- A command may be taken and nothing stops it from being accepted: idle, not halted, and every check of R307 passes. -/
structure accepts (i : Instr) (s : State) : Prop where
  idle : s.running = none
  notHalted : s.halt = false
  enabled : opcodeOf i < 0x20 → s.rawEn = true
  phase : phaseRow s.sph (opcodeOf i)
  config : ¬ badConfig i s.arg
  operands : ¬ badOperand i s

/-! ### Which input a step takes -/

/-- The next input is a write of `v` to the register at `off` that the block takes (R88, R300). -/
def takesWrite (s : State) (off : Nat) (v : Word) : Prop :=
  s.inputs.head? = some (.write off 8 v) ∧ s.halt = false ∧ s.running = none

/-- The next step works on command `i`: it is the write that submits it, or the answer a BUSY one waits for (R360). -/
def worksOn (s : State) (i : Instr) : Prop :=
  (∃ w, takesWrite s 0x00 w ∧ decode w = .ok i) ∨
  (∃ a r, s.inputs.head? = some (.answer a) ∧ s.running = some r ∧ r.cmd = i)

/-- The next step scrubs because RAW_EN goes from 0 to 1 (R43). -/
def entersRaw (s : State) : Prop := ∃ v, takesWrite s 0x20 v ∧ v.getLsbD 0 = true ∧ s.rawEn = false

/-- The answers the block can draw on in the next step: those ready, and the one that arrives. -/
def answersAtHand (s : State) : List Answer :=
  s.answers ++ (match s.inputs.head? with | some (.answer a) => [a] | _ => [])

/-- An answer that is a word. -/
def Answer.isWord : Answer → Bool
  | .word _ => true
  | .failure => false

/-- The answers among some inputs, in order. -/
def answersIn : List Input → List Answer
  | [] => []
  | .answer a :: rest => a :: answersIn rest
  | .read _ _ :: rest => answersIn rest
  | .write _ _ _ :: rest => answersIn rest
  | .lateAnswer _ :: rest => answersIn rest
  | .reset :: rest => answersIn rest

/-- `s` and `t` differ at most in what R361 lets a BUSY interval differ in (IGN), in the temporaries of R50, and in the
model's own fields. -/
def sameAfterBusy (s t : State) : Prop :=
  { t with ign := s.ign, temps := s.temps, inputs := s.inputs, readData := s.readData, freeTick := s.freeTick } = s

/-- `s` and `t` are two states of one BUSY interval: they differ at most in IGN, RNG_COUNT, the words the command has drawn,
and the model's own fields (R89). -/
def sameWhileBusy (s t : State) : Prop :=
  { t with
    ign := s.ign
    rngCount := s.rngCount
    running := s.running
    inputs := s.inputs
    readData := s.readData
    freeTick := s.freeTick } = s

/-- `s` and `t` differ at most in the temporaries of R50, whose contents are unspecified, and the model's counter. -/
def sameButTemps (s t : State) : Prop := { t with temps := s.temps, freeTick := s.freeTick } = s

/-- `t` is the scrubbed state of R353: what scrub zeroes is zero, and what it does not change is as in `s`, but for ERR,
IGN, HALT and BUSY, which its caller sets. -/
structure scrubbed (s t : State) : Prop where
  lanes : t.lanes.length = 25 ∧ ∀ a ∈ t.lanes, a.length = s.params.D + 1 ∧ ∀ w ∈ a, w = 0
  rm : t.rm.length = s.params.D + 1 ∧ ∀ a ∈ t.rm, a.length = s.params.D + 1 ∧ ∀ w ∈ a, w = 0
  sponge : t.rate = 0 ∧ t.ds = 0 ∧ t.outLen = 0
  positions : t.apos = 0 ∧ t.lacc = 0 ∧ t.spos = 0 ∧ t.delivered = 0
  result : t.result = 0
  sph : t.sph = .empty
  params : t.params = s.params

/-! ### The opcode table -/

/-- A row of R116: the opcode and which of the fields LD, LA, LB, N it uses. -/
structure OpcodeRow where
  opc : Nat
  ld : Bool
  la : Bool
  lb : Bool
  n : Bool
deriving DecidableEq, Repr

/-- The 21 rows of R116. -/
def opcodeRows : List OpcodeRow :=
  [⟨0x01, true, false, false, false⟩, ⟨0x02, true, false, false, false⟩, ⟨0x03, true, false, false, false⟩,
   ⟨0x04, false, true, false, false⟩, ⟨0x05, true, true, false, false⟩, ⟨0x06, true, true, true, false⟩,
   ⟨0x07, true, true, false, false⟩, ⟨0x08, true, true, false, true⟩, ⟨0x09, true, true, true, false⟩] ++
  [⟨0x10, false, false, false, false⟩, ⟨0x11, false, false, false, false⟩, ⟨0x12, false, false, false, false⟩,
   ⟨0x13, false, false, false, false⟩, ⟨0x14, false, false, false, false⟩, ⟨0x15, false, false, false, true⟩,
   ⟨0x16, false, false, false, true⟩, ⟨0x17, false, false, false, false⟩] ++
  [⟨0x20, false, false, false, true⟩, ⟨0x21, false, false, false, true⟩, ⟨0x22, false, false, false, false⟩,
   ⟨0x23, false, false, false, true⟩]

/-- A CMD value follows the table: bits 63:29 zero, the opcode of a row, and every field the row does not use zero
(R114, R116, R302). -/
def followsTable (w : Word) : Prop :=
  w.toNat / 2 ^ 29 = 0 ∧ ∃ r ∈ opcodeRows, w.toNat % 2 ^ 8 = r.opc ∧
    (r.ld = false → w.toNat / 2 ^ 8 % 2 ^ 5 = 0) ∧ (r.la = false → w.toNat / 2 ^ 13 % 2 ^ 5 = 0) ∧
    (r.lb = false → w.toNat / 2 ^ 18 % 2 ^ 5 = 0) ∧ (r.n = false → w.toNat / 2 ^ 23 % 2 ^ 6 = 0)

/-! ### Sequences of commands -/

/-- Run commands one after another, each with a value written to ARG before it; the bytes the SSQUEEZE commands return are
collected. None where a command is rejected, fails or stays BUSY. -/
def runAll : List (Word × Instr) → State → Option (State × List Byte)
  | [], s => some (s, [])
  | (a, i) :: rest, s =>
    match exec i { s with arg := a } with
    | .next t =>
      if t.err = .ok ∧ t.running = none then
        match runAll rest t with
        | some (u, out) =>
          some (u, (match i with | .ssqueeze n => bytesOf t.result n.toNat | _ => []) ++ out)
        | none => none
      else none
    | .fault _ => none
    | .refused _ => none

/-- The SABSORB commands that carry the given byte counts and ARG values. -/
def absorbCommands (chunks : List (Word × BitVec 6)) : List (Word × Instr) :=
  chunks.map fun c => (c.1, .sabsorb c.2)

/-- The bytes they carry. -/
def chunkBytes (chunks : List (Word × BitVec 6)) : List Byte :=
  chunks.flatMap fun c => bytesOf c.1 c.2.toNat

/-- The SSQUEEZE commands with the given byte counts, whatever ARG holds. -/
def squeezeCommands (counts : List (Word × BitVec 6)) : List (Word × Instr) :=
  counts.map fun c => (c.1, .ssqueeze c.2)

/-! ### Equal plaintext -/

/-- Two states, perhaps of different masking orders, with the same plaintext in every lane and the same registers a command
reads. -/
structure samePlain (s t : State) : Prop where
  values : t.values = s.values
  arg : t.arg = s.arg
  result : t.result = s.result
  sph : t.sph = s.sph
  rawEn : t.rawEn = s.rawEn
  rate : t.rate = s.rate
  ds : t.ds = s.ds
  outLen : t.outLen = s.outLen
  apos : t.apos = s.apos
  lacc : t.lacc = s.lacc
  spos : t.spos = s.spos
  delivered : t.delivered = s.delivered

/-- A command was accepted and completed: not rejected, not failed, not BUSY. -/
def completed (t : State) : Prop := t.err = .ok ∧ t.running = none

/-- Two states that may hold different secrets (lanes, LACC, ARG, drawn words) but agree on everything public: the values
of R364, the command gate, and the kind of each answer of the source. -/
structure samePublic (s t : State) : Prop where
  params : t.params = s.params
  sph : t.sph = s.sph
  rawEn : t.rawEn = s.rawEn
  rate : t.rate = s.rate
  ds : t.ds = s.ds
  outLen : t.outLen = s.outLen
  apos : t.apos = s.apos
  spos : t.spos = s.spos
  delivered : t.delivered = s.delivered
  halt : t.halt = s.halt
  err : t.err = s.err
  rngCount : t.rngCount = s.rngCount
  answers : t.answers.map Answer.isWord = s.answers.map Answer.isWord
  busy : t.running.map (fun r => (r.cmd, r.start, r.drawn.length, r.shown))
    = s.running.map (fun r => (r.cmd, r.start, r.drawn.length, r.shown))

end Sys2Proof.Machine
end

