-- ==== Sys2Proof/Certificates/Slice0/Obligations.lean ====
section
/-! DEFINITION. The statements for the provers. Each docstring names the rules it rests on; a clause that rests on the
model's own choice names its log entry. -/

section

open Sys2Proof Sys2Proof.Machine

/-! ### Encoding -/

/-- R110, R114, R116, R118: encoding any command and decoding it gives the command back, with every field at every value
its bits can hold. -/
def Obligations.DecodeEncodeGivesBack : Prop := ∀ i : Instr, decode (encode i) = .ok i

/-- R114, R117: a CMD value that decodes is the one encoding of its command; no bit of it is ignored. -/
def Obligations.DecodedValueIsItsEncoding : Prop := ∀ (w : Word) (i : Instr), decode w = .ok i → encode i = w

/-- R121: the seven encodings the spec writes out. -/
def Obligations.SpecWordsDecode : Prop :=
  decode 0x00040209 = .ok (.land 2 0 1) ∧ decode 0x02006408 = .ok (.lrotl 4 3 4) ∧
  decode 0x00030004 = .ok (.lunmask 24) ∧ decode 0x0B800016 = .ok (.round 23) ∧
  decode 0x00800020 = .ok (.sinit 1) ∧ decode 0x01800021 = .ok (.sabsorb 3) ∧
  decode 0x04000023 = .ok (.ssqueeze 8)

/-- R302 (with R114, R117, R118): a taken CMD value is rejected with ERR_ILLEGAL exactly when a bit of 63:29 is 1, the opcode
is none of the 21, or a field the opcode does not use is not zero; nothing but ERR and IGN changes then (R308). After any other
value ERR is not ERR_ILLEGAL, also while its command is BUSY: that ERR is 0 from acceptance on is R309 and R360; R362 says
otherwise, and there the choice is the model's (log entry 23). -/
def Obligations.IllegalExactlyOffTheTable : Prop :=
  ∀ (s : State) (w : Word) (rest : List Input),
    s.inputs = .write 0x00 8 w :: rest → s.halt = false → s.running = none →
    (¬ followsTable w → step s = .next { s with inputs := rest, err := .illegal, ign := false }) ∧
    (followsTable w → ∃ i t, decode w = .ok i ∧ step s = .next t ∧ t.err ≠ .illegal)

/-! ### A step -/

/-- R300, R360: when the next input is a CMD write that is taken and its value decodes to a command, the step is `exec` of
that command, after the input is consumed. -/
def Obligations.StepRunsDecodedCommand : Prop :=
  ∀ (s : State) (w : Word) (i : Instr) (rest : List Input),
    s.inputs = .write 0x00 8 w :: rest → s.halt = false → s.running = none → decode w = .ok i →
    step s = exec i { s with inputs := rest }

/-- R81, R316, R371: no input stops the machine: every step answers a next state. -/
def Obligations.EveryStepAnswersANextState : Prop := ∀ s : State, ∃ t, step s = .next t

/-! ### Host accesses -/

/-- R81: an access in the window that is not 64 bits wide at an 8-aligned offset is not performed: a read returns 0, and a
write has no effect on any state, IGN included, in every state of the block. -/
def Obligations.UnalignedOrNarrowAccessNotPerformed : Prop :=
  ∀ (s : State) (off width : Nat) (v : Word) (rest : List Input), off < 0x40 → (width ≠ 8 ∨ off % 8 ≠ 0) →
    (s.inputs = .read off width :: rest → step s = .next { s with inputs := rest, readData := 0 }) ∧
    (s.inputs = .write off width v :: rest → step s = .next { s with inputs := rest })

/-- R36, R41 (with R37 to R44, R83): with no command BUSY, a read of each register returns its fields at their places, and
changes nothing. ERR shows the codes of R301, SPH those of R42. -/
def Obligations.IdleReadsReturnTheRegisters : Prop :=
  ∀ (s : State) (off : Nat) (rest : List Input),
    s.running = none → s.inputs = .read off 8 :: rest → off < 0x40 → off % 8 = 0 →
    ∃ v : Word, step s = .next { s with inputs := rest, readData := v } ∧
      (off = 0x00 → v = 0) ∧ (off = 0x08 → v = s.arg) ∧ (off = 0x10 → v = s.result) ∧
      (off = 0x18 →
        let err := match s.err with
          | .ok => 0
          | .illegal => 1
          | .operand => 2
          | .sequence => 3
          | .config => 4
          | .disabled => 5
          | .rng => 15
        let sph := match s.sph with
          | .empty => 0
          | .absorbing => 1
          | .padded => 2
          | .permuted => 3
          | .squeezing => 4
          | .done => 5
        v.toNat = 2 * s.halt.toNat + 4 * s.ign.toNat + 16 * err + 256 * sph) ∧
      (off = 0x20 → v.toNat = s.rawEn.toNat) ∧
      (off = 0x28 → v.toNat = s.params.D + 256 * s.params.DMax + 65536) ∧
      (off = 0x30 → v = s.rngCount) ∧ (off = 0x38 → v = 0)

/-- R87: no register read has a side effect: of the block's own state a read changes nothing, BUSY or not (what the model
keeps of the read itself apart: the value read, its counter, and how much of RNG_COUNT has been shown). -/
def Obligations.ReadsHaveNoSideEffect : Prop :=
  ∀ (s : State) (off width : Nat) (rest : List Input), s.inputs = .read off width :: rest →
    ∃ t, step s = .next t ∧
      { t with readData := s.readData, freeTick := s.freeTick, running := s.running } = { s with inputs := rest } ∧
      t.running.map (fun r => (r.cmd, r.start, r.drawn)) = s.running.map fun r => (r.cmd, r.start, r.drawn)

/-- R40: INFO reads as D, D_MAX and the interface version 1, in every state, and no step changes what it shows. -/
def Obligations.InfoReadsTheConfiguration : Prop :=
  (∀ (s : State) (rest : List Input), s.inputs = .read 0x28 8 :: rest →
    ∃ t, step s = .next t ∧ (t.readData.toNat % 256 = s.params.D ∧ t.readData.toNat / 2 ^ 8 % 256 = s.params.DMax ∧
      t.readData.toNat / 2 ^ 16 % 256 = 1 ∧ t.readData.toNat / 2 ^ 24 = 0)) ∧
  (∀ s t : State, step s = .next t → t.params = s.params)

/-- R38: ARG takes exactly the values the host writes to it while BUSY = 0 and HALT = 0, and 0 at reset; no command, scrub
or failure changes it. -/
def Obligations.ArgHoldsTheLastTakenWrite : Prop :=
  ∀ s t : State, step s = .next t →
    (∀ v, takesWrite s 0x08 v → t.arg = v) ∧ (s.inputs.head? = some .reset → t.arg = 0) ∧
    ((¬ ∃ v, takesWrite s 0x08 v) → s.inputs.head? ≠ some .reset → t.arg = s.arg)

/-- R43: a CTRL write with BUSY = 0 and HALT = 0 sets RAW_EN to bit 0 of its value, scrubs first exactly when that turns
RAW_EN from 0 to 1, and changes neither ERR nor IGN; while BUSY it is ignored and sets IGN; while HALT = 1 it is ignored.
Nothing else but reset writes RAW_EN; CTRL reads as RAW_EN in bit 0, all other bits 0. -/
def Obligations.CtrlWriteSetsRawEnAndScrubs : Prop :=
  (∀ (s : State) (v : Word) (rest : List Input), s.inputs = .write 0x20 8 v :: rest →
    (s.halt = true → step s = .next { s with inputs := rest }) ∧
    (s.halt = false → s.running.isSome → step s = .next { s with inputs := rest, ign := true }) ∧
    (s.halt = false → s.running = none → ∃ t, step s = .next t ∧ t.rawEn = v.getLsbD 0 ∧ t.err = s.err ∧ t.ign = s.ign ∧
      t.halt = s.halt ∧ t.arg = s.arg ∧ t.rngCount = s.rngCount ∧ t.answers = s.answers ∧
      (v.getLsbD 0 = true → s.rawEn = false → scrubbed s t) ∧
      (¬ (v.getLsbD 0 = true ∧ s.rawEn = false) → t = { s with inputs := rest, rawEn := v.getLsbD 0 }))) ∧
  (∀ s t : State, step s = .next t → (¬ ∃ v, takesWrite s 0x20 v) → s.inputs.head? ≠ some .reset → t.rawEn = s.rawEn) ∧
  (∀ (s : State) (rest : List Input), s.inputs = .read 0x20 8 :: rest →
    ∃ t, step s = .next t ∧ t.readData.toNat = s.rawEn.toNat) ∧
  (∀ (s : State) (rest : List Input), s.inputs = .reset :: rest → ∃ t, step s = .next t ∧ t.rawEn = false)

/-- R88 (with R36, R83): with BUSY = 0 and HALT = 0 an ARG write sets ARG and nothing else, and a write to RESULT, STATUS,
INFO, RNG_COUNT or the reserved offset 0x38 has no effect. -/
def Obligations.OtherWritesHaveNoEffect : Prop :=
  ∀ (s : State) (off : Nat) (v : Word) (rest : List Input),
    s.inputs = .write off 8 v :: rest → s.halt = false → s.running = none →
    (off = 0x08 → step s = .next { s with inputs := rest, arg := v }) ∧
    (off = 0x10 ∨ off = 0x18 ∨ off = 0x28 ∨ off = 0x30 ∨ off = 0x38 → step s = .next { s with inputs := rest })

/-- R315: a write to CMD, ARG or CTRL while BUSY = 1 and HALT = 0 is ignored and sets IGN; a write to another offset is
ignored without setting it; the running command is not touched; and IGN stays 1 until a CMD write is taken or reset. -/
def Obligations.BusyWritesAreIgnoredAndSetIgn : Prop :=
  (∀ (s : State) (off : Nat) (v : Word) (rest : List Input),
    s.inputs = .write off 8 v :: rest → s.halt = false → s.running.isSome →
    (off = 0x00 ∨ off = 0x08 ∨ off = 0x20 → step s = .next { s with inputs := rest, ign := true }) ∧
    (off ≠ 0x00 → off ≠ 0x08 → off ≠ 0x20 → step s = .next { s with inputs := rest })) ∧
  (∀ s t : State, step s = .next t → s.ign = true → t.ign = false →
    (∃ w, takesWrite s 0x00 w) ∨ s.inputs.head? = some .reset) ∧
  (∀ s t : State, (∃ w, takesWrite s 0x00 w) ∨ s.inputs.head? = some .reset → step s = .next t → t.ign = false)

/-- R42, R41, I24: while a command is BUSY, STATUS reads with BUSY = 1 and the phase, which during SFINAL is PADDED or the
phase it ends in (log entry 6: which of the two is a free value). That ERR reads 0 from acceptance on is R309 and R360, with R41
and R301; R362 says otherwise, and the choice is the model's (log entry 23). -/
def Obligations.BusyStatusRead : Prop :=
  ∀ (s : State) (r : Running) (rest : List Input), s.Inv → s.running = some r → s.inputs = .read 0x18 8 :: rest →
    ∃ t p, step s = .next t ∧ t.readData.toNat = 1 + 4 * s.ign.toNat + 256 * p ∧
      (r.cmd ≠ .sfinal → p = s.sph.code.toNat) ∧
      (r.cmd = .sfinal → p = 2 ∨ p = if s.outLen = 0 then 5 else 4)

/-- R44: RNG_COUNT is incremented by 1, modulo 2^64, for every word the source delivers to the engine; a Failure does not
increment it; reset sets it to 0 and nothing else writes it. While BUSY a read returns a count between the one at the
command's acceptance and the words delivered, and never less than the read before: a read records how much it has shown, and
no step that leaves the command BUSY lowers that or changes the count at acceptance. (That a read stays within the words
delivered is the model's bound, narrower than R44's: log entry 5. That an answer no command waits for is kept, uncounted,
for the next request is the model's choice: log entry 8.) -/
def Obligations.RngCountCountsDeliveredWords : Prop :=
  (∀ s t : State, s.Inv → step s = .next t → s.inputs.head? ≠ some .reset →
    ∃ used, answersAtHand s = used ++ t.answers ∧
      t.rngCount = s.rngCount + BitVec.ofNat 64 (wordsOf used).length) ∧
  (∀ (s : State) (rest : List Input), s.inputs = .reset :: rest → ∃ t, step s = .next t ∧ t.rngCount = 0) ∧
  (∀ (s : State) (r : Running) (rest : List Input), s.Inv → s.running = some r → s.inputs = .read 0x30 8 :: rest →
    ∃ t k, step s = .next t ∧ t.readData = r.start + BitVec.ofNat 64 k ∧ r.shown ≤ k ∧ k ≤ r.drawn.length ∧
      t.running = some { r with shown := k }) ∧
  (∀ (s t : State) (r q : Running), s.Inv → s.running = some r → step s = .next t → t.running = some q →
    q.cmd = r.cmd ∧ q.start = r.start ∧ r.drawn <+: q.drawn ∧ r.shown ≤ q.shown)

/-! ### Reset and construction -/

/-- R54, R350: reset, at any time, abandons the command in progress and gives every piece of state the value of the table;
the state after reset that the model starts from has the same values; an answer to a request issued before a reset has no
effect. (R54 leaves `C`, `Dm`, `B` and `RCNT` unspecified, so nothing is said of them: log entry 7.) -/
def Obligations.ResetLeavesTheTable : Prop :=
  let table : State → Prop := fun t =>
    t.lanes = List.replicate 25 (List.replicate (t.params.D + 1) 0) ∧ t.arg = 0 ∧ t.result = 0 ∧ t.running = none ∧
    t.halt = false ∧ t.ign = false ∧ t.err = .ok ∧ t.sph = .empty ∧ t.rawEn = false ∧ t.rngCount = 0 ∧
    t.rate = 0 ∧ t.ds = 0 ∧ t.outLen = 0 ∧ t.apos = 0 ∧ t.lacc = 0 ∧ t.spos = 0 ∧ t.delivered = 0 ∧
    t.rm = List.replicate (t.params.D + 1) (List.replicate (t.params.D + 1) 0)
  table State.reset ∧
  (∀ (s : State) (rest : List Input), s.inputs = .reset :: rest →
    ∃ t, step s = .next t ∧ table t ∧ t.params = s.params ∧ t.inputs = rest) ∧
  (∀ (s : State) (a : Answer) (rest : List Input), s.inputs = .lateAnswer a :: rest →
    step s = .next { s with inputs := rest })

/-- R314 (with R10): an instance is built exactly when `D ≤ D_MAX ≤ 255`, with its order; no step changes the order. -/
def Obligations.ConstructionRefusesOrdersOutOfBounds : Prop :=
  (∀ D DMax : Nat, State.construct D DMax = none ↔ ¬ (D ≤ DMax ∧ DMax ≤ 255)) ∧
  (∀ (D DMax : Nat) (s : State), State.construct D DMax = some s → s.params.D = D ∧ s.params.DMax = DMax) ∧
  (∀ s t : State, step s = .next t → t.params = s.params)

/-- R30, R31, R42, R46 to R49, R310: the invariant holds in the state after reset of every instance. -/
def Obligations.ResetMeetsInvariant : Prop := ∀ p : Params, (State.resetOf p).Inv

/-- R30, R31, R42, R46 to R49, R310, R311, R360: every step keeps the invariant: complete lanes, `Rm` discarded, a stable
phase with the sponge registers that fit it, HALT only with ERR_RNG and a scrubbed state, a BUSY command that has drawn
fewer words than it needs. Three clauses hold while a command is BUSY by the model's choice: that `Rm` is zero, though R49
fills it inside an AND gadget (log entries 4 and 17); that the phase and its registers are those of before the command, though
R262 sets PADDED at once (log entries 4 and 6); and that ERR is 0, as R309 and R360 say and R362 does not (log entry 23). -/
def Obligations.StepKeepsInvariant : Prop := ∀ s t : State, s.Inv → step s = .next t → t.Inv

/-! ### The life of a command -/

/-- R307, R308 (with R266, R303 to R306): a taken command is checked in the fixed order ILLEGAL, DISABLED, SEQUENCE, CONFIG,
OPERAND; the first check that fails gives the one code, and then nothing but ERR and IGN changes; a command that passes them
all is accepted: it completes, fails, or waits for the source, and ERR is 0, or 15 when it failed. That ERR is 0 also while it
waits is R309 and R360; R362 says otherwise, and there the choice is the model's (log entry 23). -/
def Obligations.ChecksInOrderAndRejectionIsPrecise : Prop :=
  (∀ (w : Word) (s : State),
    (∀ e, decode w = .error e → submit w s = .next { s with err := .illegal, ign := false }) ∧
    (∀ i, decode w = .ok i → submit w s = exec i s)) ∧
  (∀ (i : Instr) (s : State),
    let rejected : Err → Prop := fun e => exec i s = .next { s with err := e, ign := false }
    let raw : Prop := opcodeOf i < 0x20
    (raw → s.rawEn = false → rejected .disabled) ∧
    ((raw → s.rawEn = true) → ¬ phaseRow s.sph (opcodeOf i) → rejected .sequence) ∧
    ((raw → s.rawEn = true) → phaseRow s.sph (opcodeOf i) → badConfig i s.arg → rejected .config) ∧
    ((raw → s.rawEn = true) → phaseRow s.sph (opcodeOf i) → ¬ badConfig i s.arg → badOperand i s →
      rejected .operand) ∧
    ((raw → s.rawEn = true) → phaseRow s.sph (opcodeOf i) → ¬ badConfig i s.arg → ¬ badOperand i s →
      ∃ t, exec i s = .next t ∧ (t.err = .ok ∨ t.err = .rng)))

/-- R368 (with R309, R360): every accepted command completes when the source has its words ready, and draws exactly the
number of words of the table of R368: all 21 commands. -/
def Obligations.AcceptedCommandCompletes : Prop :=
  ∀ (i : Instr) (s : State) (ws : List Word) (rest : List Answer),
    s.Inv → accepts i s → supplied s ws rest → ws.length = drawsOf i s →
    ∃ t, exec i s = .next t ∧ t.err = .ok ∧ t.ign = false ∧ t.halt = false ∧ t.running = none ∧ t.answers = rest ∧
      t.rngCount = s.rngCount + BitVec.ofNat 64 (drawsOf i s)

/-- R310 (with R157, R353): a Failure among the words an accepted command draws ends it: the state is scrubbed, ERR is 15,
HALT is 1 and BUSY is 0; the words delivered before it stay counted; ARG and RAW_EN are unchanged. At `D = 0` no command
draws. -/
def Obligations.FailureScrubsAndHalts : Prop :=
  (∀ (i : Instr) (s : State) (ws : List Word) (rest : List Answer),
    s.Inv → accepts i s → s.answers = ws.map .word ++ .failure :: rest → ws.length < drawsOf i s →
    ∃ t, exec i s = .next t ∧ scrubbed s t ∧ t.err.code = 15 ∧ t.halt = true ∧ t.running = none ∧ t.answers = rest ∧
      t.rngCount = s.rngCount + BitVec.ofNat 64 ws.length ∧ t.arg = s.arg ∧ t.rawEn = s.rawEn) ∧
  (∀ (i : Instr) (s : State), s.params.D = 0 → drawsOf i s = 0)

/-- R360: an accepted command for which the source has too few words ready is BUSY: it holds the words delivered, ERR and IGN
are 0 and RNG_COUNT has counted the words. That no other field has changed is, for the registers a host can read, R89; for
`S`, `Rm`, the hidden registers and the phase it is the model's choice: the engine's progress is not in the state (log entry
4), and PADDED, which R262 sets at once, is shown by the read of STATUS only (log entry 6). That ERR is 0 before completion
is R309 and R360 against R362, the model's choice of log entry 23. -/
def Obligations.MissingAnswerLeavesTheCommandBusy : Prop :=
  ∀ (i : Instr) (s : State) (ws : List Word),
    s.Inv → accepts i s → s.answers = ws.map .word → ws.length < drawsOf i s →
    exec i s = .next { s with
      err := .ok, ign := false, rngCount := s.rngCount + BitVec.ofNat 64 ws.length, answers := [],
      running := some ⟨i, s.rngCount, ws, 0⟩ }

/-- R361: a command whose answers arrive one by one, with host reads, host writes and answers to requests of before a reset
in between, ends in the same state as the command that draws them all at once, but for IGN, the temporaries of R50 and the
model's own fields. The answers are the words the command draws, or fewer and then a Failure. -/
def Obligations.BusyCommandEqualsAtomicCommand : Prop :=
  ∀ (i : Instr) (s : State) (ws : List Word) (as : List Answer) (es : List Input) (a : Answer),
    s.Inv → accepts i s → s.answers = [] → s.inputs = es ++ [.answer a] → (∀ e ∈ es, e ≠ .reset) →
    answersIn s.inputs = as →
    (as = ws.map .word ∧ ws.length = drawsOf i s ∨ as = ws.map .word ++ [.failure] ∧ ws.length < drawsOf i s) →
    ∃ t u v, exec i { s with answers := as } = .next t ∧ t.running = none ∧ t.answers = [] ∧ exec i s = .next u ∧
      Host.Core.run core s.inputs.length u = .next v ∧ sameAfterBusy t v

/-- R311: while HALT = 1 every host write is ignored, IGN included; reads still work: STATUS shows HALT = 1, ERR = 15,
BUSY = 0 and SPH = EMPTY, RESULT reads 0, ARG, CTRL and RNG_COUNT read their values, INFO its constant; and no answer of
the source is used: one that comes is kept at the end of those ready, which is the model's choice (log entry 8). -/
def Obligations.HaltIgnoresWritesAndStillReads : Prop :=
  ∀ (s : State) (rest : List Input), s.Inv → s.halt = true →
    (∀ off width v, s.inputs = .write off width v :: rest → step s = .next { s with inputs := rest }) ∧
    (∀ off, s.inputs = .read off 8 :: rest → ∃ t, step s = .next t ∧ t.answers = s.answers ∧
      (off = 0x18 → t.readData.toNat = 0xF2 + 4 * s.ign.toNat) ∧ (off = 0x10 → t.readData = 0) ∧
      (off = 0x08 → t.readData = s.arg) ∧ (off = 0x20 → t.readData.toNat = s.rawEn.toNat) ∧
      (off = 0x30 → t.readData = s.rngCount) ∧
      (off = 0x28 → t.readData.toNat = s.params.D + 256 * s.params.DMax + 65536)) ∧
    (∀ a, s.inputs = .answer a :: rest → step s = .next { s with inputs := rest, answers := s.answers ++ [a] })

/-- R312: HALT is left only by reset, and reset leaves it. -/
def Obligations.OnlyResetLeavesHalt : Prop :=
  (∀ s t : State, s.halt = true → step s = .next t → t.halt = false → s.inputs.head? = some .reset) ∧
  (∀ s t : State, s.inputs.head? = some .reset → step s = .next t → t.halt = false)

/-- R250: the phase changes only by SINIT, SFINAL, the SSQUEEZE that delivers the last byte, a scrub (RAW_EN from 0 to 1, or
the entry into HALT), or reset, and it becomes what the table says. R250 and R262 take SFINAL through PADDED and PERMUTED: that
the field goes from ABSORBING to the phase SFINAL ends in, also at the step that ends a BUSY SFINAL, is the model's choice (log
entries 4 and 6; the read of STATUS shows PADDED). -/
def Obligations.PhaseChangesOnlyByItsTable : Prop :=
  ∀ s t : State, s.Inv → step s = .next t → t.sph ≠ s.sph →
    (∃ n, worksOn s (.sinit n) ∧ t.sph = .absorbing) ∨
    (worksOn s .sfinal ∧ s.sph = .absorbing ∧ t.sph = if s.outLen = 0 then .done else .squeezing) ∨
    (∃ n, worksOn s (.ssqueeze n) ∧ s.sph = .squeezing ∧ t.sph = .done ∧ t.delivered = t.outLen) ∨
    (entersRaw s ∧ t.sph = .empty) ∨
    (s.halt = false ∧ t.halt = true ∧ t.sph = .empty) ∨
    (s.inputs.head? = some .reset ∧ t.sph = .empty)

/-- R39 (with R33): RESULT is written only by LUNMASK, by SSQUEEZE, and with 0 by a scrub (SINIT, RAW_EN from 0 to 1, the
entry into HALT) or by reset. -/
def Obligations.ResultWrittenOnlyByItsCommands : Prop :=
  ∀ s t : State, step s = .next t → t.result ≠ s.result →
    (∃ la, worksOn s (.lunmask la)) ∨ (∃ n, worksOn s (.ssqueeze n)) ∨
    (t.result = 0 ∧ ((∃ n, worksOn s (.sinit n)) ∨ entersRaw s ∨ t.halt = true ∨ s.inputs.head? = some .reset))

/-! ### The gadgets -/

/-- R158 (with R150 to R155): the gadget laws, for every `D`, every operand and every draw sequence: `mask` and `and` use
exactly `D` and `D(D+1)/2` words. -/
def Obligations.GadgetLaws : Prop :=
  ∀ (D : Nat) (a b : Lane) (v : Word) (n : Nat) (c : Word) (rest : List Answer),
    a.length = D + 1 → b.length = D + 1 →
    (∀ ws : List Word, ws.length = D →
      ∃ m, gMask D v ⟨ws.map .word ++ rest, c⟩ = .done m ⟨rest, c + BitVec.ofNat 64 D⟩ ∧
        laneIs D m (maskShare D v ws) ∧ gUnmask m = v) ∧
    gUnmask (gXor a b) = gUnmask a ^^^ gUnmask b ∧
    gUnmask (gNot D a) = ~~~(gUnmask a) ∧
    (∀ ws : List Word, ws.length = D * (D + 1) / 2 →
      ∃ m, gAnd D a b ⟨ws.map .word ++ rest, c⟩ = .done m ⟨rest, c + BitVec.ofNat 64 (D * (D + 1) / 2)⟩ ∧
        laneIs D m (andShare D (shareAt a) (shareAt b) ws) ∧ gUnmask m = gUnmask a &&& gUnmask b) ∧
    gUnmask (gRotl a n) = (gUnmask a).rotateLeft n

/-! ### The lane commands -/

/-- R160: LMASK draws `D` words and sets its lane to a fresh masking of ARG, discarding what it held; nothing else changes. -/
def Obligations.LmaskMasksArg : Prop :=
  ∀ (ld : BitVec 5) (s : State) (ws : List Word) (rest : List Answer),
    s.Inv → accepts (.lmask ld) s → supplied s ws rest → ws.length = s.params.D →
    ∃ t, exec (.lmask ld) s = .next t ∧ ranMasked s.params.D rest s t ∧ othersSame ld.toNat s t ∧
      laneIs s.params.D (laneAt t.lanes ld.toNat) (maskShare s.params.D s.arg ws) ∧
      gUnmask (laneAt t.lanes ld.toNat) = s.arg

/-- R161: LMXOR draws `D` words and XORs a fresh masking of ARG into its lane; nothing else changes. -/
def Obligations.LmxorXorsMaskedArg : Prop :=
  ∀ (ld : BitVec 5) (s : State) (ws : List Word) (rest : List Answer),
    s.Inv → accepts (.lmxor ld) s → supplied s ws rest → ws.length = s.params.D →
    ∃ t, exec (.lmxor ld) s = .next t ∧ ranMasked s.params.D rest s t ∧ othersSame ld.toNat s t ∧
      laneIs s.params.D (laneAt t.lanes ld.toNat)
        (fun k => shareAt (laneAt s.lanes ld.toNat) k ^^^ maskShare s.params.D s.arg ws k) ∧
      gUnmask (laneAt t.lanes ld.toNat) = gUnmask (laneAt s.lanes ld.toNat) ^^^ s.arg

/-- R162: LXORC XORs ARG into share 0 of its lane; shares 1 to `D`, and everything else, are unchanged. -/
def Obligations.LxorcXorsArgIntoShareZero : Prop :=
  ∀ (ld : BitVec 5) (s : State), s.Inv → accepts (.lxorc ld) s →
    ∃ t, exec (.lxorc ld) s = .next t ∧ ranLinear s t ∧ othersSame ld.toNat s t ∧
      laneIs s.params.D (laneAt t.lanes ld.toNat)
        (fun k => if k = 0 then shareAt (laneAt s.lanes ld.toNat) 0 ^^^ s.arg else shareAt (laneAt s.lanes ld.toNat) k) ∧
      gUnmask (laneAt t.lanes ld.toNat) = gUnmask (laneAt s.lanes ld.toNat) ^^^ s.arg

/-- R163: LUNMASK writes the XOR of the shares of its lane to RESULT; no lane and nothing else changes. -/
def Obligations.LunmaskWritesResult : Prop :=
  ∀ (la : BitVec 5) (s : State), s.Inv → accepts (.lunmask la) s →
    ∃ t, exec (.lunmask la) s = .next t ∧ ran 0 s.answers s t ∧ paramsSame s t ∧ positionsSame s t ∧ t.rm = s.rm ∧
      t.lanes = s.lanes ∧
      t.result = xorAll ((List.range (s.params.D + 1)).map (shareAt (laneAt s.lanes la.toNat)))

/-- R164: LMOV copies a whole lane, all shares; nothing else changes. -/
def Obligations.LmovCopiesALane : Prop :=
  ∀ (ld la : BitVec 5) (s : State), s.Inv → accepts (.lmov ld la) s →
    ∃ t, exec (.lmov ld la) s = .next t ∧ ranLinear s t ∧ othersSame ld.toNat s t ∧
      laneAt t.lanes ld.toNat = laneAt s.lanes la.toNat

/-- R165: LXOR sets its lane to the share by share XOR of two lanes, read before it is written; nothing else changes. -/
def Obligations.LxorXorsShareByShare : Prop :=
  ∀ (ld la lb : BitVec 5) (s : State), s.Inv → accepts (.lxor ld la lb) s →
    ∃ t, exec (.lxor ld la lb) s = .next t ∧ ranLinear s t ∧ othersSame ld.toNat s t ∧
      laneIs s.params.D (laneAt t.lanes ld.toNat)
        (fun k => shareAt (laneAt s.lanes la.toNat) k ^^^ shareAt (laneAt s.lanes lb.toNat) k) ∧
      gUnmask (laneAt t.lanes ld.toNat) = gUnmask (laneAt s.lanes la.toNat) ^^^ gUnmask (laneAt s.lanes lb.toNat) ∧
      (la = lb → ∀ k ≤ s.params.D, shareAt (laneAt t.lanes ld.toNat) k = 0)

/-- R166: LNOT complements the shares of a lane, but for share 0 when `D + 1` is even; the value is complemented; nothing
else changes. -/
def Obligations.LnotComplementsTheValue : Prop :=
  ∀ (ld la : BitVec 5) (s : State), s.Inv → accepts (.lnot ld la) s →
    ∃ t, exec (.lnot ld la) s = .next t ∧ ranLinear s t ∧ othersSame ld.toNat s t ∧
      laneIs s.params.D (laneAt t.lanes ld.toNat) (notShare s.params.D (laneAt s.lanes la.toNat)) ∧
      gUnmask (laneAt t.lanes ld.toNat) = ~~~(gUnmask (laneAt s.lanes la.toNat))

/-- R167: LROTL rotates every share of a lane left by `N`, `N = 0` included; nothing else changes. -/
def Obligations.LrotlRotatesEveryShare : Prop :=
  ∀ (ld la : BitVec 5) (n : BitVec 6) (s : State), s.Inv → accepts (.lrotl ld la n) s →
    ∃ t, exec (.lrotl ld la n) s = .next t ∧ ranLinear s t ∧ othersSame ld.toNat s t ∧
      laneIs s.params.D (laneAt t.lanes ld.toNat)
        (fun k => (shareAt (laneAt s.lanes la.toNat) k).rotateLeft n.toNat) ∧
      gUnmask (laneAt t.lanes ld.toNat) = (gUnmask (laneAt s.lanes la.toNat)).rotateLeft n.toNat

/-- R168 (with R154): LAND draws `D(D+1)/2` words and sets its lane to the ISW AND of two lanes, read before it is written,
with each word at its pair; the value is the AND of the values; `Rm` is zero after it; nothing else changes. -/
def Obligations.LandIsTheMaskedAnd : Prop :=
  ∀ (ld la lb : BitVec 5) (s : State) (ws : List Word) (rest : List Answer),
    s.Inv → accepts (.land ld la lb) s → supplied s ws rest → ws.length = s.params.D * (s.params.D + 1) / 2 →
    ∃ t, exec (.land ld la lb) s = .next t ∧ ranMasked (s.params.D * (s.params.D + 1) / 2) rest s t ∧
      othersSame ld.toNat s t ∧
      laneIs s.params.D (laneAt t.lanes ld.toNat)
        (andShare s.params.D (shareAt (laneAt s.lanes la.toNat)) (shareAt (laneAt s.lanes lb.toNat)) ws) ∧
      gUnmask (laneAt t.lanes ld.toNat) = gUnmask (laneAt s.lanes la.toNat) &&& gUnmask (laneAt s.lanes lb.toNat)

/-! ### The round commands -/

/-- R215: STCLR makes every share of every lane 0; it is no scrub: nothing else changes. -/
def Obligations.StclrZeroesTheLanes : Prop :=
  ∀ s : State, s.Inv → accepts .stclr s →
    ∃ t, exec .stclr s = .next t ∧ ranLinear s t ∧
      t.lanes.length = 25 ∧ ∀ L < 25, laneIs s.params.D (laneAt t.lanes L) (fun _ => 0)

/-- R216 (with R203): THETA applies the plain theta to each share slice, and so to the values; nothing else changes. -/
def Obligations.ThetaActsOnEverySlice : Prop :=
  ∀ s : State, s.Inv → accepts .theta s →
    ∃ t, exec .theta s = .next t ∧ ranLinear s t ∧ gridOk s.params.D t.lanes ∧
      (∀ k ≤ s.params.D, slice k t.lanes = plainTheta (slice k s.lanes)) ∧ t.values = plainTheta s.values

/-- R217 (with R204): RHO rotates every share of lane `(x, y)` left by `RHO[x][y]`; nothing else changes. -/
def Obligations.RhoRotatesEveryLane : Prop :=
  ∀ s : State, s.Inv → accepts .rho s →
    ∃ t, exec .rho s = .next t ∧ ranLinear s t ∧ t.lanes.length = 25 ∧
      (∀ x < 5, ∀ y < 5, laneIs s.params.D (laneXY t.lanes x y)
        fun k => (shareAt (laneXY s.lanes x y) k).rotateLeft (rhoOffset x y)) ∧
      t.values = plainRho s.values

/-- R218 (with R205): PI moves the whole lane `(x, y)` to `(y, 2x + 3y)`; nothing else changes. -/
def Obligations.PiMovesWholeLanes : Prop :=
  ∀ s : State, s.Inv → accepts .pi s →
    ∃ t, exec .pi s = .next t ∧ ranLinear s t ∧ t.lanes.length = 25 ∧
      (∀ x < 5, ∀ y < 5, laneXY t.lanes y (2 * x + 3 * y) = laneXY s.lanes x y) ∧
      (∀ L < 25, laneAt t.lanes L = laneAt s.lanes (piSource.getD L 0))

/-- R219 (with R206): CHI draws `25*D(D+1)/2` words; lane `L` becomes `xor(a, and(not(b), c))` of the lanes before it, with
the `L`-th `D(D+1)/2` words; the values become `a ^ (~b & c)`; `Rm` is zero after it; nothing else changes. -/
def Obligations.ChiUsesAFreshAndForEveryLane : Prop :=
  ∀ (s : State) (ws : List Word) (rest : List Answer),
    s.Inv → accepts .chi s → supplied s ws rest → ws.length = 25 * (s.params.D * (s.params.D + 1) / 2) →
    ∃ t, exec .chi s = .next t ∧ ranMasked (25 * (s.params.D * (s.params.D + 1) / 2)) rest s t ∧
      t.lanes.length = 25 ∧
      (∀ x < 5, ∀ y < 5, laneIs s.params.D (laneXY t.lanes x y) fun k =>
        shareAt (laneXY s.lanes x y) k ^^^
          andShare s.params.D (notShare s.params.D (laneXY s.lanes (x + 1) y)) (shareAt (laneXY s.lanes (x + 2) y))
            ((ws.drop ((x + 5 * y) * (s.params.D * (s.params.D + 1) / 2))).take (s.params.D * (s.params.D + 1) / 2)) k) ∧
      t.values = plainChi s.values

/-- R220 (with R207): IOTA XORs `RC[N]` into share 0 of lane 0; every other share, and everything else, is unchanged. -/
def Obligations.IotaChangesShareZeroOfLaneZero : Prop :=
  ∀ (n : BitVec 6) (s : State), s.Inv → accepts (.iota n) s →
    ∃ t, exec (.iota n) s = .next t ∧ ranLinear s t ∧ othersSame 0 s t ∧
      laneIs s.params.D (laneAt t.lanes 0)
        (fun k => if k = 0 then shareAt (laneAt s.lanes 0) 0 ^^^ rc n.toNat else shareAt (laneAt s.lanes 0) k) ∧
      t.values = plainIota n.toNat s.values

/-- R221 (with R208): ROUND is THETA, RHO, PI, CHI and IOTA one after another, with the same draws: the same state, but for
the temporaries of R50; the values take one round of Keccak-f. -/
def Obligations.RoundIsItsFiveSteps : Prop :=
  ∀ (n : BitVec 6) (s : State) (ws : List Word) (rest : List Answer),
    s.Inv → accepts (.round n) s → supplied s ws rest → ws.length = 25 * (s.params.D * (s.params.D + 1) / 2) →
    ∃ t u, exec (.round n) s = .next t ∧ ranMasked (25 * (s.params.D * (s.params.D + 1) / 2)) rest s t ∧
      runAll [(s.arg, .theta), (s.arg, .rho), (s.arg, .pi), (s.arg, .chi), (s.arg, .iota n)] s = some (u, []) ∧
      sameButTemps t u ∧ t.values = plainRound n.toNat s.values

/-- R222 (with R209, R210): PERMUTE draws `300*D*(D+1)` words, and for every state and every draw sequence the values become
Keccak-f[1600] of the values; `Rm` is zero after it; nothing else changes. -/
def Obligations.PermuteIsKeccakF : Prop :=
  ∀ (s : State) (ws : List Word) (rest : List Answer),
    s.Inv → accepts .permute s → supplied s ws rest → ws.length = 300 * s.params.D * (s.params.D + 1) →
    ∃ t, exec .permute s = .next t ∧ ranMasked (300 * s.params.D * (s.params.D + 1)) rest s t ∧
      gridOk s.params.D t.lanes ∧ t.values = keccakF s.values

/-- R221 (with R209): ROUND #0 to ROUND #23, in order, equal PERMUTE, with the same draws in the same order. -/
def Obligations.RoundsInOrderEqualPermute : Prop :=
  ∀ (s : State) (ws : List Word) (rest : List Answer),
    s.Inv → accepts .permute s → supplied s ws rest → ws.length = 300 * s.params.D * (s.params.D + 1) →
    ∃ t u, exec .permute s = .next t ∧
      runAll ((List.range 24).map fun i => (s.arg, Instr.round (BitVec.ofNat 6 i))) s = some (u, []) ∧ sameButTemps t u

/-- R210: Keccak-f[1600] of the zero state, lane by lane. -/
def Obligations.KeccakFOfZero : Prop :=
  keccakF (List.replicate 25 0) =
    [0xF1258F7940E1DDE7, 0x84D5CCF933C0478A, 0xD598261EA65AA9EE, 0xBD1547306F80494D, 0x8B284E056253D057] ++
    [0xFF97A42D7F8E6FD4, 0x90FEE5A0A44647C4, 0x8C5BDA0CD6192E76, 0xAD30A6F71B19059C, 0x30935AB7D08FFC64] ++
    [0xEB5AA93F2317D635, 0xA9A6E6260D712103, 0x81A57C16DBCF555F, 0x43B831CD0347C826, 0x01F22F1A11A5569F] ++
    [0x05E5635A21D9AE61, 0x64BEFEF28CC970F2, 0x613670957BC46611, 0xB87C5A554FD00ECB, 0x8C3EE88A1CCF32C8] ++
    [0x940C7922AE3A2614, 0x1841F924A2C509E4, 0x16F53526E70465C2, 0x75F644E97F30A13B, 0xEAF1FF7B5CECA249]

/-! ### The sponge commands -/

/-- R260 (with R251, R252, R353): SINIT scrubs, sets RATE, DS and OUTLEN by the variant table and starts the phase
ABSORBING; it draws nothing and leaves RAW_EN, ARG and RNG_COUNT. -/
def Obligations.SinitSetsTheVariant : Prop :=
  ∀ (n : BitVec 6) (s : State), s.Inv → accepts (.sinit n) s →
    ∃ t, exec (.sinit n) s = .next t ∧ ran 0 s.answers s t ∧
      scrubbed s { t with rate := 0, ds := 0, outLen := 0, sph := .empty } ∧ t.sph = .absorbing ∧
      (t.rate.toNat, t.ds.toNat, t.outLen.toNat) =
        (match n.toNat with
        | 0 => (144, 0x06, 28)
        | 1 => (136, 0x06, 32)
        | 2 => (104, 0x06, 48)
        | 3 => (72, 0x06, 64)
        | 4 => (168, 0x1F, s.arg.toNat)
        | 5 => (136, 0x1F, s.arg.toNat)
        | _ => (s.arg.toNat % 2 ^ 16, s.arg.toNat / 2 ^ 16 % 2 ^ 8, s.arg.toNat / 2 ^ 32))

/-- R261: SABSORB absorbs the bytes `0 .. N-1` of ARG: if the sponge had received `msg`, it has received `msg` and those
bytes, with every complete lane masked in and every full block permuted; it draws `D` words for each lane and
`300*D*(D+1)` for each block completed, and changes nothing else. The shares (R97, R34): no lane changes when none is
completed; the completed lane takes the first `D` draws, and the permutation of a completed block the draws after them. -/
def Obligations.SabsorbAbsorbsTheBytes : Prop :=
  ∀ (n : BitVec 6) (s : State) (msg : List Byte) (ws : List Word) (rest : List Answer),
    s.Inv → accepts (.sabsorb n) s → absorbed s msg → supplied s ws rest → ws.length = drawsOf (.sabsorb n) s →
    ∃ t, exec (.sabsorb n) s = .next t ∧ ran (drawsOf (.sabsorb n) s) rest s t ∧ paramsSame s t ∧
      t.result = s.result ∧ t.spos = s.spos ∧ t.delivered = s.delivered ∧ t.rm = zeroMatrix s.params.D ∧
      gridOk s.params.D t.lanes ∧ absorbed t (msg ++ bytesOf s.arg n.toNat) ∧
      (lanesCompleted s n.toNat = 0 → t.lanes = s.lanes) ∧
      (lanesCompleted s n.toNat = 1 →
        let g := maskInto s.params.D (s.apos.toNat / 8) (s.lacc ||| s.arg <<< (8 * (s.apos.toNat % 8)))
          (ws.take s.params.D) s.lanes
        t.lanes = if blocksCompleted s n.toNat = 1 then permuteShares s.params.D g (ws.drop s.params.D) else g)

/-- R262 (with R253, R254): SFINAL pads and absorbs the last block and permutes: the values are those of the reference
absorb of everything received; the squeeze starts, or the phase is DONE when OUTLEN is 0; nothing else changes. The shares
(R97, R34): the lanes of the padded block from `APOS div 8` on take `D` draws each, in ascending order, and the permutation
the draws after them. -/
def Obligations.SfinalPadsAndPermutes : Prop :=
  ∀ (s : State) (msg : List Byte) (ws : List Word) (rest : List Answer),
    s.Inv → accepts .sfinal s → absorbed s msg → supplied s ws rest → ws.length = drawsOf .sfinal s →
    ∃ t, exec .sfinal s = .next t ∧ ran (drawsOf .sfinal s) rest s t ∧ paramsSame s t ∧ t.result = s.result ∧
      t.rm = zeroMatrix s.params.D ∧ gridOk s.params.D t.lanes ∧
      t.values = absorbRef s.rate.toNat s.ds msg ∧
      (let first := s.apos.toNat / 8
       let lanes := s.rate.toNat / 8 - first
       let block := padBlock s.rate.toNat s.ds (absorbFull s.rate.toNat msg).2
       t.lanes = permuteShares s.params.D
        (maskLanes s.params.D (blockWord block) (List.range' first lanes) s.lanes ws) (ws.drop (s.params.D * lanes))) ∧
      t.apos = 0 ∧ t.lacc = 0 ∧ t.spos = 0 ∧ t.delivered = 0 ∧
      t.sph = if s.outLen = 0 then .done else .squeezing

/-- R263 (with R85, R255): SSQUEEZE returns the next `N` output bytes in RESULT, byte `k` in bits `8k+7:8k` and the bits above
`8N` zero, counts them, and ends in DONE after the last; it draws `300*D*(D+1)` words for each rate window it opens, and
changes nothing else: the lanes stay as they are when no window is opened, and take one permutation with its draws when one
is (so none after the last byte); SPOS moves on by `N` in its window. -/
def Obligations.SsqueezeDeliversTheNextBytes : Prop :=
  ∀ (n : BitVec 6) (s : State) (ws : List Word) (rest : List Answer),
    s.Inv → accepts (.ssqueeze n) s → supplied s ws rest → ws.length = drawsOf (.ssqueeze n) s →
    ∃ t, exec (.ssqueeze n) s = .next t ∧ ran (drawsOf (.ssqueeze n) s) rest s t ∧ paramsSame s t ∧
      t.apos = s.apos ∧ t.lacc = s.lacc ∧ t.rm = zeroMatrix s.params.D ∧ gridOk s.params.D t.lanes ∧
      bytesOf t.result n.toNat = (remaining s).take n.toNat ∧ t.result.toNat < 2 ^ (8 * n.toNat) ∧
      remaining t = (remaining s).drop n.toNat ∧
      t.delivered.toNat = s.delivered.toNat + n.toNat ∧
      (windowsOpened s n.toNat = 0 → t.lanes = s.lanes ∧ t.spos.toNat = s.spos.toNat + n.toNat) ∧
      (windowsOpened s n.toNat = 1 → t.lanes = permuteShares s.params.D s.lanes ws ∧ t.values = keccakF s.values ∧
        t.spos.toNat + s.rate.toNat = s.spos.toNat + n.toNat) ∧
      t.sph = if t.delivered = t.outLen then .done else .squeezing

/-- R257 (with R258, R259): SINIT, SABSORB commands whose bytes make up the input, SFINAL, and SSQUEEZE commands whose
counts make up OUTLEN, from any state in which no command is BUSY: they return the bytes of the reference squeeze after the
reference absorb, for every `D` and every draw sequence, and draw the number of words of R259. -/
def Obligations.SpongeRunEqualsReference : Prop :=
  ∀ (s : State) (v : BitVec 6) (a fin : Word) (sp : SpongeParams) (chunks counts : List (Word × BitVec 6))
    (ws : List Word) (rest : List Answer),
    s.Inv → s.halt = false → s.running = none → spongeVariant v a = some sp →
    (∀ c ∈ chunks, 1 ≤ c.2.toNat ∧ c.2.toNat ≤ 8) → (∀ c ∈ counts, 1 ≤ c.2.toNat ∧ c.2.toNat ≤ 8) →
    (counts.map fun c => c.2.toNat).sum = sp.outLen.toNat →
    let m := (chunkBytes chunks).length
    let r := sp.rate.toNat
    let draws := s.params.D * (r / 8) * (m / r + 1)
      + 300 * s.params.D * (s.params.D + 1) * (m / r + 1 + ((sp.outLen.toNat + r - 1) / r - 1))
    supplied s ws rest → ws.length = draws →
    ∃ t out, runAll ([(a, .sinit v)] ++ absorbCommands chunks ++ [(fin, .sfinal)] ++ squeezeCommands counts) s
        = some (t, out) ∧
      out = squeezeRef r sp.outLen.toNat (absorbRef r sp.ds (chunkBytes chunks)) ∧ t.sph = .done ∧
      t.rngCount = s.rngCount + BitVec.ofNat 64 draws ∧ t.answers = rest

/-! ### What depends on what -/

/-- R369 (with R31, R34): every plaintext result is the same for every draw sequence, every sharing and every order: two
states with the same plaintext in each lane and the same registers, on which a command completes, end with the same
plaintext in each lane and the same registers. -/
def Obligations.PlaintextIndependentOfShares : Prop :=
  ∀ (i : Instr) (s s' t t' : State), s.Inv → s'.Inv → s.running = none → s'.running = none → samePlain s s' →
    exec i s = .next t → completed t → exec i s' = .next t' → completed t' → samePlain t t'

/-- R364, R211: what a command does to everything public, and which answers it uses, does not depend on secrets: two states
of one instance that agree on the public values, and on ARG where the command is SINIT, still agree on them after it. -/
def Obligations.PublicBehaviourIndependentOfSecrets : Prop :=
  ∀ (i : Instr) (s s' t t' : State), s.Inv → s'.Inv → samePublic s s' → (∀ n, i = .sinit n → s'.arg = s.arg) →
    exec i s = .next t → exec i s' = .next t' → samePublic t t'

/-! ### Reads while BUSY, and the shares -/

/-- R89, R39 (with R38, R43): while a command is BUSY, a read of every register but STATUS and RNG_COUNT returns its value from
before the command: CMD and 0x38 read 0, ARG, RESULT, CTRL and INFO as they stand, and no step that leaves the command BUSY
changes what stands there. (That the lanes and the hidden registers stand still too is log entry 4.) -/
def Obligations.BusyReadsReturnTheValuesFromBefore : Prop :=
  (∀ (s : State) (off : Nat) (rest : List Input),
    s.running.isSome → s.inputs = .read off 8 :: rest → off < 0x40 → off % 8 = 0 → off ≠ 0x18 → off ≠ 0x30 →
    ∃ v : Word, step s = .next { s with inputs := rest, readData := v } ∧
      (off = 0x00 → v = 0) ∧ (off = 0x08 → v = s.arg) ∧ (off = 0x10 → v = s.result) ∧
      (off = 0x20 → v.toNat = s.rawEn.toNat) ∧ (off = 0x28 → v.toNat = s.params.D + 256 * s.params.DMax + 65536) ∧
      (off = 0x38 → v = 0)) ∧
  (∀ s t : State, s.Inv → s.running.isSome → step s = .next t → t.running.isSome → sameWhileBusy s t)

/-- R97, R34 (with R206, R209): which drawn word PERMUTE puts into which share: round `i` takes the `i`-th `25*D(D+1)/2` draws,
and in it lane `L` of chi the `L`-th `D(D+1)/2`, each at its pair. -/
def Obligations.PermuteSharesFollowTheDraws : Prop :=
  ∀ (s : State) (ws : List Word) (rest : List Answer),
    s.Inv → accepts .permute s → supplied s ws rest → ws.length = 300 * s.params.D * (s.params.D + 1) →
    ∃ t, exec .permute s = .next t ∧ t.lanes = permuteShares s.params.D s.lanes ws

/-- R257: the commands of a sponge run (as in SpongeRunEqualsReference) return the bytes of `absorb_ref` and `squeeze_ref` run
as R253 and R255 write them, on shares, with the same answers of the source; they use the same answers, count the same
draws, and end with the same shares in every lane. -/
def Obligations.SpongeRunSharesEqualReference : Prop :=
  ∀ (s : State) (v : BitVec 6) (a fin : Word) (sp : SpongeParams) (chunks counts : List (Word × BitVec 6))
    (ws : List Word) (rest : List Answer),
    s.Inv → s.halt = false → s.running = none → spongeVariant v a = some sp →
    (∀ c ∈ chunks, 1 ≤ c.2.toNat ∧ c.2.toNat ≤ 8) → (∀ c ∈ counts, 1 ≤ c.2.toNat ∧ c.2.toNat ≤ 8) →
    (counts.map fun c => c.2.toNat).sum = sp.outLen.toNat →
    let m := (chunkBytes chunks).length
    let r := sp.rate.toNat
    let draws := s.params.D * (r / 8) * (m / r + 1)
      + 300 * s.params.D * (s.params.D + 1) * (m / r + 1 + ((sp.outLen.toNat + r - 1) / r - 1))
    supplied s ws rest → ws.length = draws →
    ∃ t out, runAll ([(a, .sinit v)] ++ absorbCommands chunks ++ [(fin, .sfinal)] ++ squeezeCommands counts) s
        = some (t, out) ∧
      maskedSponge s.params.D r sp.ds sp.outLen.toNat (chunkBytes chunks) ⟨s.answers, s.rngCount⟩
        = .done (t.lanes, out) ⟨t.answers, t.rngCount⟩

end
end

