-- ==== Sys2Proof/Laws/Draw.lean ====
section
/-! SUPPORT. The laws of computations that draw words: what one does is settled by how many words it draws and what it
makes of them. -/

namespace Sys2Proof.Machine

/-- `x` draws `n` words, in order, and makes `f` of them; a Failure or a missing answer among the first `n` ends it. -/
structure Takes {α : Type} (x : Draw α) (n : Nat) (f : List Word → α) : Prop where
  done : ∀ (ws : List Word) (rest : List Answer) (c : Word), ws.length = n →
    x ⟨ws.map .word ++ rest, c⟩ = .done (f ws) ⟨rest, c + BitVec.ofNat 64 n⟩
  failed : ∀ (ws : List Word) (rest : List Answer) (c : Word), ws.length < n →
    x ⟨ws.map .word ++ .failure :: rest, c⟩ = .failed ⟨rest, c + BitVec.ofNat 64 ws.length⟩
  waiting : ∀ (ws : List Word) (c : Word), ws.length < n →
    x ⟨ws.map .word, c⟩ = .waiting ⟨[], c + BitVec.ofNat 64 ws.length⟩

/-- `x` draws `n` words, whatever they are, and its value satisfies `Q`. -/
def Draws {α : Type} (x : Draw α) (n : Nat) (Q : α → Prop) : Prop :=
  ∃ f, Takes x n f ∧ ∀ ws : List Word, ws.length = n → Q (f ws)

theorem takes_pure {α : Type} (a : α) : Takes (Draw.pure a) 0 (fun _ => a) where
  done ws rest c h := by
    have : ws = [] := List.eq_nil_of_length_eq_zero h
    simp [Draw.pure, this]
  failed ws rest c h := absurd h (Nat.not_lt_zero _)
  waiting ws c h := absurd h (Nat.not_lt_zero _)

theorem takes_rng : Takes rng 1 (fun ws => ws.headD 0) where
  done ws rest c h := by
    obtain ⟨w, rfl⟩ := List.length_eq_one_iff.mp h
    simp [rng]
  failed ws rest c h := by
    have : ws = [] := List.eq_nil_of_length_eq_zero (by omega)
    simp [rng, this]
  waiting ws c h := by
    have : ws = [] := List.eq_nil_of_length_eq_zero (by omega)
    simp [rng, this]

theorem takes_bind {α β : Type} {x : Draw α} {n : Nat} {f : List Word → α} {k : α → Draw β} {m : Nat}
    {g : List Word → List Word → β} (hx : Takes x n f)
    (hk : ∀ ws : List Word, ws.length = n → Takes (k (f ws)) m (g ws)) :
    Takes (Draw.bind x k) (n + m) (fun ws => g (ws.take n) (ws.drop n)) where
  done ws rest c h := by
    have hl : (ws.take n).length = n := by simp; omega
    have hr : (ws.drop n).length = m := by simp; omega
    have hs : ws.map Answer.word ++ rest = (ws.take n).map Answer.word ++ ((ws.drop n).map Answer.word ++ rest) := by
      rw [← List.append_assoc, ← List.map_append, List.take_append_drop]
    simp only [Draw.bind, hs, hx.done _ _ c hl, (hk _ hl).done _ rest _ hr]
    rw [BitVec.add_assoc, BitVec.ofNat_add]
  failed ws rest c h := by
    simp only [Draw.bind]
    by_cases hn : ws.length < n
    · simp only [hx.failed ws rest c hn]
    · have hl : (ws.take n).length = n := by simp; omega
      have hr : (ws.drop n).length < m := by simp; omega
      have hs : ws.map Answer.word ++ .failure :: rest
          = (ws.take n).map Answer.word ++ ((ws.drop n).map Answer.word ++ .failure :: rest) := by
        rw [← List.append_assoc, ← List.map_append, List.take_append_drop]
      simp only [hs, hx.done _ _ c hl, (hk _ hl).failed _ rest _ hr]
      have : ws.length = n + (ws.drop n).length := by simp; omega
      rw [BitVec.add_assoc, this, BitVec.ofNat_add]
  waiting ws c h := by
    simp only [Draw.bind]
    by_cases hn : ws.length < n
    · simp only [hx.waiting ws c hn]
    · have hl : (ws.take n).length = n := by simp; omega
      have hr : (ws.drop n).length < m := by simp; omega
      have hs : ws.map Answer.word = (ws.take n).map Answer.word ++ (ws.drop n).map Answer.word := by
        rw [← List.map_append, List.take_append_drop]
      simp only [hs, hx.done _ _ c hl, (hk _ hl).waiting _ _ hr]
      have : ws.length = n + (ws.drop n).length := by simp; omega
      rw [BitVec.add_assoc, this, BitVec.ofNat_add]

theorem takes_map {α β : Type} {x : Draw α} {n : Nat} {f : List Word → α} (g : α → β) (hx : Takes x n f) :
    Takes (Draw.map g x) n (fun ws => g (f ws)) := by
  have h := takes_bind (k := fun a => Draw.pure (g a)) (g := fun ws _ => g (f ws)) hx
    fun ws _ => takes_pure (g (f ws))
  refine ⟨fun ws rest c hl => ?_, fun ws rest c hl => h.failed ws rest c (by omega),
    fun ws c hl => h.waiting ws c (by omega)⟩
  have := h.done ws rest c (by omega)
  rwa [List.take_of_length_le (by omega)] at this

theorem draws_pure {α : Type} {a : α} {Q : α → Prop} (h : Q a) : Draws (Draw.pure a) 0 Q :=
  ⟨_, takes_pure a, fun _ _ => h⟩

theorem draws_rng : Draws rng 1 (fun _ => True) := ⟨_, takes_rng, fun _ _ => trivial⟩

theorem draws_bind {α β : Type} {x : Draw α} {n m : Nat} {k : α → Draw β} {Q : α → Prop} {R : β → Prop}
    (hx : Draws x n Q) (hk : ∀ a, Q a → Draws (k a) m R) : Draws (Draw.bind x k) (n + m) R := by
  obtain ⟨f, hf, hQ⟩ := hx
  have h : ∀ ws : List Word, ∃ g : List Word → β, ws.length = n →
      Takes (k (f ws)) m g ∧ ∀ vs : List Word, vs.length = m → R (g vs) := by
    intro ws
    by_cases hl : ws.length = n
    · obtain ⟨g, hg, hR⟩ := hk _ (hQ ws hl)
      exact ⟨g, fun _ => ⟨hg, hR⟩⟩
    · exact ⟨fun _ => (hk _ (hQ (List.replicate n 0) (by simp))).choose [], fun h => absurd h hl⟩
  choose g hg using h
  refine ⟨_, takes_bind (g := g) hf fun ws hl => (hg ws hl).1, fun ws hl => ?_⟩
  exact (hg (ws.take n) (by simp; omega)).2 (ws.drop n) (by simp; omega)

theorem draws_map {α β : Type} {x : Draw α} {n : Nat} {g : α → β} {Q : α → Prop} {R : β → Prop}
    (hx : Draws x n Q) (h : ∀ a, Q a → R (g a)) : Draws (Draw.map g x) n R := by
  obtain ⟨f, hf, hQ⟩ := hx
  exact ⟨_, takes_map g hf, fun ws hl => h _ (hQ ws hl)⟩

theorem draws_weaken {α : Type} {x : Draw α} {n : Nat} {Q R : α → Prop} (hx : Draws x n Q)
    (h : ∀ a, Q a → R a) : Draws x n R := by
  obtain ⟨f, hf, hQ⟩ := hx
  exact ⟨f, hf, fun ws hl => h _ (hQ ws hl)⟩

/-- What a computation draws and makes is settled, so two properties of it hold together. -/
theorem draws_and {α : Type} {x : Draw α} {n : Nat} {Q R : α → Prop} (hQ : Draws x n Q) (hR : Draws x n R) :
    Draws x n fun a => Q a ∧ R a := by
  obtain ⟨f, hf, hQ⟩ := hQ
  obtain ⟨g, hg, hR⟩ := hR
  refine ⟨f, hf, fun ws hl => ⟨hQ ws hl, ?_⟩⟩
  have : Drawn.done (f ws) _ = Drawn.done (g ws) _ := (hf.done ws [] 0 hl).symm.trans (hg.done ws [] 0 hl)
  rw [(Drawn.done.inj this).1]
  exact hR ws hl

theorem draws_congr {α : Type} {x : Draw α} {n m : Nat} {Q : α → Prop} (hx : Draws x n Q) (h : n = m) :
    Draws x m Q := h ▸ hx

/-- A loop that keeps an invariant, `m` words in each pass. -/
theorem draws_fold {ι σ : Type} {f : σ → ι → Draw σ} {m : Nat} {I : Nat → σ → Prop} :
    ∀ (xs : List ι) (k : Nat) (a : σ), I k a →
      (∀ j a (h : j < xs.length), I (k + j) a → Draws (f a xs[j]) m (I (k + j + 1))) →
      Draws (Draw.fold f xs a) (m * xs.length) (I (k + xs.length))
  | [], k, a, ha, _ => draws_pure (by simpa using ha)
  | x :: xs, k, a, ha, hf => by
    have h0 := hf 0 a (by simp) (by simpa using ha)
    have := draws_bind h0 fun b hb => draws_fold xs (k + 1) b (by simpa using hb) fun j c hj hc => by
      have := hf (j + 1) c (by simpa using hj) (by simpa [Nat.add_assoc, Nat.add_comm 1] using hc)
      simpa [Nat.add_assoc, Nat.add_comm 1] using this
    exact draws_congr (draws_weaken this fun b hb => by
      simpa [Nat.add_assoc, Nat.add_comm 1] using hb) (by simp [Nat.mul_succ]; omega)

/-- A loop that collects values, each with its own property, `m` words in each pass. -/
theorem draws_each {ι α : Type} {f : ι → Draw α} {m : Nat} {Q : ι → α → Prop} :
    ∀ xs : List ι, (∀ x ∈ xs, Draws (f x) m (Q x)) →
      Draws (Draw.each f xs) (m * xs.length) (fun as => List.Forall₂ Q xs as)
  | [], _ => draws_pure List.Forall₂.nil
  | x :: xs, h => by
    have := draws_bind (h x (by simp)) fun a ha =>
      draws_map (g := (a :: ·)) (draws_each xs fun y hy => h y (by simp [hy])) fun as has =>
        List.Forall₂.cons ha has
    exact draws_congr this (by simp [Nat.mul_succ]; omega)

/-- The answers ready are enough words, or hold a Failure too early, or run out. -/
theorem answers_cases (n : Nat) (as : List Answer) :
    (∃ (ws : List Word) (rest : List Answer), as = ws.map Answer.word ++ rest ∧ ws.length = n) ∨
    (∃ (ws : List Word) (rest : List Answer), as = ws.map Answer.word ++ .failure :: rest ∧ ws.length < n) ∨
    (∃ ws : List Word, as = ws.map Answer.word ∧ ws.length < n) := by
  induction n generalizing as with
  | zero => exact .inl ⟨[], as, rfl, rfl⟩
  | succ n ih =>
    match as with
    | [] => exact .inr (.inr ⟨[], rfl, by simp⟩)
    | .failure :: rest => exact .inr (.inl ⟨[], rest, rfl, by simp⟩)
    | .word w :: as =>
      obtain ⟨ws, rest, rfl, h⟩ | ⟨ws, rest, rfl, h⟩ | ⟨ws, rfl, h⟩ := ih as
      · exact .inl ⟨w :: ws, rest, rfl, by simp [h]⟩
      · exact .inr (.inl ⟨w :: ws, rest, rfl, by simpa using h⟩)
      · exact .inr (.inr ⟨w :: ws, rfl, by simpa using h⟩)

theorem wordsOf_map_word (ws : List Word) : wordsOf (ws.map .word) = ws := by
  induction ws with
  | nil => rfl
  | cons w ws ih => simp [wordsOf, ih]

end Sys2Proof.Machine
end

