-- ==== Sys2Proof/Laws/Gadgets.lean ====
section
/-! SUPPORT. The laws of the masked gadgets: what they draw, how many shares they give, and what they unmask to
(R158). -/

namespace Sys2Proof.Machine

/-! ### XOR of lists -/

theorem foldl_xor (ws : List Word) (a : Word) : ws.foldl (· ^^^ ·) a = a ^^^ xorAll ws := by
  induction ws generalizing a with
  | nil => simp [xorAll]
  | cons w ws ih =>
    have h0 : xorAll (w :: ws) = (0#64 ^^^ w) ^^^ xorAll ws := ih (0#64 ^^^ w)
    rw [List.foldl_cons, ih (a ^^^ w), h0, BitVec.zero_xor, BitVec.xor_assoc]

@[simp] theorem xorAll_nil : xorAll [] = 0#64 := rfl

@[simp] theorem xorAll_cons (w : Word) (ws : List Word) : xorAll (w :: ws) = w ^^^ xorAll ws := by
  have h0 : xorAll (w :: ws) = (0#64 ^^^ w) ^^^ xorAll ws := foldl_xor ws (0#64 ^^^ w)
  rw [h0, BitVec.zero_xor]

@[simp] theorem xorAll_append (as bs : List Word) : xorAll (as ++ bs) = xorAll as ^^^ xorAll bs := by
  induction as with
  | nil => simp
  | cons a as ih => simp [ih, BitVec.xor_assoc]

theorem xor_right_comm' (a b c : Word) : a ^^^ b ^^^ c = a ^^^ c ^^^ b := by
  rw [BitVec.xor_assoc, BitVec.xor_comm b, ← BitVec.xor_assoc]

theorem xorAll_replicate_zero (n : Nat) : xorAll (List.replicate n 0#64) = 0#64 := by
  induction n with
  | zero => rfl
  | succ n ih => simp [List.replicate_succ, ih]

theorem xorAll_set (a : List Word) (k : Nat) (h : k < a.length) (w : Word) :
    xorAll (a.set k w) = xorAll a ^^^ (shareAt a k ^^^ w) := by
  induction a generalizing k with
  | nil => simp at h
  | cons x a ih =>
    cases k with
    | zero =>
      simp only [List.set_cons_zero, xorAll_cons, shareAt, List.getD_cons_zero]
      calc w ^^^ xorAll a = (x ^^^ x) ^^^ (w ^^^ xorAll a) := by simp
        _ = x ^^^ xorAll a ^^^ (x ^^^ w) := by ac_rfl
    | succ k =>
      have := ih k (by simpa using h)
      simp only [List.set_cons_succ, xorAll_cons, this, shareAt, List.getD_cons_succ, BitVec.xor_assoc]

theorem and_xor_left (a b c : Word) : a &&& (b ^^^ c) = (a &&& b) ^^^ (a &&& c) := by
  ext i hi; simp only [BitVec.getElem_and, BitVec.getElem_xor, Bool.and_xor_distrib_left]

theorem and_xor_right (a b c : Word) : (a ^^^ b) &&& c = (a &&& c) ^^^ (b &&& c) := by
  ext i hi; simp only [BitVec.getElem_and, BitVec.getElem_xor, Bool.and_xor_distrib_right]

/-- XOR of the values of two functions, term by term. -/
theorem xorAll_map_xor {ι : Type} (xs : List ι) (f g : ι → Word) :
    xorAll (xs.map fun x => f x ^^^ g x) = xorAll (xs.map f) ^^^ xorAll (xs.map g) := by
  induction xs with
  | nil => simp
  | cons x xs ih => simp only [List.map_cons, xorAll_cons, ih]; ac_rfl

theorem xorAll_map_zero {ι : Type} (xs : List ι) : xorAll (xs.map fun _ => 0#64) = 0#64 := by
  induction xs with
  | nil => rfl
  | cons x xs ih => simp only [List.map_cons, xorAll_cons, ih, BitVec.zero_xor]

theorem xorAll_map_and_left {ι : Type} (xs : List ι) (c : Word) (f : ι → Word) :
    xorAll (xs.map fun x => c &&& f x) = c &&& xorAll (xs.map f) := by
  induction xs with
  | nil => simp
  | cons x xs ih => simp only [List.map_cons, xorAll_cons, ih, and_xor_left]

/-! ### Sharewise gadgets -/

theorem rotl_xor (a b : Word) (n : Nat) : rotl (a ^^^ b) n = rotl a n ^^^ rotl b n := by
  unfold rotl
  by_cases h : n % 64 = 0
  · simp [h]
  · simp only [h, if_false]
    ext i hi
    simp only [BitVec.getElem_or, BitVec.getElem_xor, BitVec.getElem_shiftLeft, BitVec.getElem_ushiftRight,
      BitVec.getLsbD_xor]
    by_cases hlt : i < n % 64
    · simp [hlt]
    · have : ∀ w : Word, w.getLsbD (64 - n % 64 + i) = false := fun w =>
        BitVec.getLsbD_of_ge w _ (by omega)
      simp [hlt, this]

theorem rotl_zero_word (n : Nat) : rotl 0#64 n = 0#64 := by
  unfold rotl; simp

@[simp] theorem length_gXor (a b : Lane) : (gXor a b).length = min a.length b.length := by simp [gXor]

@[simp] theorem length_gRotl (a : Lane) (n : Nat) : (gRotl a n).length = a.length := by simp [gRotl]

@[simp] theorem length_xorShare0 (a : Lane) (c : Word) : (xorShare0 a c).length = a.length := by simp [xorShare0]

@[simp] theorem length_gNot (D : Nat) (a : Lane) : (gNot D a).length = a.length := by simp [gNot]

@[simp] theorem length_zeroLane (D : Nat) : (zeroLane D).length = D + 1 := by simp [zeroLane]

theorem gUnmask_zeroLane (D : Nat) : gUnmask (zeroLane D) = 0 := xorAll_replicate_zero _

theorem gUnmask_gXor (a b : Lane) (h : a.length = b.length) : gUnmask (gXor a b) = gUnmask a ^^^ gUnmask b := by
  induction a generalizing b with
  | nil => cases b <;> simp_all [gXor, gUnmask]
  | cons x a ih =>
    cases b with
    | nil => simp at h
    | cons y b =>
      have := ih b (by simpa using h)
      simp only [gXor, gUnmask, List.zipWith_cons_cons, xorAll_cons] at this ⊢
      rw [this]; ac_rfl

theorem gUnmask_gRotl (a : Lane) (n : Nat) : gUnmask (gRotl a n) = rotl (gUnmask a) n := by
  induction a with
  | nil => simp [gRotl, gUnmask, rotl_zero_word]
  | cons x a ih =>
    simp only [gRotl, gUnmask, List.map_cons, xorAll_cons, rotl_xor] at ih ⊢
    rw [ih]

theorem gUnmask_xorShare0 (a : Lane) (c : Word) (h : 0 < a.length) :
    gUnmask (xorShare0 a c) = gUnmask a ^^^ c := by
  simp only [gUnmask, xorShare0, xorAll_set a 0 h]
  rw [← BitVec.xor_assoc (shareAt a 0) (shareAt a 0) c]; simp

theorem xorAll_map_not (a : List Word) :
    xorAll (a.map (~~~ ·)) = xorAll a ^^^ (if a.length % 2 = 1 then BitVec.allOnes 64 else 0#64) := by
  induction a with
  | nil => simp
  | cons x a ih =>
    have hx : ~~~x = x ^^^ BitVec.allOnes 64 := BitVec.xor_allOnes.symm
    simp only [List.map_cons, xorAll_cons, ih, hx, List.length_cons]
    by_cases h : a.length % 2 = 1
    · have h2 : ¬ (a.length + 1) % 2 = 1 := by omega
      simp only [h, h2, if_true, if_false]
      calc x ^^^ BitVec.allOnes 64 ^^^ (xorAll a ^^^ BitVec.allOnes 64)
          = x ^^^ xorAll a ^^^ (BitVec.allOnes 64 ^^^ BitVec.allOnes 64) := by ac_rfl
        _ = _ := by simp
    · have h2 : (a.length + 1) % 2 = 1 := by omega
      simp only [h, h2, if_true, if_false]
      rw [BitVec.xor_zero]; ac_rfl

/-- `unmask(not(a)) = ~unmask(a)` (R153). -/
theorem gUnmask_gNot (D : Nat) (a : Lane) (h : a.length = D + 1) : gUnmask (gNot D a) = ~~~(gUnmask a) := by
  have hx : ∀ w : Word, ~~~w = w ^^^ BitVec.allOnes 64 := fun w => BitVec.xor_allOnes.symm
  rw [gNot, gUnmask_xorShare0 _ _ (by simp [h]), hx]
  simp only [gUnmask, xorAll_map_not, h]
  by_cases hD : (D + 1) % 2 = 0
  · simp [hD]
  · have : (D + 1) % 2 = 1 := by omega
    simp [this]

/-! ### mask -/

theorem takes_congr {α : Type} {x : Draw α} {n : Nat} {f g : List Word → α} (h : Takes x n f)
    (hfg : ∀ ws : List Word, ws.length = n → f ws = g ws) : Takes x n g :=
  ⟨fun ws rest c hl => (h.done ws rest c hl).trans (by rw [hfg ws hl]), h.failed, h.waiting⟩

theorem takes_each_rng {ι : Type} (xs : List ι) : Takes (Draw.each (fun _ => rng) xs) xs.length fun ws => ws := by
  induction xs with
  | nil => exact takes_congr (takes_pure []) fun ws h => (List.eq_nil_of_length_eq_zero h).symm
  | cons x xs ih =>
    have := takes_bind (k := fun a => Draw.map (a :: ·) (Draw.each (fun _ => rng) xs))
      (g := fun ws vs => ws.headD 0 :: vs) takes_rng fun ws _ => takes_map _ ih
    refine takes_congr (n := (x :: xs).length) (List.length_cons ▸ Nat.add_comm 1 xs.length ▸ this) fun ws h => ?_
    cases ws with
    | nil => simp at h
    | cons w ws => simp

theorem takes_drawWords (n : Nat) : Takes (drawWords n) n fun ws => ws := by
  have := takes_each_rng (List.range n)
  rwa [List.length_range] at this

/-- `mask(v)` draws `D` words, which become shares `0 .. D-1`; share `D` is the rest (R150). -/
theorem takes_gMask (D : Nat) (v : Word) : Takes (gMask D v) D fun ws => ws ++ [v ^^^ xorAll ws] :=
  takes_map _ (takes_drawWords D)

theorem gUnmask_maskShares (v : Word) (ws : List Word) : gUnmask (ws ++ [v ^^^ xorAll ws]) = v := by
  rw [gUnmask, xorAll_append, xorAll_cons, xorAll_nil, BitVec.xor_zero]
  calc xorAll ws ^^^ (v ^^^ xorAll ws) = v ^^^ (xorAll ws ^^^ xorAll ws) := by ac_rfl
    _ = v := by simp

theorem draws_gMask (D : Nat) (v : Word) : Draws (gMask D v) D fun m => m.length = D + 1 ∧ gUnmask m = v :=
  ⟨_, takes_gMask D v, fun ws h => ⟨by simp [h], gUnmask_maskShares v ws⟩⟩

/-! ### and -/

/-- The matrix that the words of `and` make: the word of each pair at `(i, j)` and `(j, i)` (R154). -/
def matrixOf (D : Nat) (ws : List Word) : RandMatrix :=
  ((pairs D).zip ws).foldl (fun m x => setEntry (setEntry m x.1.1 x.1.2 x.2) x.1.2 x.1.1 x.2) (zeroMatrix D)

theorem takes_fold_rng {ι σ : Type} (g : σ → ι → Word → σ) (xs : List ι) (a : σ) :
    Takes (Draw.fold (fun m x => Draw.map (fun w => g m x w) rng) xs a) xs.length
      fun ws => (xs.zip ws).foldl (fun m x => g m x.1 x.2) a := by
  induction xs generalizing a with
  | nil => exact takes_congr (takes_pure a) fun ws h => by simp
  | cons x xs ih =>
    have h1 : Takes (Draw.map (fun w => g a x w) rng) 1 (fun ws => g a x (ws.headD 0)) := takes_map _ takes_rng
    have := takes_bind h1 fun ws _ => ih (g a x (ws.headD 0))
    refine takes_congr (n := (x :: xs).length) (List.length_cons ▸ Nat.add_comm 1 xs.length ▸ this) fun ws h => ?_
    cases ws with
    | nil => simp at h
    | cons w ws => simp

theorem takes_drawMatrix (D : Nat) : Takes (drawMatrix D) (pairs D).length (matrixOf D) :=
  takes_fold_rng (ι := Nat × Nat) (fun m ij w => setEntry (setEntry m ij.1 ij.2 w) ij.2 ij.1 w) (pairs D) (zeroMatrix D)

theorem mem_pairs {D : Nat} {ij : Nat × Nat} : ij ∈ pairs D ↔ ij.1 < ij.2 ∧ ij.2 ≤ D := by
  obtain ⟨i, j⟩ := ij
  simp only [pairs, List.mem_flatMap, List.mem_range, List.mem_map, List.mem_range'_1, Prod.mk.injEq]
  constructor
  · rintro ⟨a, ha, b, hb, rfl, rfl⟩; omega
  · rintro ⟨h1, h2⟩; exact ⟨i, by omega, j, by omega, rfl, rfl⟩

/-- `and` consumes exactly `D(D+1)/2` words (R154). -/
theorem length_pairs (D : Nat) : (pairs D).length = D * (D + 1) / 2 := by
  have h : ∀ n, n ≤ D + 1 → 2 * ((List.range n).map fun i => D - i).sum + n * n = n * (2 * D + 1) := by
    intro n hn
    induction n with
    | zero => simp
    | succ n ih =>
      have := ih (by omega)
      simp only [List.range_succ, List.map_append, List.sum_append, List.map_cons, List.map_nil, List.sum_cons,
        List.sum_nil]
      obtain ⟨e, rfl⟩ : ∃ e, D = n + e := ⟨D - n, by omega⟩
      have : n + e - n = e := by omega
      rw [this]
      nlinarith
  have h0 := h (D + 1) (le_refl _)
  have : (pairs D).length = ((List.range (D + 1)).map fun i => D - i).sum := by
    simp [pairs, List.length_flatMap]
  rw [this]
  have h2 : D * (D + 1) = 2 * ((List.range (D + 1)).map fun i => D - i).sum := by nlinarith
  omega

/-- `and(a, b)` draws `D(D+1)/2` words and uses them as its matrix (R154). -/
theorem takes_gAnd (D : Nat) (a b : Lane) :
    Takes (gAnd D a b) (D * (D + 1) / 2) fun ws => andShares D a b (matrixOf D ws) := by
  have := takes_map (andShares D a b) (takes_drawMatrix D)
  rwa [length_pairs] at this

theorem shareAt_set (c : Lane) (i k : Nat) (h : i < c.length) (w : Word) :
    shareAt (c.set i w) k = if i = k then w else shareAt c k := by
  simp only [shareAt, List.getD_eq_getElem?_getD, List.getElem?_set]
  by_cases hik : i = k
  · subst hik; simp [h]
  · simp [hik]

@[simp] theorem length_andStep (a b : Lane) (rm : RandMatrix) (c : Lane) (ij : Nat × Nat) :
    (andStep a b rm c ij).length = c.length := by simp [andStep]

/-- What one pair adds to share `k` (R154). -/
def pairTerm (a b : Lane) (rm : RandMatrix) (k : Nat) (ij : Nat × Nat) : Word :=
  if ij.1 = k then entry rm ij.1 ij.2
  else if ij.2 = k then crossTerm a b ij.1 ij.2 ^^^ entry rm ij.1 ij.2 else 0

theorem shareAt_andStep (a b : Lane) (rm : RandMatrix) (c : Lane) (ij : Nat × Nat) (k : Nat)
    (h1 : ij.1 < ij.2) (h2 : ij.2 < c.length) :
    shareAt (andStep a b rm c ij) k = shareAt c k ^^^ pairTerm a b rm k ij := by
  obtain ⟨i, j⟩ := ij
  have hl : j < (c.set i (shareAt c i ^^^ entry rm i j)).length := by simpa using h2
  simp only [andStep, pairTerm]
  have hi' : i < c.length := Nat.lt_trans h1 h2
  simp only [shareAt_set _ _ _ hl, shareAt_set _ _ _ hi']
  by_cases hj : j = k
  · subst hj
    have hne : i ≠ j := Nat.ne_of_lt h1
    simp [hne]
  · by_cases hi : i = k <;> simp [hi, hj]

theorem length_foldl_andStep (a b : Lane) (rm : RandMatrix) (ps : List (Nat × Nat)) (c : Lane) :
    (ps.foldl (andStep a b rm) c).length = c.length := by
  induction ps generalizing c with
  | nil => rfl
  | cons p ps ih => simp [ih]

theorem shareAt_foldl_andStep (a b : Lane) (rm : RandMatrix) (ps : List (Nat × Nat)) (c : Lane) (k : Nat)
    (h : ∀ p ∈ ps, p.1 < p.2 ∧ p.2 < c.length) :
    shareAt (ps.foldl (andStep a b rm) c) k = shareAt c k ^^^ xorAll (ps.map (pairTerm a b rm k)) := by
  induction ps generalizing c with
  | nil => simp
  | cons p ps ih =>
    simp only [List.foldl_cons, List.map_cons, xorAll_cons]
    rw [ih _ fun q hq => by simpa using h q (List.mem_cons_of_mem _ hq),
      shareAt_andStep a b rm c p k (h p (by simp)).1 (h p (by simp)).2, BitVec.xor_assoc]

theorem length_andShares (D : Nat) (a b : Lane) (rm : RandMatrix) (ha : a.length = D + 1) (hb : b.length = D + 1) :
    (andShares D a b rm).length = D + 1 := by
  simp [andShares, length_foldl_andStep, ha, hb]

theorem shareAt_zipWith_and (a b : Lane) (h : a.length = b.length) (k : Nat) :
    shareAt (List.zipWith (· &&& ·) a b) k = shareAt a k &&& shareAt b k := by
  induction a generalizing b k with
  | nil => cases b <;> simp_all [shareAt]
  | cons x a ih =>
    cases b with
    | nil => simp at h
    | cons y b =>
      cases k with
      | zero => simp [shareAt]
      | succ k => simpa [shareAt] using ih b (by simpa using h) k

/-- Share `k` of `and`: the diagonal term and what each pair adds (R154). -/
theorem shareAt_andShares (D : Nat) (a b : Lane) (rm : RandMatrix) (ha : a.length = D + 1) (hb : b.length = D + 1)
    (k : Nat) : shareAt (andShares D a b rm) k
      = (shareAt a k &&& shareAt b k) ^^^ xorAll ((pairs D).map (pairTerm a b rm k)) := by
  rw [andShares, shareAt_foldl_andStep, shareAt_zipWith_and a b (by omega)]
  intro p hp
  have := mem_pairs.mp hp
  simp [ha, hb]; omega

theorem xorAll_eq_range (a : Lane) : xorAll a = xorAll ((List.range a.length).map (shareAt a)) := by
  congr 1
  apply List.ext_getElem
  · simp
  · intro i h1 h2; simp [shareAt, h1]

theorem xorAll_foldl_andStep (a b : Lane) (rm : RandMatrix) (ps : List (Nat × Nat)) (c : Lane)
    (h : ∀ p ∈ ps, p.1 < p.2 ∧ p.2 < c.length) :
    xorAll (ps.foldl (andStep a b rm) c) = xorAll c ^^^ xorAll (ps.map fun p => crossTerm a b p.1 p.2) := by
  induction ps generalizing c with
  | nil => simp
  | cons p ps ih =>
    obtain ⟨h1, h2⟩ := h p (by simp)
    simp only [List.foldl_cons, List.map_cons, xorAll_cons]
    rw [ih _ fun q hq => by simpa using h q (List.mem_cons_of_mem _ hq)]
    have : xorAll (andStep a b rm c p) = xorAll c ^^^ crossTerm a b p.1 p.2 := by
      simp only [andStep]
      rw [xorAll_set _ _ (by simpa using h2), xorAll_set _ _ (by omega)]
      generalize shareAt (c.set p.1 _) p.2 = u
      generalize shareAt c p.1 = v
      generalize entry rm p.1 p.2 = r
      generalize crossTerm a b p.1 p.2 = t
      calc xorAll c ^^^ (v ^^^ (v ^^^ r)) ^^^ (u ^^^ (u ^^^ (t ^^^ r)))
          = xorAll c ^^^ t ^^^ ((v ^^^ v) ^^^ (u ^^^ u) ^^^ (r ^^^ r)) := by ac_rfl
        _ = _ := by simp
    rw [this, BitVec.xor_assoc]

/-- The diagonal and cross terms together are every product. -/
theorem products_eq (D : Nat) (f g : Nat → Word) :
    xorAll ((List.range (D + 1)).map fun i => f i &&& g i)
        ^^^ xorAll ((pairs D).map fun p => (f p.1 &&& g p.2) ^^^ (f p.2 &&& g p.1))
      = xorAll ((List.range (D + 1)).map f) &&& xorAll ((List.range (D + 1)).map g) := by
  have hp : ∀ (n : Nat) (F : Nat × Nat → Word), n ≤ D + 1 →
      xorAll (((List.range n).flatMap fun i => (List.range' (i + 1) (D - i)).map fun j => (i, j)).map F)
        = xorAll ((List.range n).map fun i => xorAll ((List.range' (i + 1) (D - i)).map fun j => F (i, j))) := by
    intro n F hn
    induction n with
    | zero => simp
    | succ n ih =>
      simp only [List.range_succ, List.flatMap_append, List.map_append, xorAll_append, ih (by omega)]
      simp [Function.comp_def]
  have key : ∀ (m s : Nat),
      xorAll ((List.range' s m).map fun i => f i &&& g i)
        ^^^ xorAll ((List.range' s m).map fun i =>
          xorAll ((List.range' (i + 1) (s + m - (i + 1))).map fun j => (f i &&& g j) ^^^ (f j &&& g i)))
      = xorAll ((List.range' s m).map f) &&& xorAll ((List.range' s m).map g) := by
    intro m
    induction m with
    | zero => intro s; simp
    | succ m ih =>
      intro s
      have := ih (s + 1)
      have e : s + (m + 1) - (s + 1) = m := by omega
      have e2 : s + 1 + m = s + (m + 1) := by omega
      simp only [List.range'_succ, List.map_cons, xorAll_cons, e]
      rw [e2] at this
      rw [xorAll_map_xor, xorAll_map_and_left]
      have h2 : xorAll ((List.range' (s + 1) m).map fun j => f j &&& g s)
          = g s &&& xorAll ((List.range' (s + 1) m).map f) := by
        rw [← xorAll_map_and_left]; congr 2; funext j; rw [BitVec.and_comm]
      rw [h2]
      rw [and_xor_left, and_xor_right, and_xor_right, ← this]
      rw [BitVec.and_comm (g s)]
      ac_rfl
  have k0 := key (D + 1) 0
  simp only [← List.range_eq_range', Nat.zero_add] at k0
  rw [← k0]
  congr 1
  rw [pairs, hp (D + 1) _ (le_refl _)]
  congr 2
  funext i
  have : D + 1 - (i + 1) = D - i := by omega
  rw [this]

/-- `unmask(and(a, b)) = unmask(a) & unmask(b)`, whatever the matrix (R154). -/
theorem gUnmask_andShares (D : Nat) (a b : Lane) (rm : RandMatrix) (ha : a.length = D + 1)
    (hb : b.length = D + 1) : gUnmask (andShares D a b rm) = gUnmask a &&& gUnmask b := by
  have hz : xorAll (List.zipWith (· &&& ·) a b)
      = xorAll ((List.range (D + 1)).map fun i => shareAt a i &&& shareAt b i) := by
    rw [xorAll_eq_range]
    simp only [List.length_zipWith, ha, hb, Nat.min_self]
    congr 2; funext k; exact shareAt_zipWith_and a b (by omega) k
  rw [gUnmask, andShares, xorAll_foldl_andStep, hz]
  · have := products_eq D (shareAt a) (shareAt b)
    simp only [crossTerm, gUnmask]
    rw [xorAll_eq_range a, xorAll_eq_range b, ha, hb, this]
  · intro p hp
    have := mem_pairs.mp hp
    simp [ha, hb]; omega

theorem draws_gAnd (D : Nat) (a b : Lane) (ha : a.length = D + 1) (hb : b.length = D + 1) :
    Draws (gAnd D a b) (D * (D + 1) / 2) fun c => c.length = D + 1 ∧ gUnmask c = gUnmask a &&& gUnmask b :=
  ⟨_, takes_gAnd D a b, fun _ _ => ⟨length_andShares D a b _ ha hb, gUnmask_andShares D a b _ ha hb⟩⟩

end Sys2Proof.Machine
end

