-- ==== Sys2Proof/Laws/AndShares.lean ====
section
/-! SUPPORT. Each share of `and`, in closed form: which drawn word lands in which share (R154). -/

namespace Sys2Proof.Machine

/-! ### The place of a pair in the draw order -/

theorem length_rows (D : Nat) : ∀ i, i ≤ D + 1 →
    2 * ((List.range i).flatMap fun i => (List.range' (i + 1) (D - i)).map fun j => (i, j)).length + i * (i - 1) = 2 * (i * D)
  | 0, _ => by simp
  | i + 1, h => by
    have ih := length_rows D i (by omega)
    rw [List.range_succ, List.flatMap_append, List.length_append]
    simp only [List.flatMap_cons, List.flatMap_nil, List.append_nil, List.length_map, List.length_range']
    have e1 : (i + 1) * (i + 1 - 1) = i * (i - 1) + 2 * i := by
      cases i with
      | zero => rfl
      | succ k => simp only [Nat.add_sub_cancel]; ring
    have e2 : (i + 1) * D = i * D + D := by ring
    rw [e1, e2]
    omega

theorem two_dvd_mul_pred (i : Nat) : 2 ∣ i * (i - 1) := by
  cases i with
  | zero => simp
  | succ k => simpa [Nat.mul_comm] using (Nat.even_mul_succ_self k).two_dvd

theorem getElem?_rows (D i j : Nat) (hij : i < j) (hj : j ≤ D) : ∀ n, i < n →
    ((List.range n).flatMap fun i => (List.range' (i + 1) (D - i)).map fun j => (i, j))[pairPlace D i j]? = some (i, j)
  | 0, h => absurd h (Nat.not_lt_zero _)
  | n + 1, h => by
    rw [List.range_succ, List.flatMap_append]
    simp only [List.flatMap_cons, List.flatMap_nil, List.append_nil]
    by_cases hn : i < n
    · have ih := getElem?_rows D i j hij hj n hn
      have hlt := (List.getElem?_eq_some_iff.mp ih).1
      rw [List.getElem?_append_left hlt, ih]
    · have hi : i = n := by omega
      subst hi
      have hl := length_rows D i (by omega)
      have hd := two_dvd_mul_pred i
      have hp : pairPlace D i j = ((List.range i).flatMap fun i => (List.range' (i + 1) (D - i)).map fun j => (i, j)).length
          + (j - i - 1) := by
        unfold pairPlace; omega
      rw [hp, List.getElem?_append_right (by omega), Nat.add_sub_cancel_left]
      simp only [List.getElem?_map]
      rw [List.getElem?_range' (by omega)]
      simp only [Option.map_some, Option.some.injEq, Prod.mk.injEq, true_and]
      omega

theorem getElem?_pairs (D i j : Nat) (hij : i < j) (hj : j ≤ D) : (pairs D)[pairPlace D i j]? = some (i, j) :=
  getElem?_rows D i j hij hj (D + 1) (by omega)

theorem nodup_pairs (D : Nat) : (pairs D).Nodup := by
  unfold pairs
  rw [List.nodup_flatMap]
  refine ⟨fun i _ => List.Nodup.map (fun a b h => by simpa using h) (List.nodup_range' _), ?_⟩
  refine List.Pairwise.imp_of_mem ?_ (List.nodup_range (n := D + 1))
  intro a b _ _ hab
  simp only [List.disjoint_left, List.mem_map]
  rintro ⟨x, y⟩ ⟨p, -, hp⟩ ⟨q, -, hq⟩
  rw [← hp] at hq
  exact hab (Prod.mk.inj hq).1.symm

/-! ### The matrix holds each word at its pair -/

/-- A `(D+1) x (D+1)` matrix. -/
def square (D : Nat) (m : RandMatrix) : Prop := m.length = D + 1 ∧ ∀ r ∈ m, r.length = D + 1

theorem square_zero (D : Nat) : square D (zeroMatrix D) :=
  ⟨by simp [zeroMatrix], fun r hr => by rw [(List.mem_replicate.mp hr).2]; simp⟩

theorem row_length {D : Nat} {m : RandMatrix} (h : square D m) {i : Nat} (hi : i ≤ D) : (m.getD i []).length = D + 1 := by
  have : i < m.length := by rw [h.1]; omega
  rw [List.getD_eq_getElem?_getD, List.getElem?_eq_getElem this, Option.getD_some]
  exact h.2 _ (List.getElem_mem this)

theorem square_setEntry {D : Nat} {m : RandMatrix} (h : square D m) {i : Nat} (hi : i ≤ D) (j : Nat) (w : Word) :
    square D (setEntry m i j w) :=
  ⟨by simp [setEntry, h.1], fun r hr => (List.mem_or_eq_of_mem_set hr).elim (h.2 r) fun e => by
    rw [e, List.length_set, row_length h hi]⟩

theorem entry_setEntry {D : Nat} {m : RandMatrix} (h : square D m) {i j : Nat} (hi : i ≤ D) (hj : j ≤ D) (w : Word)
    (a b : Nat) : entry (setEntry m i j w) a b = if i = a ∧ j = b then w else entry m a b := by
  have hl : i < m.length := by rw [h.1]; omega
  have hr : j < (m.getD i []).length := by rw [row_length h hi]; omega
  unfold entry setEntry
  simp only [List.getD_eq_getElem?_getD, List.getElem?_set] at hr ⊢
  by_cases h1 : i = a
  · subst h1
    simp only [if_true, hl, Option.getD_some, List.getElem?_set]
    by_cases h2 : j = b
    · subst h2; simp [hr]
    · simp [h2]
  · simp [h1]

/-- Writing one word of the matrix at a pair and at its mirror. -/
def putPair (m : RandMatrix) (x : (Nat × Nat) × Word) : RandMatrix :=
  setEntry (setEntry m x.1.1 x.1.2 x.2) x.1.2 x.1.1 x.2

theorem square_putPair {D : Nat} {m : RandMatrix} (h : square D m) {x : (Nat × Nat) × Word} (h1 : x.1.1 < x.1.2)
    (h2 : x.1.2 ≤ D) : square D (putPair m x) :=
  square_setEntry (square_setEntry h (by omega) _ _) h2 _ _

theorem entry_putPair {D : Nat} {m : RandMatrix} (h : square D m) {x : (Nat × Nat) × Word} (h1 : x.1.1 < x.1.2)
    (h2 : x.1.2 ≤ D) {i j : Nat} (hij : i < j) : entry (putPair m x) i j = if x.1 = (i, j) then x.2 else entry m i j := by
  obtain ⟨⟨p, q⟩, w⟩ := x
  simp only at h1 h2
  have hp : p ≤ D := by omega
  show entry (setEntry (setEntry m p q w) q p w) i j = _
  rw [entry_setEntry (square_setEntry h hp _ _) h2 hp, if_neg (by omega), entry_setEntry h hp h2]
  simp only [Prod.mk.injEq]

theorem entry_foldl_putPair {D : Nat} {i j : Nat} (hij : i < j) : ∀ (ps : List (Nat × Nat)) (ws : List Word) (m : RandMatrix),
    square D m → (∀ p ∈ ps, p.1 < p.2 ∧ p.2 ≤ D) → ps.Nodup → ps.length = ws.length →
    ((i, j) ∉ ps → entry ((ps.zip ws).foldl putPair m) i j = entry m i j) ∧
    ∀ k, ps[k]? = some (i, j) → entry ((ps.zip ws).foldl putPair m) i j = ws.getD k 0
  | [], ws, m, _, _, _, _ => by simp
  | p :: ps, [], m, _, _, _, hl => by simp at hl
  | p :: ps, w :: ws, m, hm, hp, hn, hl => by
    have h1 := hp p (by simp)
    have ih := entry_foldl_putPair hij ps ws (putPair m (p, w)) (square_putPair hm h1.1 h1.2)
      (fun q hq => hp q (by simp [hq])) (List.nodup_cons.mp hn).2 (by simpa using hl)
    have he := entry_putPair hm (x := (p, w)) h1.1 h1.2 hij
    simp only [List.zip_cons_cons, List.foldl_cons]
    refine ⟨fun hnot => ?_, fun k hk => ?_⟩
    · simp only [List.mem_cons, not_or] at hnot
      rw [ih.1 hnot.2, he, if_neg (fun e => hnot.1 e.symm)]
    · cases k with
      | zero =>
        simp only [List.getElem?_cons_zero, Option.some.injEq] at hk
        have : (i, j) ∉ ps := hk ▸ (List.nodup_cons.mp hn).1
        rw [ih.1 this, he, if_pos hk]; rfl
      | succ k => rw [ih.2 k (by simpa using hk)]; rfl

/-- Entry `(i, j)` of the matrix that the drawn words make is the word at the pair's place in the draw order (R154). -/
theorem entry_matrixOf {D : Nat} {ws : List Word} (hl : ws.length = D * (D + 1) / 2) {i j : Nat} (hij : i < j) (hj : j ≤ D) :
    entry (matrixOf D ws) i j = pairWord D ws i j :=
  (entry_foldl_putPair hij (pairs D) ws (zeroMatrix D) (square_zero D) (fun _ hp => mem_pairs.mp hp) (nodup_pairs D)
    (by rw [length_pairs, hl])).2 _ (getElem?_pairs D i j hij hj)

/-! ### The share -/

theorem xorAll_flatMap {ι : Type} (xs : List ι) (f : ι → List Word) :
    xorAll (xs.flatMap f) = xorAll (xs.map fun x => xorAll (f x)) := by
  induction xs with
  | nil => rfl
  | cons x xs ih => simp [List.flatMap_cons, ih]

theorem xorAll_map_congr {ι : Type} {xs : List ι} {f g : ι → Word} (h : ∀ x ∈ xs, f x = g x) :
    xorAll (xs.map f) = xorAll (xs.map g) := by rw [List.map_congr_left h]

/-- A sum over a range in which only one place counts. -/
theorem xorAll_range'_single (k s n : Nat) (w : Word) (h1 : s ≤ k) (h2 : k < s + n) :
    xorAll ((List.range' s n).map fun j => if j = k then w else 0) = w := by
  induction n generalizing s with
  | zero => omega
  | succ n ih =>
    rw [List.range'_succ, List.map_cons, xorAll_cons]
    by_cases hk : s = k
    · rw [if_pos hk, xorAll_map_congr (g := fun _ => 0#64) fun x hx => by
        have := (List.mem_range'_1.mp hx).1
        rw [if_neg (by omega)]; rfl, xorAll_map_zero]
      simp
    · rw [if_neg hk, ih (s + 1) (by omega) (by omega)]; simp

/-- Share `k` of `and`, in closed form (R154). -/
theorem shareAt_andShares_eq {D : Nat} {a b : Lane} (ha : a.length = D + 1) (hb : b.length = D + 1) {ws : List Word}
    (hl : ws.length = D * (D + 1) / 2) {k : Nat} (hk : k ≤ D) :
    shareAt (andShares D a b (matrixOf D ws)) k = andShare D (shareAt a) (shareAt b) ws k := by
  rw [shareAt_andShares D a b _ ha hb, andShare, BitVec.xor_assoc]
  congr 1
  have hrow : ∀ i ≤ D, xorAll (((List.range' (i + 1) (D - i)).map fun j => (i, j)).map (pairTerm a b (matrixOf D ws) k))
      = if i < k then ((shareAt a i &&& shareAt b k) ^^^ (shareAt a k &&& shareAt b i)) ^^^ pairWord D ws i k
        else if i = k then xorAll ((List.range' (k + 1) (D - k)).map fun j => pairWord D ws k j) else 0 := by
    intro i hi
    rw [List.map_map]
    by_cases h1 : i < k
    · rw [if_pos h1, ← xorAll_range'_single k (i + 1) (D - i)
        (((shareAt a i &&& shareAt b k) ^^^ (shareAt a k &&& shareAt b i)) ^^^ pairWord D ws i k) (by omega) (by omega)]
      refine xorAll_map_congr fun j hj => ?_
      simp only [Function.comp_apply, pairTerm]
      rw [if_neg (by omega)]
      by_cases hjk : j = k
      · rw [if_pos hjk, if_pos hjk, hjk, entry_matrixOf hl h1 hk]; rfl
      · rw [if_neg hjk, if_neg hjk]
    · rw [if_neg h1]
      by_cases h2 : i = k
      · rw [if_pos h2]
        subst h2
        refine xorAll_map_congr fun j hj => ?_
        have := List.mem_range'_1.mp hj
        simp only [Function.comp_apply, pairTerm, if_true]
        exact entry_matrixOf hl (by omega) (by omega)
      · rw [if_neg h2, xorAll_map_congr (g := fun _ => 0#64) fun j hj => ?_, xorAll_map_zero]
        · rfl
        · have := List.mem_range'_1.mp hj
          simp only [Function.comp_apply, pairTerm]
          rw [if_neg (by omega), if_neg (by omega)]; rfl
  rw [pairs, List.map_flatMap, xorAll_flatMap, xorAll_map_congr fun i hi => hrow i (by simpa [Nat.lt_succ_iff] using hi)]
  have hsplit : List.range (D + 1) = List.range k ++ k :: List.range' (k + 1) (D - k) := by
    have : List.range' 0 k ++ List.range' (0 + k) (D - k + 1) = List.range' 0 (k + (D - k + 1)) := List.range'_append_1
    rw [List.range_eq_range', List.range_eq_range', ← List.range'_succ]
    rw [Nat.zero_add] at this
    rw [this]; congr 1; omega
  rw [hsplit, List.map_append, xorAll_append, List.map_cons, xorAll_cons]
  have e1 : xorAll ((List.range k).map fun i => if i < k then ((shareAt a i &&& shareAt b k) ^^^ (shareAt a k &&& shareAt b i))
      ^^^ pairWord D ws i k else if i = k then xorAll ((List.range' (k + 1) (D - k)).map fun j => pairWord D ws k j) else 0)
      = xorAll ((List.range k).map fun i => ((shareAt a i &&& shareAt b k) ^^^ (shareAt a k &&& shareAt b i)) ^^^ pairWord D ws i k) :=
    xorAll_map_congr fun i hi => by rw [if_pos (by simpa using hi)]
  have e2 : xorAll ((List.range' (k + 1) (D - k)).map fun i => if i < k then ((shareAt a i &&& shareAt b k) ^^^ (shareAt a k &&& shareAt b i))
      ^^^ pairWord D ws i k else if i = k then xorAll ((List.range' (k + 1) (D - k)).map fun j => pairWord D ws k j) else 0) = 0#64 := by
    rw [xorAll_map_congr (g := fun _ => 0#64) fun i hi => ?_, xorAll_map_zero]
    have := List.mem_range'_1.mp hi
    rw [if_neg (by omega), if_neg (by omega)]; rfl
  rw [e1, e2, if_neg (Nat.lt_irrefl k), if_pos rfl]
  simp

/-! ### The other gadgets, share by share -/

theorem shareAt_gXor (a b : Lane) (h : a.length = b.length) (k : Nat) :
    shareAt (gXor a b) k = shareAt a k ^^^ shareAt b k := by
  unfold shareAt gXor
  simp only [List.getD_eq_getElem?_getD, List.getElem?_zipWith]
  by_cases hk : k < a.length
  · have hk' : k < b.length := h ▸ hk
    simp [hk, hk']
  · have hk' : ¬ k < b.length := h ▸ hk
    simp [List.getElem?_eq_none (Nat.not_lt.mp hk), List.getElem?_eq_none (Nat.not_lt.mp hk')]

theorem shareAt_gRotl (a : Lane) (n k : Nat) : shareAt (gRotl a n) k = rotl (shareAt a k) n := by
  unfold shareAt gRotl
  simp only [List.getD_eq_getElem?_getD, List.getElem?_map]
  cases a[k]? with
  | none => simp [rotl_zero_word]
  | some w => rfl

theorem shareAt_xorShare0 (a : Lane) (c : Word) (h : 0 < a.length) (k : Nat) :
    shareAt (xorShare0 a c) k = if k = 0 then shareAt a 0 ^^^ c else shareAt a k := by
  rw [xorShare0, shareAt_set a 0 k h]
  by_cases hk : k = 0
  · simp [hk]
  · rw [if_neg (fun e => hk e.symm), if_neg hk]

theorem shareAt_gNot {D : Nat} {a : Lane} (h : a.length = D + 1) {k : Nat} (hk : k ≤ D) :
    shareAt (gNot D a) k = notShare D a k := by
  have hm : ∀ j ≤ D, shareAt (a.map (~~~ ·)) j = ~~~(shareAt a j) := by
    intro j hj
    have : j < a.length := by omega
    simp [shareAt, List.getD_eq_getElem?_getD, this]
  rw [gNot, shareAt_xorShare0 _ _ (by simp [h]), notShare, hm k hk, hm 0 (by omega)]
  by_cases h0 : k = 0
  · subst h0
    by_cases h2 : (D + 1) % 2 = 0
    · simp only [if_true, h2, and_self, BitVec.xor_allOnes, BitVec.not_not]
    · simp [h2]
  · simp [h0]

theorem shareAt_mask {D : Nat} {v : Word} {ws : List Word} (h : ws.length = D) {k : Nat} (hk : k ≤ D) :
    shareAt (ws ++ [v ^^^ xorAll ws]) k = maskShare D v ws k := by
  unfold shareAt maskShare
  by_cases hkD : k = D
  · subst hkD; simp [← h, List.getD_eq_getElem?_getD]
  · rw [if_neg hkD]
    have : k < ws.length := by omega
    simp [List.getD_eq_getElem?_getD, List.getElem?_append_left this, this]

/-- `rotl` of R14 is the rotation of bit vectors. -/
theorem rotl_eq_rotateLeft (v : Word) (n : Nat) : rotl v n = v.rotateLeft n := by
  unfold rotl BitVec.rotateLeft BitVec.rotateLeftAux
  by_cases h : n % 64 = 0
  · have : v >>> 64 = 0#64 := by
      apply BitVec.eq_of_toNat_eq
      rw [BitVec.toNat_ushiftRight, Nat.shiftRight_eq_div_pow, Nat.div_eq_of_lt v.isLt]; rfl
    simp [h, this]
  · simp [h]

end Sys2Proof.Machine
end

