-- ==== Sys2Proof/Laws/Encoding.lean ====
section
/-! SUPPORT. The fields of an assembled command word, and which words decode (R110, R114, R116, R302). -/

namespace Sys2Proof.Machine

theorem toNat_or_shift {m : Nat} (x : Word) (y : BitVec m) (k : Nat) (hx : x.toNat < 2 ^ k) (hk : m + k ≤ 64) :
    (x ||| (y.setWidth 64 <<< k)).toNat = x.toNat + 2 ^ k * y.toNat := by
  have hy : y.toNat * 2 ^ k < 2 ^ 64 := by
    calc y.toNat * 2 ^ k < 2 ^ m * 2 ^ k := Nat.mul_lt_mul_of_pos_right y.isLt (Nat.two_pow_pos k)
      _ = 2 ^ (m + k) := (Nat.pow_add 2 m k).symm
      _ ≤ 2 ^ 64 := Nat.pow_le_pow_right (by norm_num) hk
  have hs : (y.setWidth 64 <<< k).toNat = y.toNat <<< k := by
    rw [BitVec.toNat_shiftLeft, BitVec.toNat_setWidth, Nat.shiftLeft_eq, Nat.shiftLeft_eq,
      Nat.mod_eq_of_lt (lt_of_lt_of_le y.isLt (Nat.pow_le_pow_right (by norm_num) (by omega))), Nat.mod_eq_of_lt hy]
  rw [BitVec.toNat_or, hs, Nat.or_comm, ← Nat.shiftLeft_add_eq_or_of_lt hx, Nat.shiftLeft_eq]
  ring

theorem toNat_assemble (opc : BitVec 8) (ld la lb : BitVec 5) (n : BitVec 6) :
    (assemble opc ld la lb n).toNat
      = opc.toNat + 2 ^ 8 * ld.toNat + 2 ^ 13 * la.toNat + 2 ^ 18 * lb.toNat + 2 ^ 23 * n.toNat := by
  have h0 := opc.isLt
  have h1 := ld.isLt
  have h2 := la.isLt
  have h3 := lb.isLt
  have e0 : (opc.setWidth 64).toNat = opc.toNat := by rw [BitVec.toNat_setWidth]; omega
  have e1 := toNat_or_shift (opc.setWidth 64) ld 8 (by omega) (by omega)
  have e2 := toNat_or_shift (opc.setWidth 64 ||| (ld.setWidth 64 <<< 8)) la 13 (by omega) (by omega)
  have e3 := toNat_or_shift (opc.setWidth 64 ||| (ld.setWidth 64 <<< 8) ||| (la.setWidth 64 <<< 13)) lb 18 (by omega)
    (by omega)
  have e4 := toNat_or_shift (opc.setWidth 64 ||| (ld.setWidth 64 <<< 8) ||| (la.setWidth 64 <<< 13) |||
    (lb.setWidth 64 <<< 18)) n 23 (by omega) (by omega)
  rw [assemble, e4, e3, e2, e1, e0]

theorem fields_assemble (opc : BitVec 8) (ld la lb : BitVec 5) (n : BitVec 6) :
    fieldOpc (assemble opc ld la lb n) = opc ∧ fieldLd (assemble opc ld la lb n) = ld ∧
    fieldLa (assemble opc ld la lb n) = la ∧ fieldLb (assemble opc ld la lb n) = lb ∧
    fieldN (assemble opc ld la lb n) = n ∧ fieldRsv (assemble opc ld la lb n) = 0 := by
  have h := toNat_assemble opc ld la lb n
  have h0 := opc.isLt
  have h1 := ld.isLt
  have h2 := la.isLt
  have h3 := lb.isLt
  have h4 := n.isLt
  refine ⟨?_, ?_, ?_, ?_, ?_, ?_⟩ <;> apply BitVec.eq_of_toNat_eq <;>
    simp only [fieldOpc, fieldLd, fieldLa, fieldLb, fieldN, fieldRsv, BitVec.extractLsb'_toNat, h,
      Nat.shiftRight_eq_div_pow] <;> simp <;> omega

theorem assemble_fields (w : Word) (h : fieldRsv w = 0) :
    assemble (fieldOpc w) (fieldLd w) (fieldLa w) (fieldLb w) (fieldN w) = w := by
  apply BitVec.eq_of_toNat_eq
  rw [toNat_assemble]
  have hw := w.isLt
  have := congrArg BitVec.toNat h
  simp only [fieldOpc, fieldLd, fieldLa, fieldLb, fieldN, fieldRsv, BitVec.extractLsb'_toNat,
      Nat.shiftRight_eq_div_pow] at this ⊢
  simp at this
  omega

theorem decode_assemble (opc : BitVec 8) (ld la lb : BitVec 5) (n : BitVec 6) :
    decode (assemble opc ld la lb n) = decodeRow opc ld la lb n := by
  obtain ⟨h1, h2, h3, h4, h5, h6⟩ := fields_assemble opc ld la lb n
  simp [decode, h1, h2, h3, h4, h5, h6]

theorem encode_of_decodeRow {opc : BitVec 8} {ld la lb : BitVec 5} {n : BitVec 6} {i : Instr}
    (h : decodeRow opc ld la lb n = .ok i) : encode i = assemble opc ld la lb n := by
  unfold decodeRow needZero at h
  split at h <;> (try split at h) <;> cases h <;>
  · rename_i h1 h2
    apply BitVec.eq_of_toNat_eq
    simp at h2
    simp only [encode, toNat_assemble, h1, h2]
    simp

theorem row_decodes {opc : BitVec 8} {ld la lb : BitVec 5} {n : BitVec 6} {r : OpcodeRow} (hr : r ∈ opcodeRows)
    (ho : opc.toNat = r.opc) (hd : r.ld = false → ld = 0) (ha : r.la = false → la = 0) (hb : r.lb = false → lb = 0)
    (hn : r.n = false → n = 0) : ∃ i, decodeRow opc ld la lb n = .ok i := by
  unfold decodeRow
  rw [ho]
  simp only [opcodeRows, List.cons_append, List.nil_append, List.mem_cons, List.not_mem_nil, or_false] at hr
  rcases hr with rfl | rfl | rfl | rfl | rfl | rfl | rfl | rfl | rfl | rfl | rfl | rfl | rfl | rfl | rfl | rfl | rfl |
    rfl | rfl | rfl | rfl <;> simp at hd ha hb hn <;> simp [needZero, *]

theorem followsTable_assemble {opc : BitVec 8} {ld la lb : BitVec 5} {n : BitVec 6} {r : OpcodeRow} (hr : r ∈ opcodeRows)
    (ho : opc.toNat = r.opc) (hd : r.ld = false → ld = 0) (ha : r.la = false → la = 0) (hb : r.lb = false → lb = 0)
    (hn : r.n = false → n = 0) : followsTable (assemble opc ld la lb n) := by
  have h := toNat_assemble opc ld la lb n
  have h0 := opc.isLt
  have h1 := ld.isLt
  have h2 := la.isLt
  have h3 := lb.isLt
  have h4 := n.isLt
  unfold followsTable
  rw [h]
  refine ⟨by omega, r, hr, by omega, fun e => ?_, fun e => ?_, fun e => ?_, fun e => ?_⟩
  · have := congrArg BitVec.toNat (hd e); simp at this; omega
  · have := congrArg BitVec.toNat (ha e); simp at this; omega
  · have := congrArg BitVec.toNat (hb e); simp at this; omega
  · have := congrArg BitVec.toNat (hn e); simp at this; omega

theorem followsTable_encode (i : Instr) : followsTable (encode i) := by
  cases i with
  | lmask ld => exact followsTable_assemble (r := ⟨0x01, true, false, false, false⟩) (by decide) rfl (by simp) (by simp) (by simp) (by simp)
  | lmxor ld => exact followsTable_assemble (r := ⟨0x02, true, false, false, false⟩) (by decide) rfl (by simp) (by simp) (by simp) (by simp)
  | lxorc ld => exact followsTable_assemble (r := ⟨0x03, true, false, false, false⟩) (by decide) rfl (by simp) (by simp) (by simp) (by simp)
  | lunmask la => exact followsTable_assemble (r := ⟨0x04, false, true, false, false⟩) (by decide) rfl (by simp) (by simp) (by simp) (by simp)
  | lmov ld la => exact followsTable_assemble (r := ⟨0x05, true, true, false, false⟩) (by decide) rfl (by simp) (by simp) (by simp) (by simp)
  | lxor ld la lb => exact followsTable_assemble (r := ⟨0x06, true, true, true, false⟩) (by decide) rfl (by simp) (by simp) (by simp) (by simp)
  | lnot ld la => exact followsTable_assemble (r := ⟨0x07, true, true, false, false⟩) (by decide) rfl (by simp) (by simp) (by simp) (by simp)
  | lrotl ld la n => exact followsTable_assemble (r := ⟨0x08, true, true, false, true⟩) (by decide) rfl (by simp) (by simp) (by simp) (by simp)
  | land ld la lb => exact followsTable_assemble (r := ⟨0x09, true, true, true, false⟩) (by decide) rfl (by simp) (by simp) (by simp) (by simp)
  | stclr => exact followsTable_assemble (r := ⟨0x10, false, false, false, false⟩) (by decide) rfl (by simp) (by simp) (by simp) (by simp)
  | theta => exact followsTable_assemble (r := ⟨0x11, false, false, false, false⟩) (by decide) rfl (by simp) (by simp) (by simp) (by simp)
  | rho => exact followsTable_assemble (r := ⟨0x12, false, false, false, false⟩) (by decide) rfl (by simp) (by simp) (by simp) (by simp)
  | pi => exact followsTable_assemble (r := ⟨0x13, false, false, false, false⟩) (by decide) rfl (by simp) (by simp) (by simp) (by simp)
  | chi => exact followsTable_assemble (r := ⟨0x14, false, false, false, false⟩) (by decide) rfl (by simp) (by simp) (by simp) (by simp)
  | iota n => exact followsTable_assemble (r := ⟨0x15, false, false, false, true⟩) (by decide) rfl (by simp) (by simp) (by simp) (by simp)
  | round n => exact followsTable_assemble (r := ⟨0x16, false, false, false, true⟩) (by decide) rfl (by simp) (by simp) (by simp) (by simp)
  | permute => exact followsTable_assemble (r := ⟨0x17, false, false, false, false⟩) (by decide) rfl (by simp) (by simp) (by simp) (by simp)
  | sinit n => exact followsTable_assemble (r := ⟨0x20, false, false, false, true⟩) (by decide) rfl (by simp) (by simp) (by simp) (by simp)
  | sabsorb n => exact followsTable_assemble (r := ⟨0x21, false, false, false, true⟩) (by decide) rfl (by simp) (by simp) (by simp) (by simp)
  | sfinal => exact followsTable_assemble (r := ⟨0x22, false, false, false, false⟩) (by decide) rfl (by simp) (by simp) (by simp) (by simp)
  | ssqueeze n => exact followsTable_assemble (r := ⟨0x23, false, false, false, true⟩) (by decide) rfl (by simp) (by simp) (by simp) (by simp)

/-- A word that follows the table decodes (R114, R116). -/
theorem decodes_of_followsTable {w : Word} (h : followsTable w) : ∃ i, decode w = .ok i := by
  obtain ⟨hr, r, hrow, ho, hd, ha, hb, hn⟩ := h
  have hw := w.isLt
  have hrsv : fieldRsv w = 0 := by
    rw [← BitVec.toNat_inj]
    simp only [fieldRsv, BitVec.extractLsb'_toNat, Nat.shiftRight_eq_div_pow, hr]; simp
  have hdec : decode w = decodeRow (fieldOpc w) (fieldLd w) (fieldLa w) (fieldLb w) (fieldN w) := by simp [decode, hrsv]
  rw [hdec]
  have z : ∀ {m : Nat} (k : Nat), w.toNat / 2 ^ k % 2 ^ m = 0 → w.extractLsb' k m = 0 := by
    intro m k h
    rw [← BitVec.toNat_inj, BitVec.extractLsb'_toNat, Nat.shiftRight_eq_div_pow, h]; simp
  exact row_decodes hrow (by simpa [fieldOpc, BitVec.extractLsb'_toNat] using ho) (fun h => z 8 (hd h))
    (fun h => z 13 (ha h)) (fun h => z 18 (hb h)) (fun h => z 23 (hn h))

end Sys2Proof.Machine
end

