-- ==== Sys2Proof/Laws/State.lean ====
section
/-! SUPPORT. One lemma for each field of the state and each shared update of it, so that no proof unfolds an update. -/

namespace Sys2Proof.Machine

/-! ### scrub -/

@[simp] theorem scrub_params (s : State) : (scrub s).params = s.params := rfl
@[simp] theorem scrub_lanes (s : State) : (scrub s).lanes = zeroGrid s.params.D := rfl
@[simp] theorem scrub_arg (s : State) : (scrub s).arg = s.arg := rfl
@[simp] theorem scrub_result (s : State) : (scrub s).result = 0 := rfl
@[simp] theorem scrub_halt (s : State) : (scrub s).halt = s.halt := rfl
@[simp] theorem scrub_ign (s : State) : (scrub s).ign = s.ign := rfl
@[simp] theorem scrub_err (s : State) : (scrub s).err = s.err := rfl
@[simp] theorem scrub_sph (s : State) : (scrub s).sph = .empty := rfl
@[simp] theorem scrub_rawEn (s : State) : (scrub s).rawEn = s.rawEn := rfl
@[simp] theorem scrub_rngCount (s : State) : (scrub s).rngCount = s.rngCount := rfl
@[simp] theorem scrub_rate (s : State) : (scrub s).rate = 0 := rfl
@[simp] theorem scrub_ds (s : State) : (scrub s).ds = 0 := rfl
@[simp] theorem scrub_outLen (s : State) : (scrub s).outLen = 0 := rfl
@[simp] theorem scrub_apos (s : State) : (scrub s).apos = 0 := rfl
@[simp] theorem scrub_lacc (s : State) : (scrub s).lacc = 0 := rfl
@[simp] theorem scrub_spos (s : State) : (scrub s).spos = 0 := rfl
@[simp] theorem scrub_delivered (s : State) : (scrub s).delivered = 0 := rfl
@[simp] theorem scrub_rm (s : State) : (scrub s).rm = zeroMatrix s.params.D := rfl
@[simp] theorem scrub_temps (s : State) : (scrub s).temps = s.temps := rfl
@[simp] theorem scrub_running (s : State) : (scrub s).running = s.running := rfl
@[simp] theorem scrub_answers (s : State) : (scrub s).answers = s.answers := rfl
@[simp] theorem scrub_inputs (s : State) : (scrub s).inputs = s.inputs := rfl
@[simp] theorem scrub_readData (s : State) : (scrub s).readData = s.readData := rfl
@[simp] theorem scrub_freeTick (s : State) : (scrub s).freeTick = s.freeTick := rfl

/-! ### reject -/

@[simp] theorem reject_params (e : Err) (s : State) : (reject e s).params = s.params := rfl
@[simp] theorem reject_lanes (e : Err) (s : State) : (reject e s).lanes = s.lanes := rfl
@[simp] theorem reject_arg (e : Err) (s : State) : (reject e s).arg = s.arg := rfl
@[simp] theorem reject_result (e : Err) (s : State) : (reject e s).result = s.result := rfl
@[simp] theorem reject_halt (e : Err) (s : State) : (reject e s).halt = s.halt := rfl
@[simp] theorem reject_ign (e : Err) (s : State) : (reject e s).ign = false := rfl
@[simp] theorem reject_err (e : Err) (s : State) : (reject e s).err = e := rfl
@[simp] theorem reject_sph (e : Err) (s : State) : (reject e s).sph = s.sph := rfl
@[simp] theorem reject_rawEn (e : Err) (s : State) : (reject e s).rawEn = s.rawEn := rfl
@[simp] theorem reject_rngCount (e : Err) (s : State) : (reject e s).rngCount = s.rngCount := rfl
@[simp] theorem reject_rate (e : Err) (s : State) : (reject e s).rate = s.rate := rfl
@[simp] theorem reject_ds (e : Err) (s : State) : (reject e s).ds = s.ds := rfl
@[simp] theorem reject_outLen (e : Err) (s : State) : (reject e s).outLen = s.outLen := rfl
@[simp] theorem reject_apos (e : Err) (s : State) : (reject e s).apos = s.apos := rfl
@[simp] theorem reject_lacc (e : Err) (s : State) : (reject e s).lacc = s.lacc := rfl
@[simp] theorem reject_spos (e : Err) (s : State) : (reject e s).spos = s.spos := rfl
@[simp] theorem reject_delivered (e : Err) (s : State) : (reject e s).delivered = s.delivered := rfl
@[simp] theorem reject_rm (e : Err) (s : State) : (reject e s).rm = s.rm := rfl
@[simp] theorem reject_temps (e : Err) (s : State) : (reject e s).temps = s.temps := rfl
@[simp] theorem reject_running (e : Err) (s : State) : (reject e s).running = s.running := rfl
@[simp] theorem reject_answers (e : Err) (s : State) : (reject e s).answers = s.answers := rfl
@[simp] theorem reject_inputs (e : Err) (s : State) : (reject e s).inputs = s.inputs := rfl
@[simp] theorem reject_readData (e : Err) (s : State) : (reject e s).readData = s.readData := rfl
@[simp] theorem reject_freeTick (e : Err) (s : State) : (reject e s).freeTick = s.freeTick := rfl

/-! ### rngFailure -/

@[simp] theorem rngFailure_params (s : State) : (rngFailure s).params = s.params := rfl
@[simp] theorem rngFailure_lanes (s : State) : (rngFailure s).lanes = zeroGrid s.params.D := rfl
@[simp] theorem rngFailure_arg (s : State) : (rngFailure s).arg = s.arg := rfl
@[simp] theorem rngFailure_result (s : State) : (rngFailure s).result = 0 := rfl
@[simp] theorem rngFailure_halt (s : State) : (rngFailure s).halt = true := rfl
@[simp] theorem rngFailure_ign (s : State) : (rngFailure s).ign = s.ign := rfl
@[simp] theorem rngFailure_err (s : State) : (rngFailure s).err = .rng := rfl
@[simp] theorem rngFailure_sph (s : State) : (rngFailure s).sph = .empty := rfl
@[simp] theorem rngFailure_rawEn (s : State) : (rngFailure s).rawEn = s.rawEn := rfl
@[simp] theorem rngFailure_rngCount (s : State) : (rngFailure s).rngCount = s.rngCount := rfl
@[simp] theorem rngFailure_rate (s : State) : (rngFailure s).rate = 0 := rfl
@[simp] theorem rngFailure_ds (s : State) : (rngFailure s).ds = 0 := rfl
@[simp] theorem rngFailure_outLen (s : State) : (rngFailure s).outLen = 0 := rfl
@[simp] theorem rngFailure_apos (s : State) : (rngFailure s).apos = 0 := rfl
@[simp] theorem rngFailure_lacc (s : State) : (rngFailure s).lacc = 0 := rfl
@[simp] theorem rngFailure_spos (s : State) : (rngFailure s).spos = 0 := rfl
@[simp] theorem rngFailure_delivered (s : State) : (rngFailure s).delivered = 0 := rfl
@[simp] theorem rngFailure_rm (s : State) : (rngFailure s).rm = zeroMatrix s.params.D := rfl
@[simp] theorem rngFailure_temps (s : State) : (rngFailure s).temps = s.temps := rfl
@[simp] theorem rngFailure_running (s : State) : (rngFailure s).running = none := rfl
@[simp] theorem rngFailure_answers (s : State) : (rngFailure s).answers = s.answers := rfl
@[simp] theorem rngFailure_inputs (s : State) : (rngFailure s).inputs = s.inputs := rfl
@[simp] theorem rngFailure_readData (s : State) : (rngFailure s).readData = s.readData := rfl
@[simp] theorem rngFailure_freeTick (s : State) : (rngFailure s).freeTick = s.freeTick := rfl

/-! ### accept -/

@[simp] theorem accept_params (s : State) : (accept s).params = s.params := rfl
@[simp] theorem accept_lanes (s : State) : (accept s).lanes = s.lanes := rfl
@[simp] theorem accept_arg (s : State) : (accept s).arg = s.arg := rfl
@[simp] theorem accept_result (s : State) : (accept s).result = s.result := rfl
@[simp] theorem accept_halt (s : State) : (accept s).halt = s.halt := rfl
@[simp] theorem accept_ign (s : State) : (accept s).ign = false := rfl
@[simp] theorem accept_err (s : State) : (accept s).err = .ok := rfl
@[simp] theorem accept_sph (s : State) : (accept s).sph = s.sph := rfl
@[simp] theorem accept_rawEn (s : State) : (accept s).rawEn = s.rawEn := rfl
@[simp] theorem accept_rngCount (s : State) : (accept s).rngCount = s.rngCount := rfl
@[simp] theorem accept_rate (s : State) : (accept s).rate = s.rate := rfl
@[simp] theorem accept_ds (s : State) : (accept s).ds = s.ds := rfl
@[simp] theorem accept_outLen (s : State) : (accept s).outLen = s.outLen := rfl
@[simp] theorem accept_apos (s : State) : (accept s).apos = s.apos := rfl
@[simp] theorem accept_lacc (s : State) : (accept s).lacc = s.lacc := rfl
@[simp] theorem accept_spos (s : State) : (accept s).spos = s.spos := rfl
@[simp] theorem accept_delivered (s : State) : (accept s).delivered = s.delivered := rfl
@[simp] theorem accept_rm (s : State) : (accept s).rm = s.rm := rfl
@[simp] theorem accept_temps (s : State) : (accept s).temps = s.temps := rfl
@[simp] theorem accept_running (s : State) : (accept s).running = s.running := rfl
@[simp] theorem accept_answers (s : State) : (accept s).answers = s.answers := rfl
@[simp] theorem accept_inputs (s : State) : (accept s).inputs = s.inputs := rfl
@[simp] theorem accept_readData (s : State) : (accept s).readData = s.readData := rfl
@[simp] theorem accept_freeTick (s : State) : (accept s).freeTick = s.freeTick := rfl

/-! ### freshTemps -/

@[simp] theorem freshTemps_params (s : State) : (freshTemps s).params = s.params := rfl
@[simp] theorem freshTemps_lanes (s : State) : (freshTemps s).lanes = s.lanes := rfl
@[simp] theorem freshTemps_arg (s : State) : (freshTemps s).arg = s.arg := rfl
@[simp] theorem freshTemps_result (s : State) : (freshTemps s).result = s.result := rfl
@[simp] theorem freshTemps_halt (s : State) : (freshTemps s).halt = s.halt := rfl
@[simp] theorem freshTemps_ign (s : State) : (freshTemps s).ign = s.ign := rfl
@[simp] theorem freshTemps_err (s : State) : (freshTemps s).err = s.err := rfl
@[simp] theorem freshTemps_sph (s : State) : (freshTemps s).sph = s.sph := rfl
@[simp] theorem freshTemps_rawEn (s : State) : (freshTemps s).rawEn = s.rawEn := rfl
@[simp] theorem freshTemps_rngCount (s : State) : (freshTemps s).rngCount = s.rngCount := rfl
@[simp] theorem freshTemps_rate (s : State) : (freshTemps s).rate = s.rate := rfl
@[simp] theorem freshTemps_ds (s : State) : (freshTemps s).ds = s.ds := rfl
@[simp] theorem freshTemps_outLen (s : State) : (freshTemps s).outLen = s.outLen := rfl
@[simp] theorem freshTemps_apos (s : State) : (freshTemps s).apos = s.apos := rfl
@[simp] theorem freshTemps_lacc (s : State) : (freshTemps s).lacc = s.lacc := rfl
@[simp] theorem freshTemps_spos (s : State) : (freshTemps s).spos = s.spos := rfl
@[simp] theorem freshTemps_delivered (s : State) : (freshTemps s).delivered = s.delivered := rfl
@[simp] theorem freshTemps_rm (s : State) : (freshTemps s).rm = s.rm := rfl
@[simp] theorem freshTemps_temps (s : State) : (freshTemps s).temps = Config.freeTemps s.freeTick := rfl
@[simp] theorem freshTemps_running (s : State) : (freshTemps s).running = s.running := rfl
@[simp] theorem freshTemps_answers (s : State) : (freshTemps s).answers = s.answers := rfl
@[simp] theorem freshTemps_inputs (s : State) : (freshTemps s).inputs = s.inputs := rfl
@[simp] theorem freshTemps_readData (s : State) : (freshTemps s).readData = s.readData := rfl
@[simp] theorem freshTemps_freeTick (s : State) : (freshTemps s).freeTick = s.freeTick + 1 := rfl

/-! ### setLane -/

@[simp] theorem setLane_params (s : State) (L : Nat) (v : Lane) : (s.setLane L v).params = s.params := rfl
@[simp] theorem setLane_lanes (s : State) (L : Nat) (v : Lane) : (s.setLane L v).lanes = s.lanes.set L v := rfl
@[simp] theorem setLane_arg (s : State) (L : Nat) (v : Lane) : (s.setLane L v).arg = s.arg := rfl
@[simp] theorem setLane_result (s : State) (L : Nat) (v : Lane) : (s.setLane L v).result = s.result := rfl
@[simp] theorem setLane_halt (s : State) (L : Nat) (v : Lane) : (s.setLane L v).halt = s.halt := rfl
@[simp] theorem setLane_ign (s : State) (L : Nat) (v : Lane) : (s.setLane L v).ign = s.ign := rfl
@[simp] theorem setLane_err (s : State) (L : Nat) (v : Lane) : (s.setLane L v).err = s.err := rfl
@[simp] theorem setLane_sph (s : State) (L : Nat) (v : Lane) : (s.setLane L v).sph = s.sph := rfl
@[simp] theorem setLane_rawEn (s : State) (L : Nat) (v : Lane) : (s.setLane L v).rawEn = s.rawEn := rfl
@[simp] theorem setLane_rngCount (s : State) (L : Nat) (v : Lane) : (s.setLane L v).rngCount = s.rngCount := rfl
@[simp] theorem setLane_rate (s : State) (L : Nat) (v : Lane) : (s.setLane L v).rate = s.rate := rfl
@[simp] theorem setLane_ds (s : State) (L : Nat) (v : Lane) : (s.setLane L v).ds = s.ds := rfl
@[simp] theorem setLane_outLen (s : State) (L : Nat) (v : Lane) : (s.setLane L v).outLen = s.outLen := rfl
@[simp] theorem setLane_apos (s : State) (L : Nat) (v : Lane) : (s.setLane L v).apos = s.apos := rfl
@[simp] theorem setLane_lacc (s : State) (L : Nat) (v : Lane) : (s.setLane L v).lacc = s.lacc := rfl
@[simp] theorem setLane_spos (s : State) (L : Nat) (v : Lane) : (s.setLane L v).spos = s.spos := rfl
@[simp] theorem setLane_delivered (s : State) (L : Nat) (v : Lane) : (s.setLane L v).delivered = s.delivered := rfl
@[simp] theorem setLane_rm (s : State) (L : Nat) (v : Lane) : (s.setLane L v).rm = s.rm := rfl
@[simp] theorem setLane_temps (s : State) (L : Nat) (v : Lane) : (s.setLane L v).temps = s.temps := rfl
@[simp] theorem setLane_running (s : State) (L : Nat) (v : Lane) : (s.setLane L v).running = s.running := rfl
@[simp] theorem setLane_answers (s : State) (L : Nat) (v : Lane) : (s.setLane L v).answers = s.answers := rfl
@[simp] theorem setLane_inputs (s : State) (L : Nat) (v : Lane) : (s.setLane L v).inputs = s.inputs := rfl
@[simp] theorem setLane_readData (s : State) (L : Nat) (v : Lane) : (s.setLane L v).readData = s.readData := rfl
@[simp] theorem setLane_freeTick (s : State) (L : Nat) (v : Lane) : (s.setLane L v).freeTick = s.freeTick := rfl

/-! ### setGridDiscard -/

@[simp] theorem setGridDiscard_params (s : State) (g : Grid) : (s.setGridDiscard g).params = s.params := rfl
@[simp] theorem setGridDiscard_lanes (s : State) (g : Grid) : (s.setGridDiscard g).lanes = g := rfl
@[simp] theorem setGridDiscard_arg (s : State) (g : Grid) : (s.setGridDiscard g).arg = s.arg := rfl
@[simp] theorem setGridDiscard_result (s : State) (g : Grid) : (s.setGridDiscard g).result = s.result := rfl
@[simp] theorem setGridDiscard_halt (s : State) (g : Grid) : (s.setGridDiscard g).halt = s.halt := rfl
@[simp] theorem setGridDiscard_ign (s : State) (g : Grid) : (s.setGridDiscard g).ign = s.ign := rfl
@[simp] theorem setGridDiscard_err (s : State) (g : Grid) : (s.setGridDiscard g).err = s.err := rfl
@[simp] theorem setGridDiscard_sph (s : State) (g : Grid) : (s.setGridDiscard g).sph = s.sph := rfl
@[simp] theorem setGridDiscard_rawEn (s : State) (g : Grid) : (s.setGridDiscard g).rawEn = s.rawEn := rfl
@[simp] theorem setGridDiscard_rngCount (s : State) (g : Grid) : (s.setGridDiscard g).rngCount = s.rngCount := rfl
@[simp] theorem setGridDiscard_rate (s : State) (g : Grid) : (s.setGridDiscard g).rate = s.rate := rfl
@[simp] theorem setGridDiscard_ds (s : State) (g : Grid) : (s.setGridDiscard g).ds = s.ds := rfl
@[simp] theorem setGridDiscard_outLen (s : State) (g : Grid) : (s.setGridDiscard g).outLen = s.outLen := rfl
@[simp] theorem setGridDiscard_apos (s : State) (g : Grid) : (s.setGridDiscard g).apos = s.apos := rfl
@[simp] theorem setGridDiscard_lacc (s : State) (g : Grid) : (s.setGridDiscard g).lacc = s.lacc := rfl
@[simp] theorem setGridDiscard_spos (s : State) (g : Grid) : (s.setGridDiscard g).spos = s.spos := rfl
@[simp] theorem setGridDiscard_delivered (s : State) (g : Grid) : (s.setGridDiscard g).delivered = s.delivered := rfl
@[simp] theorem setGridDiscard_rm (s : State) (g : Grid) : (s.setGridDiscard g).rm = zeroMatrix s.params.D := rfl
@[simp] theorem setGridDiscard_temps (s : State) (g : Grid) : (s.setGridDiscard g).temps = s.temps := rfl
@[simp] theorem setGridDiscard_running (s : State) (g : Grid) : (s.setGridDiscard g).running = s.running := rfl
@[simp] theorem setGridDiscard_answers (s : State) (g : Grid) : (s.setGridDiscard g).answers = s.answers := rfl
@[simp] theorem setGridDiscard_inputs (s : State) (g : Grid) : (s.setGridDiscard g).inputs = s.inputs := rfl
@[simp] theorem setGridDiscard_readData (s : State) (g : Grid) : (s.setGridDiscard g).readData = s.readData := rfl
@[simp] theorem setGridDiscard_freeTick (s : State) (g : Grid) : (s.setGridDiscard g).freeTick = s.freeTick := rfl

end Sys2Proof.Machine
end

