-- ==== Sys2Proof/Laws/Transforms.lean ====
section
/-! SUPPORT. The laws of the round transforms: they keep the shape of the grid, they draw what R208 and R210 say, and on
the plaintext values they are Keccak-f[1600]. -/

namespace Sys2Proof.Machine

theorem length_laneAt {D : Nat} {g : Grid} (h : gridOk D g) {L : Nat} (hL : L < 25) :
    (laneAt g L).length = D + 1 := by
  have : L < g.length := by rw [h.1]; exact hL
  simp only [laneAt, List.getD_eq_getElem?_getD, List.getElem?_eq_getElem this, Option.getD_some]
  exact h.2 _ (List.getElem_mem this)

theorem flat_lt (x y : Nat) : x % 5 + 5 * (y % 5) < 25 := by omega

theorem length_laneXY {D : Nat} {g : Grid} (h : gridOk D g) (x y : Nat) : (laneXY g x y).length = D + 1 :=
  length_laneAt h (flat_lt x y)

theorem getD_gridValues (g : Grid) (L : Nat) : (gridValues g).getD L 0 = gUnmask (laneAt g L) := by
  simp only [gridValues, laneAt, List.getD_eq_getElem?_getD, List.getElem?_map]
  cases g[L]? <;> rfl

theorem plainAt_gridValues (g : Grid) (x y : Nat) : plainAt (gridValues g) x y = gUnmask (laneXY g x y) :=
  getD_gridValues g _

theorem laneXY_mod_div (g : Grid) {L : Nat} (hL : L < 25) : laneXY g (L % 5) (L / 5) = laneAt g L := by
  rw [laneXY]; congr 1; omega

theorem gridOk_map {D : Nat} {f : Nat → Lane} (h : ∀ L < 25, (f L).length = D + 1) :
    gridOk D (laneIndices.map f) := by
  refine ⟨by simp [laneIndices], fun a ha => ?_⟩
  obtain ⟨L, hL, rfl⟩ := List.mem_map.mp ha
  exact h L (by simpa [laneIndices] using hL)

theorem gridValues_map (f : Nat → Lane) : gridValues (laneIndices.map f) = laneIndices.map fun L => gUnmask (f L) := by
  simp [gridValues, Function.comp_def]

theorem map_laneIndices_congr {α : Type} {f g : Nat → α} (h : ∀ L < 25, f L = g L) :
    laneIndices.map f = laneIndices.map g :=
  List.map_congr_left fun L hL => h L (by simpa [laneIndices] using hL)

theorem laneAt_map (f : Nat → Lane) {L : Nat} (hL : L < 25) : laneAt (laneIndices.map f) L = f L := by
  simp [laneAt, laneIndices, List.getD_eq_getElem?_getD, hL]

/-- A grid of 25 lanes is the list of its lanes. -/
theorem grid_eq_map {D : Nat} {g : Grid} (h : gridOk D g) : g = laneIndices.map (laneAt g) := by
  apply List.ext_getElem
  · simp [laneIndices, h.1]
  · intro i h1 h2; simp [laneIndices, laneAt, h1]

theorem gridOk_set {D : Nat} {g : Grid} (h : gridOk D g) (L : Nat) {a : Lane} (ha : a.length = D + 1) :
    gridOk D (g.set L a) :=
  ⟨by simp [h.1], fun b hb => (List.mem_or_eq_of_mem_set hb).elim (h.2 b) (fun e => e ▸ ha)⟩

theorem gridOk_zeroGrid (D : Nat) : gridOk D (zeroGrid D) :=
  ⟨by simp [zeroGrid], fun a ha => by rw [(List.mem_replicate.mp ha).2]; simp⟩

theorem gridValues_set (g : Grid) (L : Nat) (a : Lane) : gridValues (g.set L a) = (gridValues g).set L (gUnmask a) := by
  simp [gridValues, List.map_set]

theorem gridValues_zeroGrid (D : Nat) : gridValues (zeroGrid D) = List.replicate 25 0 := by
  simp [gridValues, zeroGrid, gUnmask_zeroLane]

/-! ### theta -/

theorem length_columnParity {D : Nat} {g : Grid} (h : gridOk D g) (x : Nat) : (columnParity g x).length = D + 1 := by
  simp [columnParity, length_laneXY h]

theorem gUnmask_columnParity {D : Nat} {g : Grid} (h : gridOk D g) (x : Nat) :
    gUnmask (columnParity g x) = plainParity (gridValues g) x := by
  simp only [columnParity, plainParity, plainAt_gridValues]
  have hl := fun x y => length_laneXY h x y
  rw [gUnmask_gXor _ _ (by simp [hl]), gUnmask_gXor _ _ (by simp [hl]), gUnmask_gXor _ _ (by simp [hl]),
    gUnmask_gXor _ _ (by simp [hl])]

theorem columnParity_mod (g : Grid) (x : Nat) : columnParity g (x % 5) = columnParity g x := by
  simp [columnParity, laneXY]

/-- Lane `L` after theta: the lane, the parity of the column before and the rotated parity of the column after (R203). -/
theorem theta_eq (g : Grid) : theta g = laneIndices.map fun L =>
    gXor (laneAt g L) (gXor (columnParity g (L % 5 + 4)) (gRotl (columnParity g (L % 5 + 1)) 1)) := by
  have h5 : ∀ (f : Nat → Lane) (x : Nat), x < 5 → laneAt ((List.range 5).map f) x = f x := by
    intro f x hx; simp [laneAt, List.getD_eq_getElem?_getD, hx]
  unfold theta
  refine map_laneIndices_congr fun L _ => ?_
  rw [h5 _ _ (by omega), h5 _ _ (by omega), h5 _ _ (by omega), columnParity_mod, columnParity_mod]

theorem gridOk_theta {D : Nat} {g : Grid} (h : gridOk D g) : gridOk D (theta g) := by
  rw [theta_eq]
  exact gridOk_map fun L hL => by simp [length_laneAt h hL, length_columnParity h]

theorem values_theta {D : Nat} {g : Grid} (h : gridOk D g) : gridValues (theta g) = plainTheta (gridValues g) := by
  rw [theta_eq, gridValues_map, plainTheta]
  refine map_laneIndices_congr fun L hL => ?_
  rw [gUnmask_gXor _ _ (by simp [length_laneAt h hL, length_columnParity h]),
    gUnmask_gXor _ _ (by simp [length_columnParity h]), gUnmask_gRotl, gUnmask_columnParity h,
    gUnmask_columnParity h, plainAt_gridValues, laneXY_mod_div g hL]

/-! ### rho -/

theorem gridOk_rho {D : Nat} {g : Grid} (h : gridOk D g) : gridOk D (rho g) :=
  gridOk_map fun L hL => by simp [length_laneAt h hL]

theorem values_rho (g : Grid) : gridValues (rho g) = plainRho (gridValues g) := by
  rw [rho, gridValues_map, plainRho]
  exact map_laneIndices_congr fun L hL => by rw [gUnmask_gRotl, plainAt_gridValues, laneXY_mod_div g hL]

/-! ### pi -/

/-- The mapping of R205 is its flat-index table. -/
theorem pi_eq {D : Nat} {g : Grid} (h : gridOk D g) : pi g = piSource.map (laneAt g) := by
  have key : ∀ f : Nat → Lane, pi (laneIndices.map f) = piSource.map f := fun f => by
    have hi : laneIndices = [0, 1, 2, 3, 4, 5, 6, 7, 8, 9, 10, 11, 12, 13, 14, 15, 16, 17, 18, 19, 20, 21, 22, 23, 24] :=
      by decide
    simp [pi, hi, piSource, laneXY, laneAt]
  calc pi g = pi (laneIndices.map (laneAt g)) := by rw [← grid_eq_map h]
    _ = _ := key _

theorem piSource_lt {L : Nat} (h : L ∈ piSource) : L < 25 := by
  have : ∀ L ∈ piSource, L < 25 := by decide
  exact this L h

theorem gridOk_pi {D : Nat} {g : Grid} (h : gridOk D g) : gridOk D (pi g) := by
  rw [pi_eq h]
  refine ⟨by simp [piSource], fun a ha => ?_⟩
  obtain ⟨L, hL, rfl⟩ := List.mem_map.mp ha
  exact length_laneAt h (piSource_lt hL)

theorem values_pi {D : Nat} {g : Grid} (h : gridOk D g) : gridValues (pi g) = plainPi (gridValues g) := by
  rw [pi_eq h, gridValues, List.map_map, plainPi]
  exact List.map_congr_left fun L _ => (getD_gridValues g L).symm

/-! ### chi and iota -/

theorem draws_chiLane {D : Nat} {g : Grid} (h : gridOk D g) (L : Nat) :
    Draws (chiLane D g L) (andDraws D) fun c => c.length = D + 1 ∧
      gUnmask c = plainAt (gridValues g) (L % 5) (L / 5) ^^^
        (~~~(plainAt (gridValues g) (L % 5 + 1) (L / 5)) &&& plainAt (gridValues g) (L % 5 + 2) (L / 5)) := by
  have hl := fun x y => length_laneXY h x y
  refine draws_map (draws_gAnd D _ _ (by simp [hl]) (hl _ _)) fun c hc => ⟨by simp [hc.1, hl], ?_⟩
  rw [gUnmask_gXor _ _ (by simp [hc.1, hl]), hc.2, gUnmask_gNot D _ (hl _ _)]
  simp only [plainAt_gridValues]

theorem forall₂_map_eq {ι α β : Type} {f : α → β} {g : ι → β} {P : α → Prop} :
    ∀ {xs : List ι} {as : List α}, List.Forall₂ (fun x a => P a ∧ f a = g x) xs as →
      as.map f = xs.map g ∧ (∀ a ∈ as, P a) ∧ as.length = xs.length
  | _, _, .nil => by simp
  | _, _, .cons h hs => by
    obtain ⟨h1, h2, h3⟩ := forall₂_map_eq hs
    simp [h.2, h1, h3, h.1]; exact h2

/-- `chi` draws 25 times what one AND gadget draws, and on the values is plain chi (R206). -/
theorem draws_chi {D : Nat} {g : Grid} (h : gridOk D g) :
    Draws (chi D g) (25 * andDraws D) fun g' => gridOk D g' ∧ gridValues g' = plainChi (gridValues g) := by
  have := draws_each (m := andDraws D) laneIndices fun L _ => draws_chiLane h L
  refine draws_congr (draws_weaken this fun g' hg => ?_) (by simp [laneIndices, Nat.mul_comm])
  obtain ⟨h1, h2, h3⟩ := forall₂_map_eq hg
  exact ⟨⟨by simpa [laneIndices] using h3, h2⟩, h1⟩

theorem gridOk_iota {D : Nat} {g : Grid} (h : gridOk D g) (i : Nat) : gridOk D (iota i g) :=
  gridOk_set h 0 (by simp [length_laneAt h])

theorem values_iota {D : Nat} {g : Grid} (h : gridOk D g) (i : Nat) :
    gridValues (iota i g) = plainIota i (gridValues g) := by
  rw [iota, gridValues_set, plainIota, plainAt_gridValues,
    gUnmask_xorShare0 _ _ (by rw [length_laneAt h (by omega)]; omega)]
  rfl

/-! ### round and permute -/

/-- One round draws `25*D(D+1)/2` words and is one plain round on the values (R208). -/
theorem draws_round {D : Nat} {g : Grid} (h : gridOk D g) (i : Nat) :
    Draws (round D i g) (25 * andDraws D) fun g' => gridOk D g' ∧ gridValues g' = plainRound i (gridValues g) := by
  have h1 := gridOk_theta h
  have h2 := gridOk_rho h1
  have h3 := gridOk_pi h2
  refine draws_map (draws_chi h3) fun g' hg => ⟨gridOk_iota hg.1 i, ?_⟩
  rw [values_iota hg.1, hg.2, values_pi h2, values_rho, values_theta h, plainRound]

theorem andDraws_two (D : Nat) : 2 * andDraws D = D * (D + 1) := by
  have : 2 ∣ D * (D + 1) := (Nat.even_mul_succ_self D).two_dvd
  unfold andDraws; omega

theorem permuteDraws_eq (D : Nat) : 25 * andDraws D * 24 = permuteDraws D := by
  have := andDraws_two D
  unfold permuteDraws; nlinarith

/-- The permutation draws `300*D*(D+1)` words and is Keccak-f[1600] on the values, whatever the words (R210). -/
theorem draws_permute {D : Nat} {g : Grid} (h : gridOk D g) :
    Draws (permute D g) (permuteDraws D) fun g' => gridOk D g' ∧ gridValues g' = keccakF (gridValues g) := by
  let I : Nat → Grid → Prop := fun n g' => gridOk D g' ∧
    gridValues g' = (List.range n).foldl (fun g i => plainRound i g) (gridValues g)
  have := draws_fold (f := fun g i => round D i g) (m := 25 * andDraws D) (I := I) (List.range 24) 0 g
    ⟨h, rfl⟩ fun j a hj ha => by
      have hj : j < 24 := by simpa using hj
      refine draws_weaken (draws_round ha.1 _) fun b hb => ⟨hb.1, ?_⟩
      rw [hb.2, ha.2, List.getElem_range, Nat.zero_add, List.range_succ, List.foldl_concat]
  exact draws_congr (draws_weaken this fun g' hg => ⟨hg.1, by simpa [keccakF] using hg.2⟩) (by
    simp [permuteDraws_eq])

end Sys2Proof.Machine
end

