-- ==== Sys2Proof/Laws/Command.lean ====
section
/-! SUPPORT. The life of a command, said once: `exec` is `command` of the command's body, and a body that draws `n` words
completes, fails or waits by what the source has ready. -/

namespace Sys2Proof.Machine

/-- The pseudocode of each command. -/
def bodyOf : Instr → State → Draw State
  | .lmask ld => bodyLmask ld
  | .lmxor ld => bodyLmxor ld
  | .lxorc ld => bodyLxorc ld
  | .lunmask la => bodyLunmask la
  | .lmov ld la => bodyLmov ld la
  | .lxor ld la lb => bodyLxor ld la lb
  | .lnot ld la => bodyLnot ld la
  | .lrotl ld la n => bodyLrotl ld la n
  | .land ld la lb => bodyLand ld la lb
  | .stclr => bodyStclr
  | .theta => bodyTheta
  | .rho => bodyRho
  | .pi => bodyPi
  | .chi => bodyChi
  | .iota n => bodyIota n
  | .round n => bodyRound n
  | .permute => bodyPermute
  | .sinit n => bodySinit n
  | .sabsorb n => bodySabsorb n
  | .sfinal => bodySfinal
  | .ssqueeze n => bodySsqueeze n

/-- Every meaning is the shared life of a command, with its own body. -/
theorem exec_eq_command (i : Instr) (s : State) : exec i s = command i (bodyOf i) s := by
  cases i <;> rfl

theorem exec_of_rejected {i : Instr} {s : State} {e : Err} (h : check i s = some e) :
    exec i s = .next (reject e s) := by
  rw [exec_eq_command, command, h]

theorem exec_of_accepted {i : Instr} {s : State} (h : check i s = none) :
    exec i s = .next (finish i (accept s) (bodyOf i (accept s) s.port)) := by
  rw [exec_eq_command, command, h]

/-- A command always answers a next state (R300: the block has no fourth outcome). -/
theorem exec_next (i : Instr) (s : State) : ∃ t, exec i s = .next t := by
  rw [exec_eq_command, command]; split <;> exact ⟨_, rfl⟩

/-- Enough words: the command completes, and the words are counted. -/
theorem exec_done {i : Instr} {s : State} {n : Nat} {Q : State → Prop} {ws : List Word} {rest : List Answer}
    (hc : check i s = none) (hb : Draws (bodyOf i (accept s)) n Q) (hs : s.answers = ws.map .word ++ rest)
    (hl : ws.length = n) :
    ∃ u, Q u ∧ exec i s
      = .next (freshTemps { u with rngCount := s.rngCount + BitVec.ofNat 64 n, answers := rest }) := by
  obtain ⟨f, hf, hQ⟩ := hb
  refine ⟨f ws, hQ ws hl, ?_⟩
  rw [exec_of_accepted hc, State.port, hs, hf.done ws rest _ hl]; rfl

/-- Enough words, and what the body makes of them. -/
theorem exec_takes {i : Instr} {s : State} {n : Nat} {f : List Word → State} {ws : List Word} {rest : List Answer}
    (hc : check i s = none) (hb : Takes (bodyOf i (accept s)) n f) (hs : s.answers = ws.map .word ++ rest)
    (hl : ws.length = n) : exec i s
      = .next (freshTemps { f ws with rngCount := s.rngCount + BitVec.ofNat 64 n, answers := rest }) := by
  rw [exec_of_accepted hc, State.port, hs, hb.done ws rest _ hl]; rfl

/-- A Failure among the words: R310. -/
theorem exec_failed {i : Instr} {s : State} {n : Nat} {Q : State → Prop} {ws : List Word} {rest : List Answer}
    (hc : check i s = none) (hb : Draws (bodyOf i (accept s)) n Q)
    (hs : s.answers = ws.map .word ++ .failure :: rest) (hl : ws.length < n) :
    exec i s = .next (freshTemps (rngFailure
      { accept s with rngCount := s.rngCount + BitVec.ofNat 64 ws.length, answers := rest })) := by
  obtain ⟨f, hf, -⟩ := hb
  rw [exec_of_accepted hc, State.port, hs, hf.failed ws rest _ hl]; rfl

/-- Too few words: the command stays BUSY. -/
theorem exec_waiting {i : Instr} {s : State} {n : Nat} {Q : State → Prop} {ws : List Word}
    (hc : check i s = none) (hb : Draws (bodyOf i (accept s)) n Q) (hs : s.answers = ws.map .word)
    (hl : ws.length < n) :
    exec i s = .next { accept s with
      rngCount := s.rngCount + BitVec.ofNat 64 ws.length, answers := [],
      running := some ⟨i, s.rngCount, ws, 0⟩ } := by
  obtain ⟨f, hf, -⟩ := hb
  rw [exec_of_accepted hc, State.port, hs, hf.waiting ws _ hl]
  simp [finish, hs, wordsOf_map_word]

/-- No draw: the command completes at once. -/
theorem exec_pure {i : Instr} {s u : State} (hc : check i s = none) (hb : bodyOf i (accept s) = Draw.pure u) :
    exec i s = .next (freshTemps { u with rngCount := s.rngCount, answers := s.answers }) := by
  rw [exec_of_accepted hc, hb]; rfl

/-! ### The checks -/

theorem check_raw {i : Instr} {s : State} (hr : isRaw i = true) (h : rawReady s) (ho : i.wellFormed = true) :
    check i s = none := by
  obtain ⟨h1, h2⟩ := h
  have hp : phaseAllows i s.sph = true := by
    cases i <;> simp [isRaw] at hr <;> rcases h2 with h2 | h2 <;> simp [phaseAllows, phaseFree, h2]
  have hcfg : configInvalid i s = false := by cases i <;> simp [isRaw] at hr <;> rfl
  have hop : operandsOk i s = true := by cases i <;> simp [isRaw] at hr <;> exact ho
  simp [check, h1, hp, hcfg, hop]

/-- An accepted command is allowed by the phase and has its operands in range. -/
theorem check_none {i : Instr} {s : State} (h : check i s = none) :
    (isRaw i = true → s.rawEn = true) ∧ phaseAllows i s.sph = true ∧ configInvalid i s = false ∧
      operandsOk i s = true := by
  unfold check at h
  split at h
  · simp at h
  · split at h
    · simp at h
    · split at h
      · simp at h
      · split at h
        · simp at h
        · simp_all

/-- The checks read only ARG, RAW_EN, the phase and two hidden registers (R307). -/
theorem check_congr {i : Instr} {s t : State} (h1 : t.rawEn = s.rawEn) (h2 : t.sph = s.sph) (h3 : t.arg = s.arg)
    (h4 : t.outLen = s.outLen) (h5 : t.delivered = s.delivered) : check i t = check i s := by
  unfold check
  have hc : configInvalid i t = configInvalid i s := by cases i <;> simp [configInvalid, h3]
  have ho : operandsOk i t = operandsOk i s := by cases i <;> simp [operandsOk, h4, h5]
  rw [h1, h2, hc, ho]

/-! ### The bodies of the raw commands -/

theorem gridOk_lane {s : State} (h : gridOk s.params.D s.lanes) {l : BitVec 5} (hl : validLane l) :
    (s.lane l).length = s.params.D + 1 := length_laneAt h hl

theorem draws_bodyLmask (ld : BitVec 5) (s : State) :
    Draws (bodyLmask ld s) s.params.D fun t => ∃ m : Lane, m.length = s.params.D + 1 ∧ gUnmask m = s.arg ∧
      t = s.setLane ld.toNat m :=
  draws_map (draws_gMask _ _) fun m hm => ⟨m, hm.1, hm.2, rfl⟩

theorem draws_bodyLmxor (ld : BitVec 5) (s : State) :
    Draws (bodyLmxor ld s) s.params.D fun t => ∃ m : Lane, m.length = s.params.D + 1 ∧ gUnmask m = s.arg ∧
      t = s.setLane ld.toNat (gXor (s.lane ld) m) :=
  draws_map (draws_gMask _ _) fun m hm => ⟨m, hm.1, hm.2, rfl⟩

theorem draws_bodyLand {s : State} {ld la lb : BitVec 5} (ha : (s.lane la).length = s.params.D + 1)
    (hb : (s.lane lb).length = s.params.D + 1) :
    Draws (bodyLand ld la lb s) (andDraws s.params.D) fun t => ∃ c : Lane, c.length = s.params.D + 1 ∧
      gUnmask c = gUnmask (s.lane la) &&& gUnmask (s.lane lb) ∧ t = s.setGridDiscard (s.lanes.set ld.toNat c) :=
  draws_map (draws_gAnd _ _ _ ha hb) fun c hc => ⟨c, hc.1, hc.2, rfl⟩

theorem draws_bodyChi {s : State} (h : gridOk s.params.D s.lanes) :
    Draws (bodyChi s) (25 * andDraws s.params.D) fun t => ∃ g, gridOk s.params.D g ∧
      gridValues g = plainChi s.values ∧ t = s.setGridDiscard g :=
  draws_map (draws_chi h) fun g hg => ⟨g, hg.1, hg.2, rfl⟩

theorem draws_bodyRound {s : State} (h : gridOk s.params.D s.lanes) (n : BitVec 6) :
    Draws (bodyRound n s) (25 * andDraws s.params.D) fun t => ∃ g, gridOk s.params.D g ∧
      gridValues g = plainRound n.toNat s.values ∧ t = s.setGridDiscard g :=
  draws_map (draws_round h _) fun g hg => ⟨g, hg.1, hg.2, rfl⟩

/-- `permute()` on the state: the draws of R210, and Keccak-f[1600] on the values. -/
theorem draws_permuteState {s : State} (h : gridOk s.params.D s.lanes) :
    Draws (permuteState s) (permuteDraws s.params.D) fun t => ∃ g, gridOk s.params.D g ∧
      gridValues g = keccakF s.values ∧ t = s.setGridDiscard g :=
  draws_map (draws_permute h) fun g hg => ⟨g, hg.1, hg.2, rfl⟩

theorem draws_bodyPermute {s : State} (h : gridOk s.params.D s.lanes) :
    Draws (bodyPermute s) (permuteDraws s.params.D) fun t => ∃ g, gridOk s.params.D g ∧
      gridValues g = keccakF s.values ∧ t = s.setGridDiscard g :=
  draws_permuteState h

end Sys2Proof.Machine
end

