-- ==== Sys2Proof/Laws/Frame.lean ====
section
/-! SUPPORT. What no body of a command reads or writes, said once for all 21: the status fields, CTRL, the counter, the
source's answers, the inputs, and the model's own fields. And what every body keeps: the parameters and ARG. -/

namespace Sys2Proof.Machine

/-! ### Computations that draw words, as functions -/

theorem map_eq_bind {α β : Type} (f : α → β) (x : Draw α) : Draw.map f x = Draw.bind x fun a => Draw.pure (f a) := rfl

theorem map_pure {α β : Type} (f : α → β) (a : α) : Draw.map f (Draw.pure a) = Draw.pure (f a) := rfl

theorem pure_bind {α β : Type} (a : α) (k : α → Draw β) : Draw.bind (Draw.pure a) k = k a := rfl

theorem bind_assoc {α β γ : Type} (x : Draw α) (k : α → Draw β) (l : β → Draw γ) :
    Draw.bind (Draw.bind x k) l = Draw.bind x fun a => Draw.bind (k a) l := by
  funext p; simp only [Draw.bind]; cases x p <;> rfl

theorem map_map {α β γ : Type} (f : α → β) (g : β → γ) (x : Draw α) :
    Draw.map g (Draw.map f x) = Draw.map (fun a => g (f a)) x := bind_assoc _ _ _

theorem map_bind {α β γ : Type} (x : Draw α) (k : α → Draw β) (g : β → γ) :
    Draw.map g (Draw.bind x k) = Draw.bind x fun a => Draw.map g (k a) := bind_assoc _ _ _

theorem bind_map {α β γ : Type} (f : α → β) (x : Draw α) (k : β → Draw γ) :
    Draw.bind (Draw.map f x) k = Draw.bind x fun a => k (f a) := bind_assoc _ _ _

theorem map_id {α : Type} (x : Draw α) : Draw.map (fun a => a) x = x := by
  funext p; simp only [Draw.map, Draw.bind]; cases x p <;> rfl

/-- A loop whose passes commute with `g` commutes with `g`. -/
theorem fold_comm {ι σ : Type} {f : σ → ι → Draw σ} {g : σ → σ} (h : ∀ a x, f (g a) x = Draw.map g (f a x)) :
    ∀ (xs : List ι) (a : σ), Draw.fold f xs (g a) = Draw.map g (Draw.fold f xs a)
  | [], _ => rfl
  | x :: xs, a => by
    show Draw.bind (f (g a) x) _ = Draw.map g (Draw.bind (f a x) _)
    rw [h, bind_map, map_bind]
    congr 1
    funext b
    exact fold_comm h xs b

/-! ### The fields no body reads -/

/-- The fields no body reads or writes. -/
structure Meta where
  halt : Bool
  ign : Bool
  err : Err
  rawEn : Bool
  rngCount : Word
  temps : Temps
  running : Option Running
  answers : List Answer
  inputs : List Input
  readData : Word
  freeTick : Nat

/-- A state with those fields set. -/
def State.withMeta (m : Meta) (s : State) : State :=
  { s with
    halt := m.halt, ign := m.ign, err := m.err, rawEn := m.rawEn, rngCount := m.rngCount, temps := m.temps,
    running := m.running, answers := m.answers, inputs := m.inputs, readData := m.readData, freeTick := m.freeTick }

/-- Those fields of a state. -/
def State.meta (s : State) : Meta :=
  ⟨s.halt, s.ign, s.err, s.rawEn, s.rngCount, s.temps, s.running, s.answers, s.inputs, s.readData, s.freeTick⟩

theorem withMeta_meta (s : State) : s.withMeta s.meta = s := rfl

theorem map_withMeta {α : Type} (m : Meta) (f : State → α → State) (x : Draw α) (s : State)
    (h : ∀ a, f (s.withMeta m) a = (f s a).withMeta m) :
    Draw.map (f (s.withMeta m)) x = Draw.map (State.withMeta m) (Draw.map (f s) x) := by
  rw [map_map]; congr 1; funext a; exact h a

theorem lanes_withMeta (m : Meta) (s : State) (g : Grid) :
    Draw.pure { s.withMeta m with lanes := g } = Draw.map (State.withMeta m) (Draw.pure { s with lanes := g }) := rfl

theorem absorbLane_withMeta (m : Meta) (L : Nat) (w : Word) (s : State) :
    absorbLane L w (s.withMeta m) = Draw.map (State.withMeta m) (absorbLane L w s) :=
  map_withMeta m (fun s m => s.setLane L (gXor (laneAt s.lanes L) m)) (gMask s.params.D w) s fun _ => rfl

theorem permuteState_withMeta (m : Meta) (s : State) :
    permuteState (s.withMeta m) = Draw.map (State.withMeta m) (permuteState s) :=
  map_withMeta m State.setGridDiscard (permute s.params.D s.lanes) s fun _ => rfl

theorem absorbByte_withMeta (m : Meta) (s : State) (b : Byte) :
    absorbByte (s.withMeta m) b = Draw.map (State.withMeta m) (absorbByte s b) := by
  have h1 : ∀ t : State, absorbBlockEnd (t.withMeta m) = Draw.map (State.withMeta m) (absorbBlockEnd t) := by
    intro t
    unfold absorbBlockEnd
    by_cases h : t.apos = t.rate
    · rw [if_pos h, if_pos (show (t.withMeta m).apos = (t.withMeta m).rate from h), permuteState_withMeta, map_map, map_map]
      rfl
    · rw [if_neg h, if_neg (show ¬ (t.withMeta m).apos = (t.withMeta m).rate from h)]; rfl
  have h2 : ∀ t : State, absorbLaneEnd (t.withMeta m) = Draw.map (State.withMeta m) (absorbLaneEnd t) := by
    intro t
    unfold absorbLaneEnd
    by_cases h : t.apos.toNat % 8 = 0
    · rw [if_pos h, if_pos (show (t.withMeta m).apos.toNat % 8 = 0 from h),
        show absorbLane ((t.withMeta m).apos.toNat / 8 - 1) (t.withMeta m).lacc (t.withMeta m)
          = Draw.map (State.withMeta m) (absorbLane (t.apos.toNat / 8 - 1) t.lacc t) from absorbLane_withMeta m _ _ t,
        bind_map, map_bind]
      congr 1
      funext u
      exact h1 { u with lacc := 0 }
    · rw [if_neg h, if_neg (show ¬ (t.withMeta m).apos.toNat % 8 = 0 from h)]; rfl
  exact h2 { s with lacc := s.lacc ||| byteAt b (s.apos.toNat % 8), apos := s.apos + 1 }

theorem squeezeByte_withMeta (m : Meta) (s : State × Word) (k : Nat) :
    squeezeByte (s.1.withMeta m, s.2) k = Draw.map (fun sr => (sr.1.withMeta m, sr.2)) (squeezeByte s k) := by
  have h : openWindow (s.1.withMeta m) = Draw.map (State.withMeta m) (openWindow s.1) := by
    unfold openWindow
    by_cases h : s.1.spos = s.1.rate
    · rw [if_pos h, if_pos (show (s.1.withMeta m).spos = (s.1.withMeta m).rate from h), permuteState_withMeta, map_map,
        map_map]
      rfl
    · rw [if_neg h, if_neg (show ¬ (s.1.withMeta m).spos = (s.1.withMeta m).rate from h)]; rfl
  unfold squeezeByte
  rw [h, map_map, map_map]
  rfl

/-- No body reads or writes the fields of `Meta`. -/
theorem bodyOf_withMeta (i : Instr) (m : Meta) (s : State) :
    bodyOf i (s.withMeta m) = Draw.map (State.withMeta m) (bodyOf i s) := by
  cases i with
  | lmask ld => exact map_withMeta m (fun s a => s.setLane ld.toNat a) (gMask s.params.D s.arg) s fun _ => rfl
  | lmxor ld =>
    exact map_withMeta m (fun s a => s.setLane ld.toNat (gXor (s.lane ld) a)) (gMask s.params.D s.arg) s fun _ => rfl
  | lxorc ld => rfl
  | lunmask la => rfl
  | lmov ld la => rfl
  | lxor ld la lb => rfl
  | lnot ld la => rfl
  | lrotl ld la n => rfl
  | land ld la lb =>
    exact map_withMeta m (fun s c => s.setGridDiscard (s.lanes.set ld.toNat c))
      (gAnd s.params.D (s.lane la) (s.lane lb)) s fun _ => rfl
  | stclr => rfl
  | theta => exact lanes_withMeta m s (theta s.lanes)
  | rho => exact lanes_withMeta m s (rho s.lanes)
  | pi => exact lanes_withMeta m s (pi s.lanes)
  | chi => exact map_withMeta m State.setGridDiscard (chi s.params.D s.lanes) s fun _ => rfl
  | iota n => exact lanes_withMeta m s (iota n.toNat s.lanes)
  | round n => exact map_withMeta m State.setGridDiscard (round s.params.D n.toNat s.lanes) s fun _ => rfl
  | permute => exact map_withMeta m State.setGridDiscard (permute s.params.D s.lanes) s fun _ => rfl
  | sinit n =>
    show bodySinit n (s.withMeta m) = Draw.map (State.withMeta m) (bodySinit n s)
    unfold bodySinit
    show (match spongeVariant n s.arg with
      | some sp => Draw.pure (startSponge sp (s.withMeta m))
      | none => Draw.pure (s.withMeta m)) = _
    cases spongeVariant n s.arg <;> rfl
  | sabsorb n => exact fold_comm (fun t b => absorbByte_withMeta m t b) (bytesOf s.arg n.toNat) s
  | sfinal =>
    show bodySfinal (s.withMeta m) = Draw.map (State.withMeta m) (bodySfinal s)
    unfold bodySfinal
    have h := fold_comm (f := fun t L => absorbLane L (padLane s L) t) (g := State.withMeta m)
      (fun t L => absorbLane_withMeta m L (padLane s L) t) (padLanes s) { s with sph := .padded }
    rw [show Draw.fold (fun t L => absorbLane L (padLane (s.withMeta m) L) t) (padLanes (s.withMeta m))
        { s.withMeta m with sph := .padded }
      = Draw.map (State.withMeta m) (Draw.fold (fun t L => absorbLane L (padLane s L) t) (padLanes s)
          { s with sph := .padded }) from h, bind_map, map_bind]
    congr 1
    funext u
    rw [show permuteState { u.withMeta m with lacc := 0, apos := 0 }
      = Draw.map (State.withMeta m) (permuteState { u with lacc := 0, apos := 0 }) from
        permuteState_withMeta m { u with lacc := 0, apos := 0 }, map_map, map_map]
    rfl
  | ssqueeze n =>
    show bodySsqueeze n (s.withMeta m) = Draw.map (State.withMeta m) (bodySsqueeze n s)
    unfold bodySsqueeze
    rw [show Draw.fold squeezeByte (List.range n.toNat) (s.withMeta m, 0)
      = Draw.map (fun sr => (sr.1.withMeta m, sr.2)) (Draw.fold squeezeByte (List.range n.toNat) (s, 0)) from
        fold_comm (g := fun sr : State × Word => (sr.1.withMeta m, sr.2)) (fun t k => squeezeByte_withMeta m t k)
          (List.range n.toNat) (s, 0), map_map, map_map]
    rfl

/-! ### What every value of a computation satisfies, whatever the source answers -/

/-- Every value `x` makes satisfies `P`. -/
def Always {α : Type} (P : α → Prop) (x : Draw α) : Prop := ∀ p a q, x p = .done a q → P a

theorem always_pure {α : Type} {P : α → Prop} {a : α} (h : P a) : Always P (Draw.pure a) := by
  intro p b q e; cases e; exact h

theorem always_bind {α β : Type} {P : α → Prop} {Q : β → Prop} {x : Draw α} {k : α → Draw β} (hx : Always P x)
    (hk : ∀ a, P a → Always Q (k a)) : Always Q (Draw.bind x k) := by
  intro p b q e
  simp only [Draw.bind] at e
  cases h : x p with
  | done a r => rw [h] at e; exact hk a (hx p a r h) r b q e
  | failed r => rw [h] at e; cases e
  | waiting r => rw [h] at e; cases e

theorem always_true {α : Type} (x : Draw α) : Always (fun _ => True) x := fun _ _ _ _ => trivial

theorem always_map {α β : Type} {Q : β → Prop} {x : Draw α} {f : α → β} (h : ∀ a, Q (f a)) : Always Q (Draw.map f x) :=
  always_bind (always_true x) fun a _ => always_pure (h a)

theorem always_fold {ι σ : Type} {f : σ → ι → Draw σ} {P : σ → Prop} (h : ∀ a x, P a → Always P (f a x)) :
    ∀ (xs : List ι) (a : σ), P a → Always P (Draw.fold f xs a)
  | [], _, ha => always_pure ha
  | x :: xs, a, ha => always_bind (h a x ha) fun b hb => always_fold h xs b hb

/-- What a body that ran did not touch: the fields of `Meta`, as they were. -/
theorem always_meta (i : Instr) (s : State) : Always (fun t => t.meta = s.meta) (bodyOf i s) := by
  intro p t q e
  have h := bodyOf_withMeta i s.meta s
  rw [withMeta_meta] at h
  rw [h] at e
  simp only [Draw.map, Draw.bind] at e
  cases hx : bodyOf i s p with
  | done u r => rw [hx] at e; cases e; rfl
  | failed r => rw [hx] at e; cases e
  | waiting r => rw [hx] at e; cases e

/-- The parameters and ARG are as they were. -/
def keepsArg (s t : State) : Prop := t.params = s.params ∧ t.arg = s.arg

theorem always_permuteState {P : State → Prop} {s : State} (h : ∀ g, P (s.setGridDiscard g)) :
    Always P (permuteState s) :=
  always_map (x := permute s.params.D s.lanes) (f := s.setGridDiscard) h

/-- No body writes the parameters or ARG (R38, R314). -/
theorem always_keepsArg (i : Instr) (s : State) : Always (keepsArg s) (bodyOf i s) := by
  have hp : ∀ u : State, keepsArg s u → Always (keepsArg s) (permuteState u) := fun u hu =>
    always_map (x := permute u.params.D u.lanes) (f := u.setGridDiscard) fun _ => hu
  have hl : ∀ (L : Nat) (w : Word) (u : State), keepsArg s u → Always (keepsArg s) (absorbLane L w u) :=
    fun _ _ u hu => always_map fun _ => hu
  have hs : keepsArg s s := ⟨rfl, rfl⟩
  cases i with
  | lmask ld => exact always_map fun _ => ⟨rfl, rfl⟩
  | lmxor ld => exact always_map fun _ => ⟨rfl, rfl⟩
  | lxorc ld => exact always_pure ⟨rfl, rfl⟩
  | lunmask la => exact always_pure ⟨rfl, rfl⟩
  | lmov ld la => exact always_pure ⟨rfl, rfl⟩
  | lxor ld la lb => exact always_pure ⟨rfl, rfl⟩
  | lnot ld la => exact always_pure ⟨rfl, rfl⟩
  | lrotl ld la n => exact always_pure ⟨rfl, rfl⟩
  | land ld la lb => exact always_map fun _ => ⟨rfl, rfl⟩
  | stclr => exact always_pure ⟨rfl, rfl⟩
  | theta => exact always_pure ⟨rfl, rfl⟩
  | rho => exact always_pure ⟨rfl, rfl⟩
  | pi => exact always_pure ⟨rfl, rfl⟩
  | chi => exact always_map (x := chi s.params.D s.lanes) (f := s.setGridDiscard) fun _ => ⟨rfl, rfl⟩
  | iota n => exact always_pure ⟨rfl, rfl⟩
  | round n => exact always_map (x := round s.params.D n.toNat s.lanes) (f := s.setGridDiscard) fun _ => ⟨rfl, rfl⟩
  | permute => exact always_map (x := permute s.params.D s.lanes) (f := s.setGridDiscard) fun _ => ⟨rfl, rfl⟩
  | sinit n =>
    show Always _ (bodySinit n s)
    unfold bodySinit
    split <;> exact always_pure ⟨rfl, rfl⟩
  | sabsorb n =>
    refine always_fold (fun u b hu => ?_) _ _ hs
    unfold absorbByte absorbLaneEnd
    split
    · refine always_bind (hl _ _ _ hu) fun v hv => ?_
      unfold absorbBlockEnd
      split
      · exact always_bind (hp _ hv) fun w hw => always_pure hw
      · exact always_pure hv
    · exact always_pure hu
  | sfinal =>
    refine always_bind (P := keepsArg s) (always_fold (fun u L hu => hl _ _ _ hu) _ _ ⟨rfl, rfl⟩) fun u hu => ?_
    exact always_bind (hp _ hu) fun v hv => always_pure hv
  | ssqueeze n =>
    refine always_bind (P := fun tr : State × Word => keepsArg s tr.1) (always_fold (fun u k hu => ?_) _ _ hs)
      fun u hu => always_pure hu
    unfold squeezeByte openWindow
    split
    · exact always_bind (P := keepsArg s) (always_bind (hp _ hu) fun v hv => always_pure hv) fun v hv => always_pure hv
    · exact always_bind (P := keepsArg s) (always_pure hu) fun v hv => always_pure hv

end Sys2Proof.Machine
end

