-- ==== Sys2Proof/Laws/Bytes.lean ====
section
/-! SUPPORT. The laws of bytes in words and of the reference sponge: little-endian words, blocks, padding, and how the
whole-input functions of R253 and R255 grow by one byte. -/

namespace Sys2Proof.Machine

@[simp] theorem leWord_nil : leWord [] = 0#64 := rfl

theorem leWord_cons (b : Byte) (bs : List Byte) : leWord (b :: bs) = (leWord bs <<< 8) ||| b.setWidth 64 := rfl

/-- One more byte lands above the ones before it (R85). -/
theorem leWord_concat (bs : List Byte) (b : Byte) : leWord (bs ++ [b]) = leWord bs ||| byteAt b bs.length := by
  induction bs with
  | nil => simp [leWord_cons, byteAt]
  | cons x bs ih =>
    simp only [List.cons_append, leWord_cons, ih, byteAt, List.length_cons]
    rw [BitVec.shiftLeft_or_distrib, ← BitVec.shiftLeft_add]
    have : 8 * bs.length + 8 = 8 * (bs.length + 1) := by omega
    rw [this]; ac_rfl

/-- A word of `n` bytes has no bits above them (R47). -/
theorem leWord_lt (bs : List Byte) : (leWord bs).toNat < 2 ^ (8 * bs.length) := by
  induction bs with
  | nil => simp
  | cons b bs ih =>
    rw [leWord_cons, BitVec.toNat_or]
    refine Nat.or_lt_two_pow ?_ ?_
    · rw [BitVec.toNat_shiftLeft, Nat.shiftLeft_eq]
      refine lt_of_le_of_lt (Nat.mod_le _ _) ?_
      have : 2 ^ (8 * (b :: bs).length) = 2 ^ (8 * bs.length) * 2 ^ 8 := by
        rw [← Nat.pow_add]; congr 1
      rw [this]
      exact Nat.mul_lt_mul_of_pos_right ih (by norm_num)
    · have h1 : (b.setWidth 64).toNat < 2 ^ 8 := by
        rw [BitVec.toNat_setWidth]; exact lt_of_le_of_lt (Nat.mod_le _ _) b.isLt
      exact lt_of_lt_of_le h1 (Nat.pow_le_pow_right (by norm_num) (by simp))

/-- XOR into one byte of a list is XOR into that byte of its word. -/
theorem leWord_xorByteAt (bs : List Byte) (k : Nat) (b : Byte) (h : k < bs.length) :
    leWord (xorByteAt bs k b) = leWord bs ^^^ byteAt b k := by
  induction bs generalizing k with
  | nil => simp at h
  | cons x bs ih =>
    cases k with
    | zero =>
      simp only [xorByteAt, List.getD_cons_zero, List.set_cons_zero, leWord_cons, byteAt]
      ext i hi
      simp only [BitVec.getElem_or, BitVec.getElem_xor, BitVec.getElem_shiftLeft, BitVec.getElem_setWidth,
        BitVec.getLsbD_xor, Nat.mul_zero, Nat.sub_zero]
      by_cases h8 : i < 8
      · simp [h8]
      · simp [BitVec.getLsbD_of_ge b i (by omega)]
    | succ k =>
      have := ih k (by simpa using h)
      simp only [xorByteAt, List.getD_cons_succ, List.set_cons_succ, leWord_cons, byteAt] at this ⊢
      rw [this]
      ext i hi
      simp only [BitVec.getElem_or, BitVec.getElem_xor, BitVec.getElem_shiftLeft, BitVec.getElem_setWidth]
      by_cases h8 : i < 8
      · have : i < 8 * (k + 1) := by omega
        simp [h8, this]
      · have e : decide (i < 8 * (k + 1)) = decide (i - 8 < 8 * k) := by
          by_cases h9 : i < 8 * (k + 1) <;> simp [h9] <;> omega
        have e2 : i - 8 * (k + 1) = i - 8 - 8 * k := by omega
        simp only [h8, e, e2, BitVec.getLsbD_of_ge x i (by omega)]
        simp

theorem leWord_zeros (n : Nat) : leWord (List.replicate n 0) = 0#64 := by
  induction n with
  | zero => rfl
  | succ n ih => rw [List.replicate_succ, leWord_cons, ih]; decide

theorem leWord_append_zeros (bs : List Byte) (n : Nat) : leWord (bs ++ List.replicate n 0) = leWord bs := by
  induction bs with
  | nil => simpa using leWord_zeros n
  | cons b bs ih => rw [List.cons_append, leWord_cons, ih, leWord_cons]

theorem byteOf_byteAt (b : Byte) (j k : Nat) (hj : j < 8) (hk : k < 8) :
    byteOf (byteAt b j) k = if j = k then b else 0#8 := by
  ext i hi
  simp only [byteOf, byteAt, BitVec.getElem_extractLsb', BitVec.getLsbD_shiftLeft, BitVec.getLsbD_setWidth]
  by_cases hjk : j = k
  · subst hjk
    have : 8 * j + i - 8 * j = i := by omega
    have h64 : 8 * j + i < 64 := by omega
    have h64' : i < 64 := by omega
    simp [this, h64, h64', BitVec.getLsbD_eq_getElem hi]
  · simp only [hjk, if_false]
    by_cases hlt : 8 * k + i < 8 * j
    · simp [hlt]
    · have : 8 * k + i - 8 * j ≥ 8 := by omega
      simp [BitVec.getLsbD_of_ge b _ this]

theorem byteOf_or (v w : Word) (k : Nat) : byteOf (v ||| w) k = byteOf v k ||| byteOf w k := by
  ext i hi; simp [byteOf]

/-- The bytes of a word of `n ≤ 8` bytes are those bytes (R85). -/
theorem byteOf_leWord (bs : List Byte) (h : bs.length ≤ 8) (k : Nat) (hk : k < 8) :
    byteOf (leWord bs) k = bs.getD k 0 := by
  induction bs using List.reverseRecOn with
  | nil => simp [byteOf]
  | append_singleton bs b ih =>
    have hl : bs.length < 8 := by simp at h; omega
    rw [leWord_concat, byteOf_or, ih (by omega), byteOf_byteAt b _ _ hl hk]
    simp only [List.getD_eq_getElem?_getD, List.getElem?_append]
    by_cases h1 : k < bs.length
    · have : bs.length ≠ k := by omega
      simp [h1, this]
    · by_cases h2 : bs.length = k
      · subst h2; simp
      · have : k - bs.length ≠ 0 := by omega
        simp [h1, h2, this]

theorem bytesOf_leWord (bs : List Byte) (n : Nat) (h : bs.length = n) (hn : n ≤ 8) : bytesOf (leWord bs) n = bs := by
  apply List.ext_getElem
  · simp [bytesOf, h]
  · intro i h1 h2
    have hi : i < n := by omega
    simp only [bytesOf, List.getElem_map, List.getElem_range]
    rw [byteOf_leWord bs (by omega) i (by omega)]
    simp [List.getD_eq_getElem?_getD, h2]

/-! ### Blocks -/

@[simp] theorem length_laneIndices : laneIndices.length = 25 := by simp [laneIndices]

@[simp] theorem length_xorBlock (n : Nat) (block : List Byte) (st : List Word) : (xorBlock n block st).length = 25 := by
  simp [xorBlock]

theorem getD_map_laneIndices (f : Nat → Word) {L : Nat} (h : L < 25) : (laneIndices.map f).getD L 0 = f L := by
  simp [laneIndices, List.getD_eq_getElem?_getD, h]

theorem word_list_eq_map {g : List Word} (h : g.length = 25) : g = laneIndices.map fun L => g.getD L 0 := by
  apply List.ext_getElem
  · simp [h]
  · intro i h1 h2; simp [laneIndices, List.getD_eq_getElem?_getD, h1]

theorem xorBlock_zero (block : List Byte) {st : List Word} (h : st.length = 25) : xorBlock 0 block st = st := by
  conv_rhs => rw [word_list_eq_map h]
  simp [xorBlock]

/-- One more lane of a block. -/
theorem xorBlock_succ (n : Nat) (block : List Byte) (st : List Word) :
    xorBlock (n + 1) block st
      = (xorBlock n block st).set n ((xorBlock n block st).getD n 0 ^^^ blockWord block n) := by
  have hg : ∀ (m L : Nat), L < 25 →
      (xorBlock m block st).getD L 0 = st.getD L 0 ^^^ (if L < m then blockWord block L else 0) :=
    fun m L hL => getD_map_laneIndices _ hL
  apply List.ext_getElem
  · simp
  · intro i h1 h2
    have hi : i < 25 := by simpa using h1
    have e : ∀ (m : Nat) (h : i < (xorBlock m block st).length),
        (xorBlock m block st)[i] = (xorBlock m block st).getD i 0 := fun m h =>
      (List.getD_eq_getElem _ 0 h).symm
    rw [List.getElem_set, e (n + 1) h1, hg _ _ hi]
    by_cases hin : n = i
    · subst hin
      rw [if_pos rfl, hg _ _ hi]
      simp
    · rw [if_neg hin, e n (by simpa using hi), hg _ _ hi]
      have : (i < n + 1) = (i < n) := by
        apply propext; omega
      simp only [this]

/-- Blocks with the same words in their first lanes are the same to `xorBlock`. -/
theorem xorBlock_congr {n : Nat} {b c : List Byte} (st : List Word) (h : ∀ L < n, blockWord b L = blockWord c L) :
    xorBlock n b st = xorBlock n c st := by
  unfold xorBlock
  refine List.map_congr_left fun L _ => ?_
  by_cases hL : L < n
  · simp [hL, h L hL]
  · simp [hL]

/-- A lane that is complete is not changed by later bytes. -/
theorem blockWord_append (xs ys : List Byte) (L : Nat) (h : 8 * (L + 1) ≤ xs.length) :
    blockWord (xs ++ ys) L = blockWord xs L := by
  unfold blockWord
  congr 1
  rw [List.drop_append_of_le_length (by omega), List.take_append_of_le_length (by simp; omega)]

@[simp] theorem length_plainChi (g : List Word) : (plainChi g).length = 25 := by simp [plainChi]

theorem length_plainRound (i : Nat) (g : List Word) : (plainRound i g).length = 25 := by
  simp [plainRound, plainIota]

theorem length_keccakF (g : List Word) : (keccakF g).length = 25 := by
  have : keccakF g = plainRound 23 ((List.range 23).foldl (fun g i => plainRound i g) g) := by
    rw [keccakF, List.range_succ, List.foldl_concat]
  rw [this]; exact length_plainRound _ _

/-! ### The reference absorb, one byte at a time -/

theorem fullBlocks_length (rate : Nat) (hr : 0 < rate) : ∀ (fuel : Nat) (msg : List Byte) (st : List Word),
    msg.length ≤ fuel → st.length = 25 →
    (fullBlocks rate fuel msg st).2.length < rate ∧ (fullBlocks rate fuel msg st).1.length = 25
  | 0, msg, st, h, hst => by
    have : msg = [] := List.eq_nil_of_length_eq_zero (by omega)
    simp [fullBlocks, this, hr, hst]
  | fuel + 1, msg, st, h, hst => by
    unfold fullBlocks
    by_cases hm : rate ≤ msg.length
    · rw [if_pos hm]
      exact fullBlocks_length rate hr fuel _ _ (by simp; omega) (length_keccakF _)
    · rw [if_neg hm]; exact ⟨by simpa using hm, hst⟩

theorem fullBlocks_short (rate fuel : Nat) (msg : List Byte) (st : List Word) (h : msg.length < rate) :
    fullBlocks rate fuel msg st = (st, msg) := by
  cases fuel with
  | zero => rfl
  | succ fuel => rw [fullBlocks, if_neg (by omega)]

/-- One more byte is one more byte left, or completes a block that is then permuted (R253). -/
theorem fullBlocks_concat (rate : Nat) (hr : 8 ≤ rate) (h8 : rate % 8 = 0) (b : Byte) :
    ∀ (fuel fuel' : Nat) (msg : List Byte) (st : List Word), msg.length ≤ fuel → msg.length + 1 ≤ fuel' →
    fullBlocks rate fuel' (msg ++ [b]) st
      = (let p := fullBlocks rate fuel msg st
         if p.2.length + 1 = rate then (keccakF (xorBlock (rate / 8) (p.2 ++ [b]) p.1), []) else (p.1, p.2 ++ [b]))
  | 0, fuel' + 1, msg, st, h, h' => by
    have : msg = [] := List.eq_nil_of_length_eq_zero (by omega)
    subst this
    rw [fullBlocks_short _ _ _ _ (by simp; omega)]
    have : ¬ (0 + 1 = rate) := by omega
    simp [fullBlocks, this]
  | fuel + 1, fuel' + 1, msg, st, h, h' => by
    by_cases hm : rate ≤ msg.length
    · have e1 : fullBlocks rate (fuel' + 1) (msg ++ [b]) st
          = fullBlocks rate fuel' (msg.drop rate ++ [b]) (keccakF (xorBlock (rate / 8) msg st)) := by
        rw [fullBlocks, if_pos (by simp; omega), List.drop_append_of_le_length hm]
        congr 2
        exact xorBlock_congr st fun L hL => blockWord_append _ _ L (by omega)
      have e2 : fullBlocks rate (fuel + 1) msg st
          = fullBlocks rate fuel (msg.drop rate) (keccakF (xorBlock (rate / 8) msg st)) := by
        rw [fullBlocks, if_pos hm]
      rw [e1, e2]
      exact fullBlocks_concat rate hr h8 b fuel fuel' _ _ (by simp; omega) (by simp; omega)
    · rw [fullBlocks_short rate (fuel + 1) msg st (by omega)]
      by_cases hf : msg.length + 1 = rate
      · rw [fullBlocks, if_pos (by simp; omega)]
        have : (msg ++ [b]).drop rate = [] := List.drop_eq_nil_of_le (by simp; omega)
        rw [this, fullBlocks_short _ _ _ _ (by simp; omega)]
        simp [hf]
      · rw [fullBlocks_short _ _ _ _ (by simp; omega)]
        simp [hf]

theorem absorbFull_concat (rate : Nat) (hr : 8 ≤ rate) (h8 : rate % 8 = 0) (msg : List Byte) (b : Byte) :
    absorbFull rate (msg ++ [b])
      = (let p := absorbFull rate msg
         if p.2.length + 1 = rate then (keccakF (xorBlock (rate / 8) (p.2 ++ [b]) p.1), []) else (p.1, p.2 ++ [b])) :=
  fullBlocks_concat rate hr h8 b _ _ msg _ (le_refl _) (by simp)

theorem absorbFull_length (rate : Nat) (hr : 0 < rate) (msg : List Byte) :
    (absorbFull rate msg).2.length < rate ∧ (absorbFull rate msg).1.length = 25 :=
  fullBlocks_length rate hr _ msg _ (le_refl _) (by simp)

/-! ### Padding -/

theorem length_xorByteAt (block : List Byte) (k : Nat) (b : Byte) : (xorByteAt block k b).length = block.length := by
  simp [xorByteAt]

theorem getD_set_ne {α : Type} (l : List α) (i j : Nat) (a d : α) (h : i ≠ j) : (l.set i a).getD j d = l.getD j d := by
  simp [List.getD_eq_getElem?_getD, h]

/-- XOR into byte `k` of a block is XOR into byte `k mod 8` of its lane `k div 8`. -/
theorem blockWord_xorByteAt (block : List Byte) (k : Nat) (b : Byte) (h : k < block.length) (L : Nat) :
    blockWord (xorByteAt block k b) L = blockWord block L ^^^ (if k / 8 = L then byteAt b (k % 8) else 0) := by
  unfold blockWord
  by_cases hL : k / 8 = L
  · rw [if_pos hL]
    have hk : k % 8 < ((block.drop (8 * L)).take 8).length := by simp; omega
    rw [← leWord_xorByteAt _ _ _ hk]
    congr 1
    have e : k = 8 * L + k % 8 := by omega
    unfold xorByteAt
    apply List.ext_getElem
    · simp
    · intro i h1 h2
      have hi : i < 8 := by simp at h1; omega
      simp only [List.getElem_take, List.getElem_drop, List.getElem_set, List.getD_eq_getElem?_getD]
      by_cases hik : k % 8 = i
      · have h3 : k = 8 * L + i := by omega
        subst hik
        simp [← h3, List.getElem?_drop, Nat.mod_lt]
      · have h3 : ¬ (k = 8 * L + i) := by omega
        simp [hik, h3]
  · rw [if_neg hL]
    have : ((xorByteAt block k b).drop (8 * L)).take 8 = (block.drop (8 * L)).take 8 := by
      unfold xorByteAt
      apply List.ext_getElem
      · simp
      · intro i h1 h2
        have hi : i < 8 := by simp at h1; omega
        have h3 : ¬ (k = 8 * L + i) := by omega
        simp [h3]
    rw [this]; simp

/-- The lanes of a block of `rest` and zeros: the complete lanes, then the bytes left, then zero. -/
theorem blockWord_zeros (rest : List Byte) (n L : Nat) :
    blockWord (rest ++ List.replicate n 0) L
      = if L < rest.length / 8 then blockWord rest L
        else if L = rest.length / 8 then leWord (rest.drop (8 * (rest.length / 8))) else 0 := by
  by_cases h1 : L < rest.length / 8
  · rw [if_pos h1, blockWord_append _ _ _ (by omega)]
  · rw [if_neg h1]
    unfold blockWord
    by_cases h2 : L = rest.length / 8
    · rw [if_pos h2, h2, List.drop_append_of_le_length (by omega), List.take_append,
        List.take_of_length_le (by simp; omega), List.take_replicate]
      exact leWord_append_zeros _ _
    · rw [if_neg h2]
      have : (rest ++ List.replicate n 0).drop (8 * L) = List.replicate (n - (8 * L - rest.length)) 0 := by
        rw [List.drop_append, List.drop_eq_nil_of_le (by omega), List.nil_append, List.drop_replicate]
      rw [this, List.take_replicate]
      exact leWord_zeros _

end Sys2Proof.Machine
end

