-- ==== Sys2Proof/Laws/Sponge.lean ====
section
/-! SUPPORT. The laws of the sponge commands: one byte absorbed, the padded block, one byte squeezed, and from them the
bodies of SABSORB, SFINAL and SSQUEEZE. -/

namespace Sys2Proof.Machine

/-! ### Absorbing -/

/-- The absorb primitive draws `D` words and XORs the word into the lane's value (R253). -/
theorem draws_absorbLane {s : State} (h : gridOk s.params.D s.lanes) {L : Nat} (hL : L < 25) (w : Word) :
    Draws (absorbLane L w s) s.params.D fun t => ∃ a : Lane, a.length = s.params.D + 1 ∧
      gUnmask a = gUnmask (laneAt s.lanes L) ^^^ w ∧ t = s.setLane L a :=
  draws_map (draws_gMask _ w) fun m hm => ⟨_, by simp [length_laneAt h hL, hm.1],
    by rw [gUnmask_gXor _ _ (by simp [length_laneAt h hL, hm.1]), hm.2], rfl⟩

/-- What absorbing leaves unchanged: everything but the lanes, APOS, LACC and `Rm`. -/
structure absorbSame (s t : State) : Prop where
  same : hostSame s t
  spongeParams : paramsSame s t
  sph : t.sph = s.sph
  spos : t.spos = s.spos
  delivered : t.delivered = s.delivered
  result : t.result = s.result
  halt : t.halt = s.halt
  err : t.err = s.err
  ign : t.ign = s.ign
  answers : t.answers = s.answers
  count : t.rngCount = s.rngCount
  rm : s.rm = zeroMatrix s.params.D → t.rm = zeroMatrix s.params.D

theorem absorbSame_refl (s : State) : absorbSame s s :=
  ⟨⟨rfl, rfl, rfl, rfl, rfl, rfl, rfl⟩, ⟨rfl, rfl, rfl⟩, rfl, rfl, rfl, rfl, rfl, rfl, rfl, rfl, rfl, id⟩

theorem absorbSame_trans {s t u : State} (h : absorbSame s t) (k : absorbSame t u) : absorbSame s u where
  same := ⟨k.same.params.trans h.same.params, k.same.arg.trans h.same.arg, k.same.halt.trans h.same.halt,
    k.same.rawEn.trans h.same.rawEn, k.same.running.trans h.same.running, k.same.inputs.trans h.same.inputs,
    k.same.readData.trans h.same.readData⟩
  spongeParams := ⟨k.spongeParams.rate.trans h.spongeParams.rate, k.spongeParams.ds.trans h.spongeParams.ds,
    k.spongeParams.outLen.trans h.spongeParams.outLen⟩
  sph := k.sph.trans h.sph
  spos := k.spos.trans h.spos
  delivered := k.delivered.trans h.delivered
  result := k.result.trans h.result
  halt := k.halt.trans h.halt
  err := k.err.trans h.err
  ign := k.ign.trans h.ign
  answers := k.answers.trans h.answers
  count := k.count.trans h.count
  rm e := by have := k.rm; rw [h.same.params] at this; exact this (h.rm e)

/-- The state between two bytes of an absorb: complete lanes, a legal rate, APOS inside the block, LACC without bits above
its bytes, and the reference relation for the bytes so far. -/
def absorbState (s : State) (msg : List Byte) : Prop := gridOk s.params.D s.lanes ∧ absorbed s msg

/-- The words one more byte draws (R261). -/
def byteDraws (s : State) : Nat :=
  (if (s.apos.toNat + 1) % 8 = 0 then s.params.D else 0) +
    (if s.apos.toNat + 1 = s.rate.toNat then permuteDraws s.params.D else 0)

theorem toNat_add_one {a : BitVec 8} (h : a.toNat < 255) : (a + 1).toNat = a.toNat + 1 := by
  rw [BitVec.toNat_add]; simp; omega

theorem draws_absorbByte {s : State} {msg : List Byte} (h : absorbState s msg) (b : Byte) :
    Draws (absorbByte s b) (byteDraws s) fun t => absorbState t (msg ++ [b]) ∧ absorbSame s t ∧
      t.apos.toNat = (if s.apos.toNat + 1 = s.rate.toNat then 0 else s.apos.toNat + 1) := by
  obtain ⟨hg, ha⟩ := h
  have hab := ha
  simp only [absorbed] at ha
  obtain ⟨hph, hro, hap, hlt, hlacc, hval⟩ := ha
  obtain ⟨hr8, hr1, hr2⟩ := hro
  have hcat := absorbFull_concat s.rate.toNat hr1 hr8 msg b
  have hlen := absorbFull_length s.rate.toNat (by omega) msg
  generalize he : absorbFull s.rate.toNat msg = p at *
  obtain ⟨st, rest⟩ := p
  simp only at hap hlt hlacc hval hcat hlen
  have hap1 : (s.apos + 1).toNat = s.apos.toNat + 1 := toNat_add_one (by omega)
  have hlacc' : s.lacc ||| byteAt b (s.apos.toNat % 8) = leWord (rest.drop (8 * (rest.length / 8)) ++ [b]) := by
    rw [leWord_concat, hlacc, hap]; congr 2; simp; omega
  unfold absorbByte absorbLaneEnd byteDraws
  simp only [hap1]
  by_cases h8 : (s.apos.toNat + 1) % 8 = 0
  · -- a lane is complete
    rw [if_pos h8, if_pos h8]
    have hL : (s.apos.toNat + 1) / 8 - 1 = rest.length / 8 := by omega
    have hL25 : rest.length / 8 < 25 := by omega
    rw [hL]
    have hdrop : (rest ++ [b]).drop (8 * (rest.length / 8)) = rest.drop (8 * (rest.length / 8)) ++ [b] :=
      List.drop_append_of_le_length (by omega)
    have hword : blockWord (rest ++ [b]) (rest.length / 8) = s.lacc ||| byteAt b (s.apos.toNat % 8) := by
      rw [hlacc', blockWord, hdrop, List.take_of_length_le (by simp; omega)]
    refine draws_bind (Q := fun t => ∃ a : Lane, a.length = s.params.D + 1 ∧
        gUnmask a = gUnmask (laneAt s.lanes (rest.length / 8)) ^^^ (s.lacc ||| byteAt b (s.apos.toNat % 8)) ∧
        t = { s with
          lacc := s.lacc ||| byteAt b (s.apos.toNat % 8)
          apos := s.apos + 1
          lanes := s.lanes.set (rest.length / 8) a })
      (draws_weaken (draws_absorbLane (s := { s with
        lacc := s.lacc ||| byteAt b (s.apos.toNat % 8), apos := s.apos + 1 }) hg hL25 _)
        fun t ⟨a, h1, h2, h3⟩ => ⟨a, h1, h2, h3⟩) ?_
    rintro t ⟨a, hal, hau, rfl⟩
    have hg' : gridOk s.params.D (s.lanes.set (rest.length / 8) a) := gridOk_set hg _ hal
    have hval' : gridValues (s.lanes.set (rest.length / 8) a)
        = xorBlock (rest.length / 8 + 1) (rest ++ [b]) st := by
      have hxc : xorBlock (rest.length / 8) (rest ++ [b]) st = xorBlock (rest.length / 8) rest st :=
        xorBlock_congr st fun L hL => blockWord_append _ _ L (by omega)
      rw [xorBlock_succ, hxc, hword, gridValues_set, hau, ← getD_gridValues]
      have : gridValues s.lanes = xorBlock (rest.length / 8) rest st := hval
      rw [this]
    unfold absorbBlockEnd
    by_cases hend : s.apos.toNat + 1 = s.rate.toNat
    · -- and the block too
      have hrate : s.apos + 1 = s.rate := BitVec.eq_of_toNat_eq (by rw [hap1, hend])
      simp only [hrate, if_true, hend]
      refine draws_map (draws_permuteState (s := { s with
        lacc := 0, apos := s.rate, lanes := s.lanes.set (rest.length / 8) a }) hg') ?_
      rintro t ⟨g, hgg, hgv, rfl⟩
      rw [if_pos (by omega)] at hcat
      refine ⟨⟨hgg, ?_⟩, ?_, by simp⟩
      · refine ⟨hph, ⟨hr8, hr1, hr2⟩, ?_⟩
        simp only [State.setGridDiscard, hcat, State.values]
        refine ⟨rfl, by simp; omega, by simp, ?_⟩
        have hn : rest.length / 8 + 1 = s.rate.toNat / 8 := by omega
        rw [hgv]
        simp only [State.values] at hval' ⊢
        rw [hval', hn]
        exact (xorBlock_zero _ (length_keccakF _)).symm
      · exact ⟨⟨rfl, rfl, rfl, rfl, rfl, rfl, rfl⟩, ⟨rfl, rfl, rfl⟩, rfl, rfl, rfl, rfl, rfl, rfl, rfl, rfl, rfl,
          fun _ => rfl⟩
    · have hrate : ¬ (s.apos + 1 = s.rate) := fun e => hend (by rw [← hap1, e])
      simp only [hrate, if_false, hend]
      rw [if_neg (by omega)] at hcat
      refine draws_pure ⟨⟨hg', ?_⟩, ?_, hap1⟩
      · refine ⟨hph, ⟨hr8, hr1, hr2⟩, ?_⟩
        simp only [hcat, State.values, hap1]
        refine ⟨by simp [hap], by simp; omega, ?_, ?_⟩
        · have : (rest ++ [b]).drop (8 * ((rest ++ [b]).length / 8)) = [] :=
            List.drop_eq_nil_of_le (by simp; omega)
          rw [this]; rfl
        · have : (rest ++ [b]).length / 8 = rest.length / 8 + 1 := by simp; omega
          rw [this, hval']
      · exact ⟨⟨rfl, rfl, rfl, rfl, rfl, rfl, rfl⟩, ⟨rfl, rfl, rfl⟩, rfl, rfl, rfl, rfl, rfl, rfl, rfl, rfl, rfl, id⟩
  · rw [if_neg h8, if_neg h8]
    have hend : ¬ (s.apos.toNat + 1 = s.rate.toNat) := fun e => h8 (by omega)
    rw [if_neg hend, if_neg hend]
    rw [if_neg (by omega)] at hcat
    refine draws_pure ⟨⟨hg, ?_⟩, ?_, hap1⟩
    · refine ⟨hph, ⟨hr8, hr1, hr2⟩, ?_⟩
      have hdiv : (rest ++ [b]).length / 8 = rest.length / 8 := by simp; omega
      simp only [hcat, State.values, hap1, hdiv]
      refine ⟨by simp [hap], by simp; omega, ?_, ?_⟩
      · rw [List.drop_append_of_le_length (by omega)]; exact hlacc'
      · rw [xorBlock_congr st fun L hL => blockWord_append rest [b] L (by omega)]; exact hval
    · exact ⟨⟨rfl, rfl, rfl, rfl, rfl, rfl, rfl⟩, ⟨rfl, rfl, rfl⟩, rfl, rfl, rfl, rfl, rfl, rfl, rfl, rfl, rfl, id⟩

/-- The words `n` more bytes draw (R261, R368). -/
def bytesDraws (s : State) (n : Nat) : Nat :=
  s.params.D * lanesCompleted s n + permuteDraws s.params.D * blocksCompleted s n

/-- The registers between two bytes of an absorb, whatever was absorbed before. -/
def absorbShape (s : State) : Prop :=
  gridOk s.params.D s.lanes ∧ rateOk s.rate ∧ s.apos.toNat < s.rate.toNat ∧
    s.lacc.toNat < 2 ^ (8 * (s.apos.toNat % 8))

theorem shape_absorbByte {s : State} (h : absorbShape s) (b : Byte) :
    Draws (absorbByte s b) (byteDraws s) fun t => absorbShape t ∧ absorbSame s t ∧
      t.apos.toNat = (if s.apos.toNat + 1 = s.rate.toNat then 0 else s.apos.toNat + 1) := by
  obtain ⟨hg, hro, hlt, hlacc⟩ := h
  have hro' := hro
  obtain ⟨hr8, hr1, hr2⟩ := hro'
  have hap1 : (s.apos + 1).toNat = s.apos.toNat + 1 := toNat_add_one (by omega)
  unfold absorbByte absorbLaneEnd byteDraws
  simp only [hap1]
  by_cases h8 : (s.apos.toNat + 1) % 8 = 0
  · rw [if_pos h8, if_pos h8]
    refine draws_bind (Q := fun t => ∃ a : Lane, a.length = s.params.D + 1 ∧ t = { s with
          lacc := s.lacc ||| byteAt b (s.apos.toNat % 8)
          apos := s.apos + 1
          lanes := s.lanes.set ((s.apos.toNat + 1) / 8 - 1) a })
      (draws_weaken (draws_absorbLane (s := { s with
        lacc := s.lacc ||| byteAt b (s.apos.toNat % 8), apos := s.apos + 1 }) hg
          (L := (s.apos.toNat + 1) / 8 - 1) (by omega) _) fun t ⟨a, h1, _, h3⟩ => ⟨a, h1, h3⟩) ?_
    rintro t ⟨a, hal, rfl⟩
    have hg' : gridOk s.params.D (s.lanes.set ((s.apos.toNat + 1) / 8 - 1) a) := gridOk_set hg _ hal
    unfold absorbBlockEnd
    by_cases hend : s.apos.toNat + 1 = s.rate.toNat
    · have hrate : s.apos + 1 = s.rate := BitVec.eq_of_toNat_eq (by rw [hap1, hend])
      simp only [hrate, if_true, hend]
      refine draws_map (draws_permuteState (s := { s with
        lacc := 0, apos := s.rate, lanes := s.lanes.set (s.rate.toNat / 8 - 1) a }) (by rwa [hend] at hg')) ?_
      rintro t ⟨g, hgg, -, rfl⟩
      refine ⟨⟨hgg, hro, by simp; omega, by simp⟩, ?_, by simp⟩
      exact ⟨⟨rfl, rfl, rfl, rfl, rfl, rfl, rfl⟩, ⟨rfl, rfl, rfl⟩, rfl, rfl, rfl, rfl, rfl, rfl, rfl, rfl, rfl,
        fun _ => rfl⟩
    · have hrate : ¬ (s.apos + 1 = s.rate) := fun e => hend (by rw [← hap1, e])
      simp only [hrate, if_false, hend]
      refine draws_pure ⟨⟨hg', hro, by simp only [hap1]; omega, by simp⟩, ?_, hap1⟩
      exact ⟨⟨rfl, rfl, rfl, rfl, rfl, rfl, rfl⟩, ⟨rfl, rfl, rfl⟩, rfl, rfl, rfl, rfl, rfl, rfl, rfl, rfl, rfl, id⟩
  · rw [if_neg h8, if_neg h8]
    have hend : ¬ (s.apos.toNat + 1 = s.rate.toNat) := fun e => h8 (by omega)
    rw [if_neg hend, if_neg hend]
    refine draws_pure ⟨⟨hg, hro, by simp only [hap1]; omega, ?_⟩, ?_, hap1⟩
    · simp only [hap1]
      have e : (s.apos.toNat + 1) % 8 = s.apos.toNat % 8 + 1 := by omega
      rw [e, BitVec.toNat_or]
      refine Nat.or_lt_two_pow (lt_of_lt_of_le hlacc (Nat.pow_le_pow_right (by norm_num) (by omega))) ?_
      rw [byteAt, BitVec.toNat_shiftLeft, Nat.shiftLeft_eq]
      refine lt_of_le_of_lt (Nat.mod_le _ _) ?_
      have h1 : (b.setWidth 64).toNat < 2 ^ 8 := by
        rw [BitVec.toNat_setWidth]; exact lt_of_le_of_lt (Nat.mod_le _ _) b.isLt
      have : 2 ^ (8 * (s.apos.toNat % 8 + 1)) = 2 ^ 8 * 2 ^ (8 * (s.apos.toNat % 8)) := by
        rw [← Nat.pow_add]; congr 1; omega
      rw [this]
      exact Nat.mul_lt_mul_of_pos_right h1 (Nat.two_pow_pos _)
    · exact ⟨⟨rfl, rfl, rfl, rfl, rfl, rfl, rfl⟩, ⟨rfl, rfl, rfl⟩, rfl, rfl, rfl, rfl, rfl, rfl, rfl, rfl, rfl, id⟩

theorem bytesDraws_succ {s t : State} (h : absorbSame s t) (hr : rateOk s.rate) (hlt : s.apos.toNat < s.rate.toNat)
    (ha : t.apos.toNat = (if s.apos.toNat + 1 = s.rate.toNat then 0 else s.apos.toNat + 1)) (n : Nat) (hn : n ≤ 7) :
    byteDraws s + bytesDraws t n = bytesDraws s (n + 1) := by
  obtain ⟨hr8, hr1, hr2⟩ := hr
  simp only [bytesDraws, byteDraws, lanesCompleted, blocksCompleted, h.same.params, h.spongeParams.rate, ha]
  have e1 : (s.apos.toNat % 8 + (n + 1)) / 8
      = (if (s.apos.toNat + 1) % 8 = 0 then 1 else 0)
        + ((if s.apos.toNat + 1 = s.rate.toNat then 0 else s.apos.toNat + 1) % 8 + n) / 8 := by
    split <;> split <;> omega
  have e2 : (if s.rate.toNat ≤ s.apos.toNat + (n + 1) then 1 else 0)
      = (if s.apos.toNat + 1 = s.rate.toNat then 1 else 0)
        + (if s.rate.toNat ≤ (if s.apos.toNat + 1 = s.rate.toNat then 0 else s.apos.toNat + 1) + n then 1 else 0) := by
    by_cases he : s.apos.toNat + 1 = s.rate.toNat
    · simp only [he, if_true]
      rw [if_pos (by omega), if_neg (by omega)]
    · simp only [he, if_false]
      by_cases h2 : s.rate.toNat ≤ s.apos.toNat + (n + 1)
      · rw [if_pos h2, if_pos (by omega)]
      · rw [if_neg h2, if_neg (by omega)]
  rw [e1, e2, Nat.mul_add, Nat.mul_add]
  generalize (_ : Nat) / 8 = q
  generalize (if s.rate.toNat ≤ (_ : Nat) then 1 else 0) = w
  by_cases h8 : (s.apos.toNat + 1) % 8 = 0
  · by_cases he : s.apos.toNat + 1 = s.rate.toNat
    · rw [if_pos h8, if_pos he, if_pos h8, if_pos he]; omega
    · rw [if_pos h8, if_neg he, if_pos h8, if_neg he]; omega
  · by_cases he : s.apos.toNat + 1 = s.rate.toNat
    · omega
    · rw [if_neg h8, if_neg he, if_neg h8, if_neg he]; omega

/-- SABSORB's loop over any relation that one byte keeps: the words of R368, and the relation for all the bytes. -/
theorem draws_absorbBytes {I : State → List Byte → Prop} (hI : ∀ s msg, I s msg → absorbShape s)
    (hstep : ∀ s msg b, I s msg → Draws (absorbByte s b) (byteDraws s) fun t => I t (msg ++ [b]) ∧ absorbSame s t ∧
      t.apos.toNat = (if s.apos.toNat + 1 = s.rate.toNat then 0 else s.apos.toNat + 1)) :
    ∀ (bs : List Byte) (s : State) (msg : List Byte), bs.length ≤ 8 → I s msg →
      Draws (Draw.fold absorbByte bs s) (bytesDraws s bs.length) fun t => I t (msg ++ bs) ∧ absorbSame s t
  | [], s, msg, _, h => by
    have : bytesDraws s ([] : List Byte).length = 0 := by
      obtain ⟨_, ⟨hr8, hr1, hr2⟩, hlt, _⟩ := hI s msg h
      simp only [bytesDraws, lanesCompleted, blocksCompleted, List.length_nil, Nat.add_zero]
      rw [if_neg (by omega), Nat.div_eq_of_lt (Nat.mod_lt _ (by norm_num))]; simp
    rw [this]
    exact draws_pure ⟨by simpa using h, absorbSame_refl s⟩
  | b :: bs, s, msg, hl, h => by
    have hs := hI s msg h
    have := draws_bind (draws_and (hstep s msg b h) (draws_weaken (hstep s msg b h) fun t ht => ht.2))
      (m := bytesDraws s (bs.length + 1) - byteDraws s) fun t ht => by
      obtain ⟨⟨hIt, -⟩, hsame, hap⟩ := ht
      have e := bytesDraws_succ hsame hs.2.1 hs.2.2.1 hap bs.length (by simp at hl; omega)
      have := draws_absorbBytes hI hstep bs t (msg ++ [b]) (by simp at hl; omega) hIt
      exact draws_congr (draws_weaken this fun u hu =>
        (⟨by simpa using hu.1, absorbSame_trans hsame hu.2⟩ : I u (msg ++ b :: bs) ∧ absorbSame s u)) (by omega)
    refine draws_congr this ?_
    have : byteDraws s ≤ bytesDraws s (bs.length + 1) := by
      obtain ⟨f, hf, hQ⟩ := hstep s msg b h
      obtain ⟨-, hsame, hap⟩ := hQ (List.replicate (byteDraws s) 0) (by simp)
      have e := bytesDraws_succ hsame hs.2.1 hs.2.2.1 hap bs.length (by simp at hl; omega)
      omega
    simp only [List.length_cons]; omega

theorem length_bytesOf (w : Word) (n : Nat) : (bytesOf w n).length = n := by simp [bytesOf]

/-- SABSORB keeps the shape of the absorb registers (R47, R261). -/
theorem shape_bodySabsorb {s : State} (h : absorbShape s) {n : BitVec 6} (hn : n.toNat ≤ 8) :
    Draws (bodySabsorb n s) (bytesDraws s n.toNat) fun t => absorbShape t ∧ absorbSame s t := by
  have := draws_absorbBytes (I := fun s _ => absorbShape s) (fun s _ h => h) (fun s _ b h => shape_absorbByte h b)
    (bytesOf s.arg n.toNat) s [] (by rw [length_bytesOf]; exact hn) h
  rwa [length_bytesOf] at this

theorem absorbShape_of_absorbState {s : State} {msg : List Byte} (h : absorbState s msg) : absorbShape s := by
  obtain ⟨hg, hph, hro, hap, hlt, hlacc, -⟩ := h
  refine ⟨hg, hro, by omega, ?_⟩
  rw [hlacc]
  refine lt_of_lt_of_le (leWord_lt _) (Nat.pow_le_pow_right (by norm_num) ?_)
  rw [List.length_drop]; omega

/-- SABSORB absorbs the bytes of ARG, in order (R257, R261). -/
theorem draws_bodySabsorb {s : State} {msg : List Byte} (h : absorbState s msg) {n : BitVec 6} (hn : n.toNat ≤ 8) :
    Draws (bodySabsorb n s) (bytesDraws s n.toNat) fun t =>
      absorbState t (msg ++ bytesOf s.arg n.toNat) ∧ absorbSame s t := by
  have := draws_absorbBytes (I := absorbState) (fun _ _ h => absorbShape_of_absorbState h)
    (fun s msg b h => draws_absorbByte h b)
    (bytesOf s.arg n.toNat) s msg (by rw [length_bytesOf]; exact hn) h
  rwa [length_bytesOf] at this

/-! ### The padded block -/

theorem padBlock_length (rate : Nat) (ds : Byte) (rest : List Byte) (h : rest.length ≤ rate) :
    (padBlock rate ds rest).length = rate := by
  simp [padBlock, length_xorByteAt]; omega

/-- The lanes of the padded block, as SFINAL makes them (R262). -/
theorem blockWord_padBlock {s : State} {rest : List Byte} (hro : rateOk s.rate) (hap : s.apos.toNat = rest.length)
    (hlt : rest.length < s.rate.toNat) (hlacc : s.lacc = leWord (rest.drop (8 * (rest.length / 8)))) (L : Nat) :
    blockWord (padBlock s.rate.toNat s.ds rest) L
      = if L < rest.length / 8 then blockWord rest L
          ^^^ (if L = s.rate.toNat / 8 - 1 then byteAt 0x80 7 else 0) else padLane s L := by
  obtain ⟨hr8, hr1, hr2⟩ := hro
  have hz : (rest ++ List.replicate (s.rate.toNat - rest.length) (0 : Byte)).length = s.rate.toNat := by
    simp; omega
  unfold padBlock
  rw [blockWord_xorByteAt _ _ _ (by rw [length_xorByteAt, hz]; omega), blockWord_xorByteAt _ _ _ (by rw [hz]; omega),
    blockWord_zeros]
  have e1 : (s.rate.toNat - 1) / 8 = s.rate.toNat / 8 - 1 := by omega
  have e2 : (s.rate.toNat - 1) % 8 = 7 := by omega
  rw [e1, e2]
  have esym : (if s.rate.toNat / 8 - 1 = L then byteAt 0x80 7 else 0)
      = (if L = s.rate.toNat / 8 - 1 then byteAt 0x80 7 else 0) := by
    by_cases h : L = s.rate.toNat / 8 - 1
    · rw [if_pos h.symm, if_pos h]
    · rw [if_neg (fun e => h e.symm), if_neg h]
  rw [esym]
  by_cases h1 : L < rest.length / 8
  · rw [if_pos h1, if_pos h1, if_neg (by omega)]; simp
  · rw [if_neg h1, if_neg h1, padLane, hap]
    by_cases h2 : L = rest.length / 8
    · rw [if_pos h2, if_pos h2.symm, if_pos h2, hlacc]
    · rw [if_neg h2, if_neg (fun e => h2 e.symm), if_neg h2]; simp

/-- What SFINAL's masking loop leaves unchanged: everything but the lanes. -/
theorem draws_padLoop {s u : State} (hg : gridOk u.params.D u.lanes) (hr : s.rate.toNat / 8 ≤ 25) :
    Draws (Draw.fold (fun t L => absorbLane L (padLane s L) t) (padLanes s) u)
      (u.params.D * (s.rate.toNat / 8 - s.apos.toNat / 8)) fun t => ∃ g, gridOk u.params.D g ∧
        t = { u with lanes := g } ∧ ∀ (block : List Byte) (st : List Word),
          (∀ L, s.apos.toNat / 8 ≤ L → L < s.rate.toNat / 8 → blockWord block L = padLane s L) →
          s.apos.toNat / 8 ≤ s.rate.toNat / 8 →
          gridValues u.lanes = xorBlock (s.apos.toNat / 8) block st →
          gridValues g = xorBlock (s.rate.toNat / 8) block st := by
  let I : Nat → State → Prop := fun k t => ∃ g, gridOk u.params.D g ∧
        t = { u with lanes := g } ∧ ∀ (block : List Byte) (st : List Word),
          (∀ L, s.apos.toNat / 8 ≤ L → L < s.rate.toNat / 8 → blockWord block L = padLane s L) →
          gridValues u.lanes = xorBlock (s.apos.toNat / 8) block st →
          gridValues g = xorBlock (s.apos.toNat / 8 + k) block st
  have := draws_fold (f := fun t L => absorbLane L (padLane s L) t) (m := u.params.D) (I := I) (padLanes s) 0 u
    ⟨u.lanes, hg, rfl, fun block st _ h => h⟩ fun j t hj ht => by
      obtain ⟨g, hgg, rfl, hv⟩ := ht
      have hjlt : s.apos.toNat / 8 + j < s.rate.toNat / 8 := by simp [padLanes] at hj; omega
      have hL : (padLanes s)[j] = s.apos.toNat / 8 + j := by simp [padLanes]
      rw [hL]
      refine draws_weaken (draws_absorbLane (s := { u with lanes := g }) hgg (by omega) _) ?_
      rintro t ⟨a, hal, hau, rfl⟩
      refine ⟨_, gridOk_set hgg _ hal, rfl, fun block st hb hu => ?_⟩
      have := hv block st hb hu
      simp only [Nat.zero_add] at this
      rw [gridValues_set, hau, ← getD_gridValues, this, Nat.zero_add, ← Nat.add_assoc, xorBlock_succ,
        hb _ (by omega) hjlt]
  refine draws_congr (draws_weaken this ?_) (by simp [padLanes])
  rintro t ⟨g, hgg, rfl, hv⟩
  refine ⟨g, hgg, rfl, fun block st hb hle hu => ?_⟩
  rw [hv block st hb hu]
  congr 1
  simp [padLanes]; omega

/-- SFINAL: the padded lanes, then the permutation, then the squeeze position is 0 (R262). -/
theorem draws_bodySfinal {s : State} (hg : gridOk s.params.D s.lanes) (hro : rateOk s.rate) :
    Draws (bodySfinal s) (s.params.D * (s.rate.toNat / 8 - s.apos.toNat / 8) + permuteDraws s.params.D) fun t =>
      ∃ g, gridOk s.params.D g ∧
        t = { s with
          lanes := g, rm := zeroMatrix s.params.D, lacc := 0, apos := 0, spos := 0, delivered := 0
          sph := if s.outLen = 0 then .done else .squeezing } ∧
        ∀ msg, absorbed s msg → gridValues g = absorbRef s.rate.toNat s.ds msg := by
  have hro' := hro
  obtain ⟨hr8, hr1, hr2⟩ := hro'
  refine draws_bind (draws_padLoop (s := s) (u := { s with sph := .padded }) hg (by omega)) ?_
  rintro t ⟨g, hgg, rfl, hv⟩
  refine draws_map (draws_permuteState (s := { s with lanes := g, sph := .padded, lacc := 0, apos := 0 }) hgg) ?_
  rintro t ⟨g', hgg', hgv, rfl⟩
  refine ⟨g', hgg', rfl, fun msg hab => ?_⟩
  obtain ⟨-, -, hap, hlt, hlacc, hval⟩ := hab
  have hlen := absorbFull_length s.rate.toNat (by omega) msg
  rw [hgv]
  unfold absorbRef
  generalize absorbFull s.rate.toNat msg = p at *
  obtain ⟨st, rest⟩ := p
  simp only at hap hlt hlacc hval ⊢
  have hb := blockWord_padBlock hro hap hlt hlacc
  have := hv (padBlock s.rate.toNat s.ds rest) st (fun L h1 h2 => by rw [hb, if_neg (by omega)]) (by omega) (by
    have hval : gridValues s.lanes = xorBlock (rest.length / 8) rest st := hval
    rw [hval, hap]
    exact xorBlock_congr st fun L hL => by
      rw [hb, if_pos hL, if_neg (by omega)]; simp)
  simp only [State.values]
  rw [this]

/-! ### Squeezing -/

/-- The registers between two bytes of a squeeze. -/
def squeezeShape (s : State) : Prop :=
  gridOk s.params.D s.lanes ∧ rateOk s.rate ∧ s.spos.toNat ≤ s.rate.toNat

/-- What squeezing leaves unchanged: everything but the lanes, SPOS and `Rm`. -/
structure squeezeSame (s t : State) : Prop where
  same : hostSame s t
  spongeParams : paramsSame s t
  sph : t.sph = s.sph
  apos : t.apos = s.apos
  lacc : t.lacc = s.lacc
  delivered : t.delivered = s.delivered
  result : t.result = s.result
  err : t.err = s.err
  ign : t.ign = s.ign
  answers : t.answers = s.answers
  count : t.rngCount = s.rngCount
  rm : s.rm = zeroMatrix s.params.D → t.rm = zeroMatrix s.params.D

theorem squeezeSame_refl (s : State) : squeezeSame s s :=
  ⟨⟨rfl, rfl, rfl, rfl, rfl, rfl, rfl⟩, ⟨rfl, rfl, rfl⟩, rfl, rfl, rfl, rfl, rfl, rfl, rfl, rfl, rfl, id⟩

theorem squeezeSame_trans {s t u : State} (h : squeezeSame s t) (k : squeezeSame t u) : squeezeSame s u where
  same := ⟨k.same.params.trans h.same.params, k.same.arg.trans h.same.arg, k.same.halt.trans h.same.halt,
    k.same.rawEn.trans h.same.rawEn, k.same.running.trans h.same.running, k.same.inputs.trans h.same.inputs,
    k.same.readData.trans h.same.readData⟩
  spongeParams := ⟨k.spongeParams.rate.trans h.spongeParams.rate, k.spongeParams.ds.trans h.spongeParams.ds,
    k.spongeParams.outLen.trans h.spongeParams.outLen⟩
  sph := k.sph.trans h.sph
  apos := k.apos.trans h.apos
  lacc := k.lacc.trans h.lacc
  delivered := k.delivered.trans h.delivered
  result := k.result.trans h.result
  err := k.err.trans h.err
  ign := k.ign.trans h.ign
  answers := k.answers.trans h.answers
  count := k.count.trans h.count
  rm e := by have := k.rm; rw [h.same.params] at this; exact this (h.rm e)

/-- One byte of SSQUEEZE: it opens a window when it must, and returns the next byte of the loop of R255. -/
theorem draws_squeezeByte {s : State} (h : squeezeShape s) (r : Word) (k : Nat) :
    Draws (squeezeByte (s, r) k) (if s.spos.toNat = s.rate.toNat then permuteDraws s.params.D else 0) fun tr =>
      squeezeShape tr.1 ∧ squeezeSame s tr.1 ∧
      tr.1.spos.toNat = (if s.spos.toNat = s.rate.toNat then 1 else s.spos.toNat + 1) ∧
      ∃ b : Byte, tr.2 = r ||| byteAt b k ∧ ∀ m, squeezeFrom s.rate.toNat (m + 1) s.values s.spos.toNat
        = b :: squeezeFrom s.rate.toNat m tr.1.values tr.1.spos.toNat := by
  obtain ⟨hg, hro, hle⟩ := h
  have hro' := hro
  obtain ⟨hr8, hr1, hr2⟩ := hro'
  unfold squeezeByte openWindow
  by_cases he : s.spos.toNat = s.rate.toNat
  · have he' : s.spos = s.rate := BitVec.eq_of_toNat_eq he
    simp only [he', if_true]
    refine draws_map (Q := fun t => ∃ g, gridOk s.params.D g ∧ gridValues g = keccakF s.values ∧
      t = { s with lanes := g, rm := zeroMatrix s.params.D, spos := 0 })
      (draws_map (draws_permuteState hg) fun t ⟨g, h1, h2, h3⟩ => ⟨g, h1, h2, by rw [h3]; rfl⟩) ?_
    rintro t ⟨g, hgg, hgv, rfl⟩
    refine ⟨⟨hgg, hro, by simp; omega⟩, ?_, by simp, _, rfl, fun m => ?_⟩
    · exact ⟨⟨rfl, rfl, rfl, rfl, rfl, rfl, rfl⟩, ⟨rfl, rfl, rfl⟩, rfl, rfl, rfl, rfl, rfl, rfl, rfl, rfl, rfl,
        fun _ => rfl⟩
    · have e1 : ((0 : BitVec 8) + 1).toNat = 1 := by decide
      have e0 : (0 : BitVec 8).toNat = 0 := by decide
      rw [squeezeFrom, if_pos rfl]
      simp only [squeezedByte, State.values, e1, e0, Nat.zero_div, Nat.zero_mod, ← getD_gridValues]
      simp only [State.values] at hgv
      rw [hgv]
  · have he' : ¬ (s.spos = s.rate) := fun e => he (by rw [e])
    simp only [he', he, if_false]
    have e1 : (s.spos + 1).toNat = s.spos.toNat + 1 := toNat_add_one (by omega)
    refine draws_map (Q := fun t => t = s) (draws_pure rfl) ?_
    rintro t rfl
    refine ⟨⟨hg, hro, by simp only [e1]; omega⟩, ?_, e1, _, rfl, fun m => ?_⟩
    · exact ⟨⟨rfl, rfl, rfl, rfl, rfl, rfl, rfl⟩, ⟨rfl, rfl, rfl⟩, rfl, rfl, rfl, rfl, rfl, rfl, rfl, rfl, rfl, id⟩
    · rw [squeezeFrom, if_neg he]
      simp only [squeezedByte, State.values, e1, ← getD_gridValues]

/-- SSQUEEZE's loop from its byte `k`: the bytes of R255, and the words of R368. -/
theorem draws_squeezeBytes : ∀ (n k : Nat) (s : State) (out : List Byte), k + n ≤ 8 → out.length = k → squeezeShape s →
    Draws (Draw.fold squeezeByte (List.range' k n) (s, leWord out)) (permuteDraws s.params.D * windowsOpened s n)
      fun tr => squeezeShape tr.1 ∧ squeezeSame s tr.1 ∧
        ∃ bs : List Byte, bs.length = n ∧ tr.2 = leWord (out ++ bs) ∧ ∀ m,
          squeezeFrom s.rate.toNat (n + m) s.values s.spos.toNat
            = bs ++ squeezeFrom s.rate.toNat m tr.1.values tr.1.spos.toNat
  | 0, k, s, out, _, _, h => by
    have hw : windowsOpened s 0 = 0 := by unfold windowsOpened; rw [if_neg (by have := h.2.2; omega)]
    rw [hw]
    exact draws_pure ⟨h, squeezeSame_refl s, [], rfl, by simp, fun m => by simp⟩
  | n + 1, k, s, out, hk, hout, h => by
    have hro := h.2.1
    obtain ⟨hr8, hr1, hr2⟩ := hro
    have hle := h.2.2
    rw [List.range'_succ]
    have hb := draws_bind (draws_squeezeByte h (leWord out) k)
      (m := permuteDraws s.params.D * (windowsOpened s (n + 1) - (if s.spos.toNat = s.rate.toNat then 1 else 0)))
      fun tr htr => by
        obtain ⟨t, r⟩ := tr
        obtain ⟨hsh, hsame, hsp, b, hr, hsq⟩ := htr
        simp only at hsh hsame hsp hr hsq
        have hr' : r = leWord (out ++ [b]) := by rw [leWord_concat, hr, hout]
        have ih := draws_squeezeBytes n (k + 1) t (out ++ [b]) (by omega) (by simp [hout]) hsh
        rw [← hr'] at ih
        refine draws_congr (draws_weaken (R := fun tr : State × Word => squeezeShape tr.1 ∧ squeezeSame s tr.1 ∧
          ∃ bs : List Byte, bs.length = n + 1 ∧ tr.2 = leWord (out ++ bs) ∧ ∀ m,
          squeezeFrom s.rate.toNat (n + 1 + m) s.values s.spos.toNat
            = bs ++ squeezeFrom s.rate.toNat m tr.1.values tr.1.spos.toNat) ih ?_) ?_
        · rintro tr ⟨h1, h2, bs, h3, h4, h5⟩
          refine ⟨h1, squeezeSame_trans hsame h2, b :: bs, by simp [h3], by simpa using h4, fun m => ?_⟩
          rw [hsame.spongeParams.rate] at h5
          rw [show n + 1 + m = n + m + 1 by omega, hsq, h5]; rfl
        · rw [hsame.same.params]
          congr 1
          simp only [windowsOpened, hsame.spongeParams.rate, hsp]
          by_cases he : s.spos.toNat = s.rate.toNat
          · simp only [he, if_true]
            rw [if_neg (by omega), if_pos (by omega)]
          · simp only [he, if_false]
            by_cases h2 : s.rate.toNat < s.spos.toNat + (n + 1)
            · rw [if_pos h2, if_pos (by omega)]
            · rw [if_neg h2, if_neg (by omega)]
    refine draws_congr hb ?_
    simp only [windowsOpened]
    by_cases he : s.spos.toNat = s.rate.toNat
    · simp only [he, if_true]
      rw [if_pos (by omega)]; simp
    · simp only [he, if_false]; simp

/-- SSQUEEZE: RESULT holds the next bytes, DELIVERED has counted them, and the phase is DONE after the last (R263). -/
theorem draws_bodySsqueeze {s : State} (h : squeezeShape s) {n : BitVec 6} (hn : n.toNat ≤ 8) :
    Draws (bodySsqueeze n s) (permuteDraws s.params.D * windowsOpened s n.toNat) fun t =>
      ∃ u : State, squeezeShape u ∧ squeezeSame s u ∧
      ∃ bs : List Byte, bs.length = n.toNat ∧
        t = { u with
          result := leWord bs
          delivered := s.delivered + n.setWidth 64
          sph := if s.delivered + n.setWidth 64 = s.outLen then .done else s.sph } ∧
        ∀ m, squeezeFrom s.rate.toNat (n.toNat + m) s.values s.spos.toNat
          = bs ++ squeezeFrom s.rate.toNat m u.values u.spos.toNat := by
  have := draws_squeezeBytes n.toNat 0 s [] (by omega) rfl h
  rw [← List.range_eq_range'] at this
  refine draws_map this ?_
  rintro ⟨u, r⟩ ⟨h1, h2, bs, h3, h4, h5⟩
  refine ⟨u, h1, h2, bs, h3, ?_, h5⟩
  simp only [List.nil_append] at h4
  obtain ⟨e1, e2, e3⟩ : u.delivered = s.delivered ∧ u.outLen = s.outLen ∧ u.sph = s.sph :=
    ⟨h2.delivered, h2.spongeParams.outLen, h2.sph⟩
  simp only [deliver, h4, e1, e2, e3]

end Sys2Proof.Machine
end

