-- ==== Sys2Proof/Laws/Steps.lean ====
section
/-! SUPPORT. What every accepted command does, said once for all 21: the words it draws and the shape it keeps; and from
that what `exec` can answer. -/

namespace Sys2Proof.Machine

/-! ### The checks, by opcode -/

theorem opcode_assemble (opc : BitVec 8) (ld la lb : BitVec 5) (n : BitVec 6) :
    (assemble opc ld la lb n).toNat % 256 = opc.toNat := by
  have h : (assemble opc ld la lb n).setWidth 8 = opc := by
    ext i hi
    simp [assemble]
  rw [← congrArg BitVec.toNat h, BitVec.toNat_setWidth]

theorem isRaw_iff (i : Instr) : isRaw i = true ↔ opcodeOf i < 0x20 := by
  cases i <;> simp [isRaw, opcodeOf, encode, opcode_assemble]

theorem phaseAllows_iff (i : Instr) (p : Phase) : phaseAllows i p = true ↔ phaseRow p (opcodeOf i) := by
  cases i <;> cases p <;> simp [phaseAllows, phaseFree, phaseRow, opcodeOf, encode, opcode_assemble]

theorem configInvalid_iff (i : Instr) (s : State) : configInvalid i s = true ↔ badConfig i s.arg := by
  cases i with
  | sinit n =>
    have hcp : customParams s.arg = none ↔
        (¬ legalRate (s.arg.toNat % 2 ^ 16) ∨ s.arg.toNat / 2 ^ 24 % 2 ^ 8 ≠ 0) := by
      have h1 : (s.arg.extractLsb' 0 16).toNat = s.arg.toNat % 2 ^ 16 := by simp [BitVec.extractLsb'_toNat]
      have h2 : (s.arg.extractLsb' 24 8 = 0) ↔ s.arg.toNat / 2 ^ 24 % 2 ^ 8 = 0 := by
        rw [← BitVec.toNat_inj]; simp [BitVec.extractLsb'_toNat, Nat.shiftRight_eq_div_pow]
      unfold customParams legalRate
      simp only [h1]
      split
      · rename_i h
        simp only [Bool.and_eq_true, beq_iff_eq, decide_eq_true_eq, h2] at h
        simp only [reduceCtorEq, false_iff]; tauto
      · rename_i h
        simp only [Bool.and_eq_true, beq_iff_eq, decide_eq_true_eq, h2] at h
        simp only [true_iff]; tauto
    simp only [configInvalid, badConfig, Instr.sinit.injEq, exists_eq_left', Option.isNone_iff_eq_none]
    unfold spongeVariant
    split <;> simp_all
    omega
  | _ => simp [configInvalid, badConfig]

theorem operandsOk_iff (i : Instr) (s : State) : operandsOk i s = true ↔ ¬ badOperand i s := by
  cases i <;> simp [operandsOk, badOperand, Instr.wellFormed, laneOk, roundOk, countOk] <;> omega

/-- The checks of R307, in its order, said by opcode. -/
theorem check_eq_none_iff (i : Instr) (s : State) : check i s = none ↔
    (opcodeOf i < 0x20 → s.rawEn = true) ∧ phaseRow s.sph (opcodeOf i) ∧ ¬ badConfig i s.arg ∧ ¬ badOperand i s := by
  rw [← isRaw_iff, ← phaseAllows_iff, ← configInvalid_iff, ← operandsOk_iff]
  unfold check
  cases isRaw i <;> cases s.rawEn <;> cases phaseAllows i s.sph <;> cases configInvalid i s <;> cases operandsOk i s <;> simp

theorem check_of_accepts {i : Instr} {s : State} (h : accepts i s) : check i s = none :=
  (check_eq_none_iff i s).mpr ⟨h.enabled, h.phase, h.config, h.operands⟩

/-! ### Every body -/

theorem drawsOf_accept (i : Instr) (s : State) : drawsOf i (accept s) = drawsOf i s := by cases i <;> rfl

theorem check_accept (i : Instr) (s : State) : check i (accept s) = check i s := check_congr rfl rfl rfl rfl rfl

/-- What a command needs of a state, and leaves of it: complete lanes, `Rm` discarded, sponge registers that fit the
phase. -/
structure bodyOk (s : State) : Prop where
  grid : gridOk s.params.D s.lanes
  matrix : s.rm = zeroMatrix s.params.D
  sponge : spongeOk s

theorem bodyOk_of_inv {s : State} (h : s.Inv) : bodyOk s := ⟨h.grid, h.matrix, h.sponge⟩

theorem bodyOk_accept {s : State} (h : bodyOk s) : bodyOk (accept s) := ⟨h.grid, h.matrix, h.sponge⟩

theorem spongeOk_lanes {s : State} (h : spongeOk s) (g : Grid) (r : RandMatrix) : spongeOk { s with lanes := g, rm := r } := h

theorem spongeOk_setLane {s : State} (h : spongeOk s) (L : Nat) (a : Lane) : spongeOk (s.setLane L a) := h

theorem spongeOk_setGridDiscard {s : State} (h : spongeOk s) (g : Grid) : spongeOk (s.setGridDiscard g) := h

theorem bodyOk_setLane {s : State} (h : bodyOk s) (L : Nat) {a : Lane} (ha : a.length = s.params.D + 1) :
    bodyOk (s.setLane L a) := ⟨gridOk_set h.grid L ha, h.matrix, h.sponge⟩

theorem bodyOk_setLanes {s : State} (h : bodyOk s) {g : Grid} (hg : gridOk s.params.D g) : bodyOk { s with lanes := g } :=
  ⟨hg, h.matrix, h.sponge⟩

theorem bodyOk_setGridDiscard {s : State} (h : bodyOk s) {g : Grid} (hg : gridOk s.params.D g) :
    bodyOk (s.setGridDiscard g) := ⟨hg, rfl, h.sponge⟩

theorem gridOk_xorShare0 {D : Nat} {a : Lane} (h : a.length = D + 1) (c : Word) : (xorShare0 a c).length = D + 1 := by
  simp [h]

/-- The lane fields of an accepted command are in range. -/
theorem lane_of_not_bad {n : Nat} (h : ¬ 25 ≤ n) : n < 25 := by omega

theorem sinit_of_check {n : BitVec 6} {s : State} (h : check (.sinit n) s = none) : ∃ sp, spongeVariant n s.arg = some sp := by
  have hc := (check_none h).2.2.1
  simp only [configInvalid] at hc
  exact Option.isSome_iff_exists.mp (by simpa using hc)

/-- Every variant has a rate SINIT can set (R251, R252). -/
theorem rateOk_spongeVariant {n : BitVec 6} {arg : Word} {sp : SpongeParams} (h : spongeVariant n arg = some sp) :
    rateOk sp.rate := by
  unfold spongeVariant at h
  split at h
  case h_7 =>
    unfold customParams at h
    simp only at h
    split at h
    · rename_i h'
      simp only [Bool.and_eq_true, beq_iff_eq, decide_eq_true_eq, BitVec.extractLsb'_toNat] at h'
      cases h
      simp only [rateOk, BitVec.extractLsb'_toNat]
      simp only [Nat.shiftRight_zero] at h' ⊢
      omega
    · cases h
  case h_8 => cases h
  all_goals cases h; simp [rateOk]

theorem absorbing_of_check {i : Instr} {s : State} (h : check i s = none) (hi : i = .sfinal ∨ ∃ n, i = .sabsorb n) :
    s.sph = .absorbing := by
  have hp := (check_none h).2.1
  rcases hi with rfl | ⟨n, rfl⟩ <;> simpa [phaseAllows] using hp

theorem squeezing_of_check {n : BitVec 6} {s : State} (h : check (.ssqueeze n) s = none) :
    s.sph = .squeezing ∧ 1 ≤ n.toNat ∧ n.toNat ≤ 8 ∧ n.toNat ≤ s.outLen.toNat - s.delivered.toNat := by
  obtain ⟨-, hp, -, ho⟩ := check_none h
  simp only [operandsOk, countOk, Bool.and_eq_true, decide_eq_true_eq] at ho
  exact ⟨by simpa [phaseAllows] using hp, ho.1.1, ho.1.2, ho.2⟩

theorem count_of_check {n : BitVec 6} {s : State} (h : check (.sabsorb n) s = none) : 1 ≤ n.toNat ∧ n.toNat ≤ 8 := by
  obtain ⟨-, -, -, ho⟩ := check_none h
  simpa [operandsOk, Instr.wellFormed, countOk] using ho

/-- Every accepted command draws the words of R368 and keeps the shape of the state. -/
theorem draws_bodyOf {i : Instr} {s : State} (h : bodyOk s) (hc : check i s = none) :
    Draws (bodyOf i s) (drawsOf i s) bodyOk := by
  have hop := (check_eq_none_iff i s).mp hc |>.2.2.2
  have hl : ∀ {l : BitVec 5}, ¬ 25 ≤ l.toNat → (s.lane l).length = s.params.D + 1 :=
    fun hl => length_laneAt h.grid (lane_of_not_bad hl)
  cases i with
  | lmask ld => exact draws_weaken (draws_bodyLmask ld s) fun t ⟨m, hm, _, e⟩ => e ▸ bodyOk_setLane h _ hm
  | lmxor ld =>
    refine draws_weaken (draws_bodyLmxor ld s) fun t ⟨m, hm, _, e⟩ => e ▸ bodyOk_setLane h _ ?_
    simp [hl hop, hm]
  | lxorc ld => exact draws_pure (bodyOk_setLane h _ (by simp [hl hop]))
  | lunmask la => exact draws_pure ⟨h.grid, h.matrix, h.sponge⟩
  | lmov ld la => exact draws_pure (bodyOk_setLane h _ (hl fun e => hop (.inr e)))
  | lxor ld la lb =>
    exact draws_pure (bodyOk_setLane h _ (by
      simp [hl fun e => hop (.inr (.inl e)), hl fun e => hop (.inr (.inr e))]))
  | lnot ld la => exact draws_pure (bodyOk_setLane h _ (by simp [hl fun e => hop (.inr e)]))
  | lrotl ld la n => exact draws_pure (bodyOk_setLane h _ (by simp [hl fun e => hop (.inr e)]))
  | land ld la lb =>
    refine draws_weaken (draws_bodyLand (hl fun e => hop (.inr (.inl e))) (hl fun e => hop (.inr (.inr e)))) ?_
    rintro t ⟨c, hcl, -, rfl⟩
    exact bodyOk_setGridDiscard h (gridOk_set h.grid _ hcl)
  | stclr => exact draws_pure (bodyOk_setLanes h (gridOk_zeroGrid _))
  | theta => exact draws_pure (bodyOk_setLanes h (gridOk_theta h.grid))
  | rho => exact draws_pure (bodyOk_setLanes h (gridOk_rho h.grid))
  | pi => exact draws_pure (bodyOk_setLanes h (gridOk_pi h.grid))
  | chi => exact draws_weaken (draws_bodyChi h.grid) fun t ⟨g, hg, _, e⟩ => e ▸ bodyOk_setGridDiscard h hg
  | iota n => exact draws_pure (bodyOk_setLanes h (gridOk_iota h.grid _))
  | round n => exact draws_weaken (draws_bodyRound h.grid n) fun t ⟨g, hg, _, e⟩ => e ▸ bodyOk_setGridDiscard h hg
  | permute => exact draws_weaken (draws_bodyPermute h.grid) fun t ⟨g, hg, _, e⟩ => e ▸ bodyOk_setGridDiscard h hg
  | sinit n =>
    obtain ⟨sp, hsp⟩ := sinit_of_check hc
    have e : bodyOf (.sinit n) s = Draw.pure (startSponge sp s) := by
      show bodySinit n s = _
      rw [bodySinit, hsp]
    rw [e]
    refine draws_pure ⟨gridOk_zeroGrid _, rfl, ?_⟩
    have hr := rateOk_spongeVariant hsp
    exact ⟨hr, by have := hr.2.1; simp [startSponge]; omega, by simp [startSponge], rfl, rfl⟩
  | sabsorb n =>
    have hph := absorbing_of_check hc (.inr ⟨n, rfl⟩)
    have hsp := h.sponge
    simp only [spongeOk, hph] at hsp
    obtain ⟨hr, hlt, hla, h1, h2⟩ := hsp
    refine draws_weaken (shape_bodySabsorb (n := n) ⟨h.grid, hr, hlt, hla⟩ (count_of_check hc).2) ?_
    rintro t ⟨⟨hg, hr', hlt', hla'⟩, hs⟩
    refine ⟨hg, by rw [hs.rm h.matrix, hs.same.params], ?_⟩
    simp only [spongeOk, hs.sph, hph]
    exact ⟨hr', hlt', hla', hs.spos.trans h1, hs.delivered.trans h2⟩
  | sfinal =>
    have hph := absorbing_of_check hc (.inl rfl)
    have hsp := h.sponge
    simp only [spongeOk, hph] at hsp
    refine draws_weaken (draws_bodySfinal h.grid hsp.1) ?_
    rintro t ⟨g, hg, rfl, -⟩
    refine ⟨hg, rfl, ?_⟩
    by_cases ho : s.outLen = 0
    · simp only [spongeOk, ho, if_true]; simpa using hsp.1
    · simp only [spongeOk, ho, if_false]
      refine ⟨hsp.1, trivial, trivial, by simp, ?_⟩
      have : s.outLen.toNat ≠ 0 := fun e => ho (BitVec.eq_of_toNat_eq e)
      simp; omega
  | ssqueeze n =>
    obtain ⟨hph, -, hn, hle⟩ := squeezing_of_check hc
    have hsp := h.sponge
    simp only [spongeOk, hph] at hsp
    obtain ⟨hr, ha, hl, hsl, hd⟩ := hsp
    refine draws_weaken (draws_bodySsqueeze (n := n) ⟨h.grid, hr, hsl⟩ hn) ?_
    rintro t ⟨u, ⟨hg, hru, hsu⟩, hs, bs, -, rfl, -⟩
    refine ⟨hg, by rw [hs.same.params]; exact hs.rm h.matrix, ?_⟩
    have hadd : (s.delivered + n.setWidth 64).toNat = s.delivered.toNat + n.toNat := by
      have h1 := s.outLen.isLt
      rw [BitVec.toNat_add, BitVec.toNat_setWidth, Nat.mod_eq_of_lt (by omega : n.toNat < 2 ^ 64),
        Nat.mod_eq_of_lt (by omega)]
    by_cases he : s.delivered + n.setWidth 64 = s.outLen
    · simp only [spongeOk, he, if_true]
      exact ⟨hru, hs.apos.trans ha, hs.lacc.trans hl, hsu, hs.spongeParams.outLen.symm⟩
    · simp only [spongeOk, he, if_false, hph]
      refine ⟨hru, hs.apos.trans ha, hs.lacc.trans hl, hsu, ?_⟩
      have : (s.delivered + n.setWidth 64).toNat ≠ s.outLen.toNat := fun e => he (BitVec.eq_of_toNat_eq e)
      rw [show u.outLen = s.outLen from hs.spongeParams.outLen]
      omega

end Sys2Proof.Machine
end

