-- ==== Sys2Proof/Laws/Exec.lean ====
section
/-! SUPPORT. Everything `exec` and `step` can answer, said once: rejected, completed, failed or BUSY; and what each leaves
unchanged. -/

namespace Sys2Proof.Machine

theorem draws_always {α : Type} {x : Draw α} {n : Nat} {Q P : α → Prop} (hx : Draws x n Q) (hP : Always P x) :
    Draws x n fun a => Q a ∧ P a := by
  obtain ⟨f, hf, hQ⟩ := hx
  exact ⟨f, hf, fun ws hl => ⟨hQ ws hl, hP _ _ _ (hf.done ws [] 0 hl)⟩⟩

/-- A body that ran: it draws the words of R368, keeps the shape of the state, and leaves ARG, the parameters and the
fields of `Meta`. -/
theorem draws_body_all {i : Instr} {s : State} (h : bodyOk s) (hc : check i s = none) :
    Draws (bodyOf i (accept s)) (drawsOf i s) fun u =>
      (bodyOk u ∧ u.meta = (accept s).meta) ∧ keepsArg s u := by
  have := draws_bodyOf (bodyOk_accept h) ((check_accept i s).trans hc)
  rw [drawsOf_accept] at this
  exact draws_always (draws_always this (always_meta i (accept s))) (always_keepsArg i (accept s))

/-- What an accepted command answers when its words are ready. -/
theorem exec_completes {i : Instr} {s : State} {ws : List Word} {rest : List Answer} (h : bodyOk s)
    (hc : check i s = none) (hs : s.answers = ws.map .word ++ rest) (hl : ws.length = drawsOf i s) :
    ∃ u, ((bodyOk u ∧ u.meta = (accept s).meta) ∧ keepsArg s u) ∧ exec i s = .next (freshTemps
      { u with rngCount := s.rngCount + BitVec.ofNat 64 (drawsOf i s), answers := rest }) :=
  exec_done hc (draws_body_all h hc) hs hl

/-- The four things `exec` can answer, whatever the state (R300). -/
theorem exec_cases (i : Instr) (s : State) :
    (∃ e, check i s = some e ∧ exec i s = .next (reject e s)) ∨
    (check i s = none ∧ ∃ (u : State) (p : Port), u.meta = (accept s).meta ∧ keepsArg s u ∧
      exec i s = .next (freshTemps { u with rngCount := p.count, answers := p.answers })) ∨
    (check i s = none ∧ ∃ p : Port,
      exec i s = .next (freshTemps (rngFailure { accept s with rngCount := p.count, answers := p.answers }))) ∨
    (check i s = none ∧ ∃ p : Port, exec i s = .next { accept s with
      rngCount := p.count, answers := p.answers, running := some ⟨i, s.rngCount, wordsOf s.answers, 0⟩ }) := by
  cases hc : check i s with
  | some e => exact .inl ⟨e, rfl, exec_of_rejected hc⟩
  | none =>
    right
    rw [exec_of_accepted hc]
    cases hb : bodyOf i (accept s) s.port with
    | done u p =>
      exact .inl ⟨rfl, u, p, always_meta i (accept s) _ _ _ hb, always_keepsArg i (accept s) _ _ _ hb, rfl⟩
    | failed p => exact .inr (.inl ⟨rfl, p, rfl⟩)
    | waiting p => exact .inr (.inr ⟨rfl, p, rfl⟩)

/-- The three things an accepted command can answer from a state of the invariant's shape, by what the source has ready. -/
theorem exec_accepted_cases {i : Instr} {s : State} (h : bodyOk s) (hc : check i s = none) :
    (∃ (ws : List Word) (rest : List Answer) (u : State), s.answers = ws.map .word ++ rest ∧ ws.length = drawsOf i s ∧
      ((bodyOk u ∧ u.meta = (accept s).meta) ∧ keepsArg s u) ∧ exec i s = .next (freshTemps
        { u with rngCount := s.rngCount + BitVec.ofNat 64 (drawsOf i s), answers := rest })) ∨
    (∃ (ws : List Word) (rest : List Answer), s.answers = ws.map .word ++ .failure :: rest ∧ ws.length < drawsOf i s ∧
      exec i s = .next (freshTemps (rngFailure
        { accept s with rngCount := s.rngCount + BitVec.ofNat 64 ws.length, answers := rest }))) ∨
    (∃ ws : List Word, s.answers = ws.map .word ∧ ws.length < drawsOf i s ∧
      exec i s = .next { accept s with
        rngCount := s.rngCount + BitVec.ofNat 64 ws.length, answers := [],
        running := some ⟨i, s.rngCount, ws, 0⟩ }) := by
  obtain ⟨ws, rest, hs, hl⟩ | ⟨ws, rest, hs, hl⟩ | ⟨ws, hs, hl⟩ := answers_cases (drawsOf i s) s.answers
  · obtain ⟨u, hu, he⟩ := exec_completes h hc hs hl
    exact .inl ⟨ws, rest, u, hs, hl, hu, he⟩
  · exact .inr (.inl ⟨ws, rest, hs, hl, exec_failed hc (draws_body_all h hc) hs hl⟩)
  · exact .inr (.inr ⟨ws, hs, hl, exec_waiting hc (draws_body_all h hc) hs hl⟩)

/-! ### The invariant, command by command -/

theorem scrub_idem (s : State) : scrub (scrub s) = scrub s := rfl

/-- A completed command leaves the invariant. -/
theorem inv_completed {s u : State} (hh : s.halt = false) (hr : s.running = none) (hu : bodyOk u)
    (hm : u.meta = (accept s).meta) (c : Word) (as : List Answer) :
    (freshTemps { u with rngCount := c, answers := as }).Inv := by
  simp only [State.meta, accept, Meta.mk.injEq] at hm
  obtain ⟨h1, h2, h3, h4, h5, h6, h7, h8, h9, h10, h11⟩ := hm
  refine ⟨hu.grid, hu.matrix, hu.sponge, ?_, ?_, ?_⟩
  · show u.halt = true ↔ u.err = .rng
    rw [h1, h3, hh]; simp
  · intro e
    rw [show u.halt = true from e] at h1
    rw [← h1] at hh; simp at hh
  · intro r e
    rw [show u.running = some r from e, hr] at h7
    cases h7

/-- A failed command leaves the invariant: it is scrubbed and halted (R310). -/
theorem inv_failed (s : State) (c : Word) (as : List Answer) :
    (freshTemps (rngFailure { accept s with rngCount := c, answers := as })).Inv := by
  refine ⟨gridOk_zeroGrid _, rfl, ⟨rfl, rfl, rfl, rfl, rfl, rfl, rfl⟩, by simp [freshTemps, rngFailure], fun _ => ⟨rfl, rfl⟩, ?_⟩
  intro r e; cases e

/-- A rejected command leaves the invariant. -/
theorem inv_rejected {s : State} (h : s.Inv) (hh : s.halt = false) (hr : s.running = none) {e : Err} (he : e ≠ .rng) :
    (reject e s).Inv := by
  refine ⟨h.grid, h.matrix, h.sponge, ?_, ?_, ?_⟩
  · show s.halt = true ↔ e = .rng
    rw [hh]; simp [he]
  · intro e; rw [show s.halt = true from e] at hh; cases hh
  · intro r e; rw [show s.running = some r from e] at hr; cases hr

theorem check_ne_rng {i : Instr} {s : State} {e : Err} (h : check i s = some e) : e ≠ .rng ∧ e ≠ .illegal ∧ e ≠ .ok := by
  unfold check at h
  split at h
  · cases h; simp
  · split at h
    · cases h; simp
    · split at h
      · cases h; simp
      · split at h
        · cases h; simp
        · cases h

/-- A command that is taken keeps the invariant. -/
theorem inv_exec {i : Instr} {s t : State} (h : s.Inv) (hh : s.halt = false) (hr : s.running = none)
    (he : exec i s = .next t) : t.Inv := by
  cases hc : check i s with
  | some e =>
    rw [exec_of_rejected hc] at he; cases he
    exact inv_rejected h hh hr (check_ne_rng hc).1
  | none =>
    obtain ⟨ws, rest, u, -, -, ⟨⟨hu, hm⟩, hk⟩, e⟩ | ⟨ws, rest, -, -, e⟩ | ⟨ws, -, hl, e⟩ :=
      exec_accepted_cases (bodyOk_of_inv h) hc
    · rw [e] at he; cases he
      exact inv_completed hh hr hu hm _ _
    · rw [e] at he; cases he
      exact inv_failed s _ _
    · rw [e] at he; cases he
      refine ⟨h.grid, h.matrix, h.sponge, by simp [accept, hh], fun e => ?_, ?_⟩
      · rw [show s.halt = true from e] at hh; cases hh
      · intro r e
        cases e
        refine ⟨hh, rfl, rfl, ?_, rfl, Nat.zero_le _, ?_⟩
        · exact (check_congr rfl rfl rfl rfl rfl).trans hc
        · show ws.length < drawsOf i _
          rw [← drawsOf_accept] at hl
          cases i <;> exact hl

/-! ### A BUSY command goes on -/

theorem drawsOf_congr {i : Instr} {s t : State} (h1 : t.params = s.params) (h2 : t.apos = s.apos) (h3 : t.rate = s.rate)
    (h4 : t.spos = s.spos) : drawsOf i t = drawsOf i s := by
  cases i <;> simp [drawsOf, lanesCompleted, blocksCompleted, windowsOpened, h1, h2, h3, h4]

theorem bodyOk_rewind {s : State} (h : s.Inv) (r : Running) (a : Answer) : bodyOk (rewind r a s) :=
  ⟨h.grid, h.matrix, h.sponge⟩

theorem check_rewind (i : Instr) (r : Running) (a : Answer) (s : State) : check i (rewind r a s) = check i s :=
  check_congr rfl rfl rfl rfl rfl

theorem drawsOf_rewind (i : Instr) (r : Running) (a : Answer) (s : State) : drawsOf i (rewind r a s) = drawsOf i s :=
  drawsOf_congr rfl rfl rfl rfl

theorem words_snoc_inj {ws vs : List Word} {w : Word} {rest : List Answer}
    (h : ws.map Answer.word ++ [.word w] = vs.map Answer.word ++ rest) (hl : vs.length = ws.length + 1) :
    vs = ws ++ [w] ∧ rest = [] := by
  have hlen := congrArg List.length h
  simp only [List.length_append, List.length_map, List.length_singleton] at hlen
  have hr : rest = [] := List.eq_nil_of_length_eq_zero (by omega)
  subst hr
  refine ⟨?_, rfl⟩
  have : (ws ++ [w]).map Answer.word = vs.map Answer.word := by simpa using h
  exact ((List.map_injective_iff.mpr fun a b e => by cases e; rfl) this).symm

theorem failure_notMem_words (ws : List Word) : Answer.failure ∉ ws.map Answer.word := by
  intro h; obtain ⟨w, -, e⟩ := List.mem_map.mp h; cases e

/-- The next answer of a BUSY command: it completes, or fails, or waits on (R360). -/
theorem takeAnswer_cases {s : State} (h : s.Inv) {r : Running} (hr : s.running = some r) (a : Answer) :
    (∃ w u, a = .word w ∧ r.drawn.length + 1 = drawsOf r.cmd s ∧
      ((bodyOk u ∧ u.meta = (accept (rewind r a s)).meta) ∧ keepsArg s u) ∧
      takeAnswer a s = .next (restore s r (freshTemps { u with rngCount := s.rngCount + 1, answers := [] }))) ∨
    (a = .failure ∧ takeAnswer a s = .next (restore s r (freshTemps (rngFailure
      { accept (rewind r a s) with rngCount := s.rngCount, answers := [] })))) ∨
    (∃ w, a = .word w ∧ r.drawn.length + 1 < drawsOf r.cmd s ∧
      takeAnswer a s = .next { s with
        rngCount := s.rngCount + 1
        running := some { r with drawn := r.drawn ++ [w] } }) := by
  obtain ⟨hh, ha, he, hc, hcount, hsh, hlt⟩ := h.busyOk r hr
  have hans : (rewind r a s).answers = r.drawn.map Answer.word ++ [a] := by simp [rewind, ha]
  have hc' : check r.cmd (rewind r a s) = none := (check_rewind _ _ _ _).trans hc
  have hT : ∀ t, exec r.cmd (rewind r a s) = .next t → takeAnswer a s = .next (restore s r t) := by
    intro t e; simp only [takeAnswer, hr, e]
  have hcnt : r.start + BitVec.ofNat 64 (r.drawn.length + 1) = s.rngCount + 1 := by
    rw [hcount, BitVec.ofNat_add, ← BitVec.add_assoc]; rfl
  obtain ⟨ws, rest, u, hs, hl, hu, e⟩ | ⟨ws, rest, hs, hl, e⟩ | ⟨ws, hs, hl, e⟩ :=
    exec_accepted_cases (bodyOk_rewind h r a) hc'
  · rw [drawsOf_rewind] at hl e
    rw [hans] at hs
    cases a with
    | failure =>
      exfalso
      have hlen := congrArg List.length hs
      simp at hlen
      have : rest = [] := List.eq_nil_of_length_eq_zero (by omega)
      subst this
      have : Answer.failure ∈ ws.map Answer.word := by
        have := List.append_nil (ws.map Answer.word) ▸ hs
        rw [← this]; simp
      exact failure_notMem_words _ this
    | word w =>
      have hlen := congrArg List.length hs
      simp at hlen
      obtain ⟨rfl, rfl⟩ := words_snoc_inj hs (by omega)
      simp at hl
      refine .inl ⟨w, u, rfl, hl, ⟨hu.1, hu.2⟩, ?_⟩
      rw [hT _ e, ← hl]
      show Host.Outcome.next (restore s r (freshTemps { u with
        rngCount := r.start + BitVec.ofNat 64 (r.drawn.length + 1), answers := [] })) = _
      rw [hcnt]
  · rw [hans] at hs
    rw [drawsOf_rewind] at hl
    have hlen := congrArg List.length hs
    simp at hlen
    have hmem : Answer.failure ∈ r.drawn.map Answer.word ++ [a] := by rw [hs]; simp
    have hfa : a = .failure := by
      rcases List.mem_append.mp hmem with h | h
      · exact absurd h (failure_notMem_words _)
      · exact (List.mem_singleton.mp h).symm
    subst hfa
    have hrest : rest = [] ∧ ws.length = r.drawn.length := by
      have hlw : ws.length = r.drawn.length := by
        by_contra hne
        have hlt' : ws.length < r.drawn.length := by omega
        have h1 := congrArg (fun l => l[ws.length]?) hs
        simp [List.getElem?_append, hlt'] at h1
      exact ⟨List.eq_nil_of_length_eq_zero (by omega), hlw⟩
    obtain ⟨rfl, hlw⟩ := hrest
    refine .inr (.inl ⟨rfl, ?_⟩)
    rw [hT _ e, hlw]
    show Host.Outcome.next (restore s r (freshTemps (rngFailure { accept (rewind r .failure s) with
      rngCount := r.start + BitVec.ofNat 64 r.drawn.length, answers := [] }))) = _
    rw [← hcount]
  · rw [hans] at hs
    rw [drawsOf_rewind] at hl
    cases a with
    | failure =>
      exfalso
      have : Answer.failure ∈ ws.map Answer.word := by rw [← hs]; simp
      exact failure_notMem_words _ this
    | word w =>
      have hlen := congrArg List.length hs
      simp at hlen
      obtain ⟨rfl, -⟩ := words_snoc_inj (rest := []) (by simpa using hs) (by omega)
      simp at hl
      refine .inr (.inr ⟨w, rfl, hl, ?_⟩)
      rw [hT _ e]
      have : (rewind r (.word w) s).rngCount + BitVec.ofNat 64 (r.drawn ++ [w]).length = s.rngCount + 1 := by
        simpa [rewind] using hcnt
      rw [this]
      obtain ⟨cmd, start, drawn, shown⟩ := r
      simp [restore, accept, rewind, he, ha]

end Sys2Proof.Machine
end

