-- ==== Sys2Proof/Laws/Bus.lean ====
section
/-! SUPPORT. What one input does: the ways a host read and a host write go, the register words, the answers of the source, and what every step leaves (R81 to R92, R315, R350). -/

namespace Sys2Proof.Machine

theorem step_cons {s : State} {e : Input} {rest : List Input} (h : s.inputs = e :: rest) :
    step s = takeInput e { s with inputs := rest } := by simp [step, h]

theorem step_write (s : State) (rest : List Input) (off : Nat) (v : Word) (h : s.inputs = .write off 8 v :: rest)
    (hh : s.halt = false) (hr : s.running = none) (ho : off < 0x40) (ho8 : off % 8 = 0) :
    step s = writeIdle off v { s with inputs := rest } := by
  simp [step, h, takeInput, hostWrite, inWindow, performed, ho, ho8, hh, hr, State.busy]

theorem step_write_halt (s : State) (rest : List Input) (off width : Nat) (v : Word) (h : s.inputs = .write off width v :: rest)
    (hh : s.halt = true) :
    step s = .next { s with inputs := rest } := by
  simp [step, h, takeInput, hostWrite, hh]

theorem step_write_busy (s : State) (rest : List Input) (off : Nat) (v : Word) (h : s.inputs = .write off 8 v :: rest)
    (hh : s.halt = false) (hr : s.running.isSome) :
    step s = .next (if off = 0 ∨ off = 8 ∨ off = 0x20 then { s with inputs := rest, ign := true } else { s with inputs := rest }) := by
  have hb : State.busy { s with inputs := rest } = true := hr
  rw [step_cons h]
  generalize hs0 : ({ s with inputs := rest } : State) = s0 at hb ⊢
  have e1 : ({ s with inputs := rest, ign := true } : State) = { s0 with ign := true } := by rw [← hs0]
  have hh0 : s0.halt = false := by rw [← hs0]; exact hh
  rw [e1]
  simp only [takeInput, hostWrite, inWindow, performed, hh0, hb, writeBusy, writable]
  by_cases ho : off = 0 ∨ off = 8 ∨ off = 0x20
  · rw [if_pos ho]
    rcases ho with rfl | rfl | rfl <;> simp
  · rw [if_neg ho]
    have h2 : (off == 0 || off == 8 || off == 32) = false := by
      simp; omega
    simp [h2]

theorem step_read {s : State} {off width : Nat} {rest : List Input} (h : s.inputs = .read off width :: rest) :
    step s = .next (hostRead off width { s with inputs := rest }) := by
  simp [step, h, takeInput]

theorem step_reset {s : State} (h : s.inputs.head? = some .reset) :
    ∃ rest, s.inputs = .reset :: rest ∧ step s = .next (resetBlock { s with inputs := rest }) := by
  cases hi : s.inputs with
  | nil => rw [hi] at h; cases h
  | cons e rest =>
    rw [hi] at h; cases h
    exact ⟨rest, rfl, by rw [step_cons hi]; rfl⟩

theorem takes_cons {s : State} {off : Nat} {v : Word} (h : takesWrite s off v) : ∃ rest, s.inputs = .write off 8 v :: rest := by
  obtain ⟨h, -⟩ := h
  cases hi : s.inputs with
  | nil => rw [hi] at h; cases h
  | cons e rest => rw [hi] at h; cases h; exact ⟨rest, rfl⟩

theorem submit_next (v : Word) (s : State) : ∃ t, submit v s = .next t := by
  unfold submit; split
  · exact exec_next _ _
  · exact ⟨_, rfl⟩

theorem writeIdle_next (off : Nat) (v : Word) (s : State) : ∃ t, writeIdle off v s = .next t := by
  unfold writeIdle; split
  · exact submit_next v s
  all_goals exact ⟨_, rfl⟩

theorem takeAnswer_next (a : Answer) (s : State) : ∃ t, takeAnswer a s = .next t := by
  unfold takeAnswer; split
  · exact ⟨_, rfl⟩
  · rename_i r _
    obtain ⟨t, h⟩ := exec_next r.cmd (rewind r a s)
    rw [h]; exact ⟨_, rfl⟩

theorem takeAnswer_idle {a : Answer} {s : State} (h : s.running = none) :
    takeAnswer a s = .next { s with answers := s.answers ++ [a] } := by simp [takeAnswer, h]

theorem takeAnswer_busy {a : Answer} {s t : State} {r : Running} (h : s.running = some r) (ht : takeAnswer a s = .next t) :
    ∃ u, exec r.cmd (rewind r a s) = .next u ∧ t = restore s r u := by
  simp only [takeAnswer, h] at ht
  obtain ⟨u, hu⟩ := exec_next r.cmd (rewind r a s)
  rw [hu] at ht; cases ht
  exact ⟨u, hu, rfl⟩

theorem statusWord_toNat (s : State) (p : Phase) : (statusWord s p).toNat
    = s.busy.toNat + 2 * s.halt.toNat + 4 * s.ign.toNat + 16 * s.err.code.toNat + 256 * p.code.toNat := by
  unfold statusWord
  cases s.busy <;> cases s.halt <;> cases s.ign <;> cases s.err <;> cases p <;> rfl

theorem ctrlWord_toNat (s : State) : (ctrlWord s).toNat = s.rawEn.toNat := by
  unfold ctrlWord; cases s.rawEn <;> rfl

theorem infoWord_toNat (p : Params) : (infoWord p).toNat = p.D + 256 * p.DMax + 65536 := by
  have h1 := p.D_le_DMax
  have h2 := p.DMax_le_255
  have e1 : (BitVec.ofNat 8 p.D).toNat = p.D := by rw [BitVec.toNat_ofNat]; omega
  have e2 : (BitVec.ofNat 8 p.DMax).toNat = p.DMax := by rw [BitVec.toNat_ofNat]; omega
  have e0 : ((BitVec.ofNat 8 p.D).setWidth 64).toNat = p.D := by rw [BitVec.toNat_setWidth, e1]; omega
  have e3 := toNat_or_shift ((BitVec.ofNat 8 p.D).setWidth 64) (BitVec.ofNat 8 p.DMax) 8 (by omega) (by omega)
  have e4 := toNat_or_shift ((BitVec.ofNat 8 p.D).setWidth 64 ||| ((BitVec.ofNat 8 p.DMax).setWidth 64 <<< 8)) (1 : BitVec 8) 16 (by omega) (by omega)
  have : infoWord p = (BitVec.ofNat 8 p.D).setWidth 64 ||| ((BitVec.ofNat 8 p.DMax).setWidth 64 <<< 8) ||| ((1 : BitVec 8).setWidth 64 <<< 16) := rfl
  rw [this, e4, e3, e0, e2]; rfl

theorem hostRead_performed {off : Nat} (ho : off < 0x40) (h8 : off % 8 = 0) (s : State) :
    hostRead off 8 s = readRegister off s := by
  simp [hostRead, inWindow, performed, ho, h8]

theorem off_cases {off : Nat} (ho : off < 0x40) (h8 : off % 8 = 0) :
    off = 0 ∨ off = 8 ∨ off = 0x10 ∨ off = 0x18 ∨ off = 0x20 ∨ off = 0x28 ∨ off = 0x30 ∨ off = 0x38 := by omega

/-- What any command leaves. -/
structure execKeeps (s t : State) : Prop where
  params : t.params = s.params
  arg : t.arg = s.arg
  rawEn : t.rawEn = s.rawEn
  inputs : t.inputs = s.inputs
  ign : t.ign = false
  halt : s.halt = true → t.halt = true
  halted : t.halt = true → s.halt = true ∨ (t.err = .rng ∧ t.running = none ∧ scrub t = t)

theorem exec_keeps {i : Instr} {s t : State} (h : exec i s = .next t) : execKeeps s t := by
  obtain ⟨e, hc, hx⟩ | ⟨hc, u, p, hm, hk, hx⟩ | ⟨hc, p, hx⟩ | ⟨hc, p, hx⟩ := exec_cases i s <;> rw [hx] at h <;> cases h
  · exact ⟨rfl, rfl, rfl, rfl, rfl, id, .inl⟩
  · simp only [State.meta, accept, Meta.mk.injEq] at hm
    obtain ⟨h1, h2, h3, h4, h5, h6, h7, h8, h9, h10, h11⟩ := hm
    exact ⟨hk.1, hk.2, h4, h9, h2, fun h => h1.trans h, fun h => .inl (h1.symm.trans h)⟩
  · exact ⟨rfl, rfl, rfl, rfl, rfl, fun _ => rfl, fun _ => .inr ⟨rfl, rfl, rfl⟩⟩
  · exact ⟨rfl, rfl, rfl, rfl, rfl, id, .inl⟩

/-- The ways a write goes. -/
theorem hostWrite_cases (off width : Nat) (v : Word) (s t : State) (h : hostWrite off width v s = .next t) :
    (t = s) ∨ (s.halt = false ∧ s.running ≠ none ∧ width = 8 ∧ (off = 0 ∨ off = 8 ∨ off = 0x20) ∧ t = { s with ign := true }) ∨
    (s.halt = false ∧ s.running = none ∧ width = 8 ∧ off = 0 ∧ submit v s = .next t) ∨
    (s.halt = false ∧ s.running = none ∧ width = 8 ∧ off = 8 ∧ t = { s with arg := v }) ∨
    (s.halt = false ∧ s.running = none ∧ width = 8 ∧ off = 0x20 ∧ t = writeCtrl v s) := by
  unfold hostWrite at h
  split at h
  · cases h; exact .inl rfl
  rename_i hp
  have hw : width = 8 := by
    simp [performed, inWindow] at hp; exact hp.2.1
  split at h
  · cases h; exact .inl rfl
  rename_i hh
  have hh : s.halt = false := by simpa using hh
  split at h
  · rename_i hb
    have hb : s.running ≠ none := by
      intro e; simp [State.busy, e] at hb
    cases h
    unfold writeBusy writable
    split
    · rename_i ho
      simp at ho
      exact .inr (.inl ⟨hh, hb, hw, by omega, rfl⟩)
    · exact .inl rfl
  · rename_i hb
    have hb : s.running = none := by
      cases hr : s.running with
      | none => rfl
      | some r => simp [State.busy, hr] at hb
    unfold writeIdle at h
    split at h
    · exact .inr (.inr (.inl ⟨hh, hb, hw, rfl, h⟩))
    · cases h; exact .inr (.inr (.inr (.inl ⟨hh, hb, hw, rfl, rfl⟩)))
    · cases h; exact .inr (.inr (.inr (.inr ⟨hh, hb, hw, rfl, rfl⟩)))
    · cases h; exact .inl rfl

theorem hostRead_keeps (off width : Nat) (s : State) :
    ∃ v n o, hostRead off width s = { s with readData := v, freeTick := n, running := o } ∧
      (s.running = none → o = none) ∧ ∀ r, s.running = some r → ∃ k, o = some { r with shown := k } ∧
        (r.shown ≤ r.drawn.length → r.shown ≤ k ∧ k ≤ r.drawn.length) := by
  have hs : ∀ r, s.running = some r → ∃ k, s.running = some { r with shown := k } ∧
        (r.shown ≤ r.drawn.length → r.shown ≤ k ∧ k ≤ r.drawn.length) := fun r hr => ⟨r.shown, hr, fun h => ⟨le_refl _, h⟩⟩
  have key : ∀ v n, ∃ v' n' o, { s with readData := v, freeTick := n } = { s with readData := v', freeTick := n', running := o } ∧
      (s.running = none → o = none) ∧ ∀ r, s.running = some r → ∃ k, o = some { r with shown := k } ∧
        (r.shown ≤ r.drawn.length → r.shown ≤ k ∧ k ≤ r.drawn.length) :=
    fun v n => ⟨v, n, s.running, rfl, id, hs⟩
  unfold hostRead readRegister readStatus readCount
  split
  · exact key _ _
  split
  · split
    · exact key _ s.freeTick
    · exact key _ s.freeTick
    · split
      · exact key _ s.freeTick
      · exact key _ _
    · exact key _ s.freeTick
    · exact key _ s.freeTick
    · split
      · exact key _ s.freeTick
      · rename_i r hr
        refine ⟨_, _, _, rfl, (fun h => absurd (hr.symm.trans h) (by simp)), fun q hq => ?_⟩
        rw [hr] at hq; cases hq
        refine ⟨_, rfl, fun hle => ?_⟩
        unfold shownCount
        have := Nat.mod_lt (Config.freeCount s.freeTick) (show 0 < r.drawn.length - r.shown + 1 by omega)
        omega
    · exact key _ s.freeTick
  · exact key _ s.freeTick

/-- What one step does to ARG, RAW_EN, the parameters. -/
theorem step_frame {s t : State} (h : step s = .next t) : t.params = s.params ∧
    (s.inputs.head? ≠ some .reset →
      ((¬ ∃ v, takesWrite s 0x08 v) → t.arg = s.arg) ∧ ((¬ ∃ v, takesWrite s 0x20 v) → t.rawEn = s.rawEn) ∧
      (s.halt = true → t.halt = true) ∧ (s.ign = true → (¬ ∃ v, takesWrite s 0 v) → t.ign = true)) := by
  cases hi : s.inputs with
  | nil =>
    simp only [step, hi] at h; cases h
    exact ⟨rfl, fun _ => ⟨fun _ => rfl, fun _ => rfl, id, fun h _ => h⟩⟩
  | cons e rest =>
    rw [step_cons hi] at h
    cases e with
    | read off w =>
      simp only [takeInput] at h
      obtain ⟨v, n, o, e, -⟩ := hostRead_keeps off w { s with inputs := rest }
      rw [e] at h; cases h
      exact ⟨rfl, fun _ => ⟨fun _ => rfl, fun _ => rfl, id, fun h _ => h⟩⟩
    | write off w v =>
      obtain rfl | ⟨hh, hr, hw, ho, rfl⟩ | ⟨hh, hr, rfl, rfl, hsub⟩ | ⟨hh, hr, rfl, rfl, rfl⟩ | ⟨hh, hr, rfl, rfl, rfl⟩ :=
        hostWrite_cases off w v _ _ h
      · exact ⟨rfl, fun _ => ⟨fun _ => rfl, fun _ => rfl, id, fun h _ => h⟩⟩
      · exact ⟨rfl, fun _ => ⟨fun _ => rfl, fun _ => rfl, id, fun _ _ => rfl⟩⟩
      · have htk : takesWrite s 0 v := ⟨by rw [hi]; rfl, hh, hr⟩
        unfold submit at hsub
        split at hsub
        · have hk := exec_keeps hsub
          exact ⟨hk.params, fun _ => ⟨fun _ => hk.arg, fun _ => hk.rawEn, hk.halt, fun _ hn => absurd ⟨v, htk⟩ hn⟩⟩
        · cases hsub
          exact ⟨rfl, fun _ => ⟨fun _ => rfl, fun _ => rfl, id, fun _ hn => absurd ⟨v, htk⟩ hn⟩⟩
      · exact ⟨rfl, fun _ => ⟨fun hn => absurd ⟨v, by rw [hi]; rfl, hh, hr⟩ hn, fun _ => rfl, id, fun h _ => h⟩⟩
      · unfold writeCtrl
        split
        · exact ⟨rfl, fun _ => ⟨fun _ => rfl, fun hn => absurd ⟨v, by rw [hi]; rfl, hh, hr⟩ hn, id, fun h _ => h⟩⟩
        · exact ⟨rfl, fun _ => ⟨fun _ => rfl, fun hn => absurd ⟨v, by rw [hi]; rfl, hh, hr⟩ hn, id, fun h _ => h⟩⟩
    | answer a =>
      cases hr : s.running with
      | none =>
        rw [takeInput, takeAnswer_idle (by exact hr)] at h; cases h
        exact ⟨rfl, fun _ => ⟨fun _ => rfl, fun _ => rfl, id, fun h _ => h⟩⟩
      | some r =>
        obtain ⟨u, hu, rfl⟩ := takeAnswer_busy (s := { s with inputs := rest }) hr h
        have hk := exec_keeps hu
        exact ⟨hk.params, fun _ => ⟨fun _ => hk.arg, fun _ => hk.rawEn, hk.halt, fun h _ => h⟩⟩
    | lateAnswer a =>
      simp only [takeInput] at h; cases h
      exact ⟨rfl, fun _ => ⟨fun _ => rfl, fun _ => rfl, id, fun h _ => h⟩⟩
    | reset =>
      simp only [takeInput] at h; cases h
      exact ⟨rfl, fun hn => absurd rfl hn⟩

theorem scrubbed_scrub (s : State) : scrubbed s (scrub s) := by
  refine ⟨⟨by simp [scrub, zeroGrid], fun a ha => ?_⟩, ⟨by simp [scrub, zeroMatrix], fun a ha => ?_⟩, ⟨rfl, rfl, rfl⟩, ⟨rfl, rfl, rfl, rfl⟩, rfl, rfl, rfl⟩
  · have := (List.mem_replicate.mp ha).2
    subst this
    exact ⟨by simp [zeroLane], fun w hw => (List.mem_replicate.mp hw).2⟩
  · have := (List.mem_replicate.mp ha).2
    subst this
    exact ⟨by simp, fun w hw => (List.mem_replicate.mp hw).2⟩

theorem inv_inputs {s : State} (h : s.Inv) (rest : List Input) : State.Inv { s with inputs := rest } := by
  refine ⟨h.grid, h.matrix, h.sponge, h.halted, fun e => ?_, fun r hr => ?_⟩
  · have := h.scrubbed e
    refine ⟨this.1, ?_⟩
    have h2 := this.2
    exact congrArg (fun u : State => { u with inputs := rest }) h2
  · obtain ⟨a, b, c, d, e, f, g⟩ := h.busyOk r hr
    exact ⟨a, b, c, (check_congr rfl rfl rfl rfl rfl).trans d, e, f, lt_of_lt_of_eq g (drawsOf_congr rfl rfl rfl rfl).symm⟩

theorem inv_scrub {s : State} (h : s.Inv) (hh : s.halt = false) (hr : s.running = none) (b : Bool) :
    State.Inv { scrub s with rawEn := b } := by
  refine ⟨gridOk_zeroGrid _, rfl, ⟨rfl, rfl, rfl, rfl, rfl, rfl, rfl⟩, h.halted, fun e => ?_, fun r e => ?_⟩
  · exact absurd (hh.symm.trans e) (by simp)
  · exact absurd (hr.symm.trans e) (by simp)

theorem wordsOf_append (as bs : List Answer) : wordsOf (as ++ bs) = wordsOf as ++ wordsOf bs := by
  induction as with
  | nil => rfl
  | cons a as ih => cases a <;> simp [wordsOf, ih]

theorem exec_counts {i : Instr} {s t : State} (h : bodyOk s) (he : exec i s = .next t) :
    ∃ used, s.answers = used ++ t.answers ∧ t.rngCount = s.rngCount + BitVec.ofNat 64 (wordsOf used).length := by
  cases hc : check i s with
  | some e =>
    rw [exec_of_rejected hc] at he; cases he
    exact ⟨[], rfl, by simp [wordsOf, reject]⟩
  | none =>
    obtain ⟨ws, rest, u, hs, hl, -, e⟩ | ⟨ws, rest, hs, hl, e⟩ | ⟨ws, hs, hl, e⟩ := exec_accepted_cases h hc
    · rw [e] at he; cases he
      exact ⟨ws.map .word, hs, by rw [wordsOf_map_word, hl]; rfl⟩
    · rw [e] at he; cases he
      refine ⟨ws.map .word ++ [.failure], by rw [hs]; simp [freshTemps, rngFailure, scrub], ?_⟩
      rw [wordsOf_append, wordsOf_map_word]; simp [wordsOf, freshTemps, rngFailure, scrub]
    · rw [e] at he; cases he
      exact ⟨ws.map .word, by simp [hs], by rw [wordsOf_map_word]⟩

end Sys2Proof.Machine
end

