-- ==== Sys2Proof/Laws/Busy.lean ====
section
/-! SUPPORT. The states a command passes through while it is BUSY (R360, R361). -/

namespace Sys2Proof.Machine

/-- A BUSY state in the course of command `i`, accepted in `s`. -/
def during (s : State) (i : Instr) (ws : List Word) (g : Bool) (sh : Nat) (es : List Input) (rd : Word) (k : Nat) : State :=
  { s with err := .ok, ign := g, rngCount := s.rngCount + BitVec.ofNat 64 ws.length, answers := [],
           running := some ⟨i, s.rngCount, ws, sh⟩, inputs := es, readData := rd, freeTick := k }

theorem runCore_cons {u v : State} {n : Nat} (h : step u = .next v) : Host.Core.run core (n + 1) u = Host.Core.run core n v := by
  have h' : core.step u = .next v := h
  simp only [Host.Core.run, h']

theorem body_varied {i : Instr} {s : State} {n : Nat} {f : List Word → State} (hf : Takes (bodyOf i s) n f) (m : Meta) :
    Takes (bodyOf i (s.withMeta m)) n (fun ws => (f ws).withMeta m) := by
  rw [bodyOf_withMeta]; exact takes_map _ hf

theorem draws_rd (i : Instr) (r : Running) (a : Answer) (s : State) (ws g sh es rd k) :
    drawsOf i (rewind r a (during s i ws g sh es rd k)) = drawsOf i s := drawsOf_congr rfl rfl rfl rfl

theorem draws_as (i : Instr) (s : State) (as : List Answer) : drawsOf i { s with answers := as } = drawsOf i s := drawsOf_congr rfl rfl rfl rfl

theorem during_step {s : State} (h : s.Inv) {i : Instr} (hh : s.halt = false) (hc : check i s = none)
    (ws : List Word) (g : Bool) (sh : Nat) (e : Input) (es : List Input) (rd : Word) (k : Nat) (he : e ≠ .reset)
    (ha : ∀ a, e = .answer a → ∃ w, a = .word w ∧ ws.length + 1 < drawsOf i s) :
    ∃ g' sh' rd' k', step (during s i ws g sh (e :: es) rd k) = .next (during s i (ws ++ wordsOf (answersIn [e])) g' sh' es rd' k') := by
  rw [step_cons (e := e) (rest := es) rfl]
  cases e with
  | read off width =>
    simp only [answersIn, wordsOf, List.append_nil]
    show ∃ g' sh' rd' k', Host.Outcome.next (hostRead off width (during s i ws g sh es rd k)) = _
    unfold hostRead
    split
    · exact ⟨g, sh, _, k + 1, rfl⟩
    · split
      · unfold readRegister
        split
        · exact ⟨g, sh, _, k, rfl⟩
        · exact ⟨g, sh, _, k, rfl⟩
        · exact ⟨g, sh, _, k + 1, rfl⟩
        · exact ⟨g, sh, _, k, rfl⟩
        · exact ⟨g, sh, _, k, rfl⟩
        · exact ⟨g, _, _, k + 1, rfl⟩
        · exact ⟨g, sh, _, k, rfl⟩
      · exact ⟨g, sh, _, k, rfl⟩
  | write off width v =>
    simp only [answersIn, wordsOf, List.append_nil]
    show ∃ g' sh' rd' k', hostWrite off width v (during s i ws g sh es rd k) = _
    unfold hostWrite
    split
    · exact ⟨g, sh, rd, k, rfl⟩
    · rw [if_neg (by simp [during, hh]), if_pos (by rfl)]
      unfold writeBusy
      split
      · exact ⟨true, sh, rd, k, rfl⟩
      · exact ⟨g, sh, rd, k, rfl⟩
  | lateAnswer a => simp only [answersIn, wordsOf, List.append_nil]; exact ⟨g, sh, rd, k, rfl⟩
  | reset => exact absurd rfl he
  | answer a =>
    obtain ⟨w, rfl, hlt⟩ := ha a rfl
    simp only [answersIn, wordsOf]
    show ∃ g' sh' rd' k', takeAnswer (.word w) (during s i ws g sh es rd k) = _
    let r : Running := ⟨i, s.rngCount, ws, sh⟩
    have hck : check i (rewind r (.word w) (during s i ws g sh es rd k)) = none := (check_congr (s := s) rfl rfl rfl rfl rfl).trans hc
    have hd := draws_body_all (i := i) (s := rewind r (.word w) (during s i ws g sh es rd k)) ⟨h.grid, h.matrix, h.sponge⟩ hck
    have hw := exec_waiting (ws := ws ++ [w]) hck hd (by simp [rewind, during, r]) (by rw [draws_rd]; simpa using hlt)
    refine ⟨g, sh, rd, k, ?_⟩
    show takeAnswer _ _ = _
    unfold takeAnswer
    show (match exec i (rewind r (.word w) (during s i ws g sh es rd k)) with | .next t => Host.Outcome.next (restore _ r t) | .fault f => .fault f | .refused f => .refused f) = _
    rw [hw]
    rfl

theorem during_end {s : State} (h : s.Inv) {i : Instr} (hr : s.running = none) (hc : check i s = none)
    (ws : List Word) (g : Bool) (sh : Nat) (a : Answer) (rd : Word) (k : Nat)
    (ha : (∃ w, a = .word w ∧ ws.length + 1 = drawsOf i s) ∨ (a = .failure ∧ ws.length < drawsOf i s)) :
    ∃ t v, exec i { s with answers := ws.map .word ++ [a] } = .next t ∧ t.running = none ∧ t.answers = [] ∧
      step (during s i ws g sh [.answer a] rd k) = .next v ∧ sameAfterBusy t v := by
  let r : Running := ⟨i, s.rngCount, ws, sh⟩
  have hstep : ∀ t, exec i (rewind r a (during s i ws g sh [] rd k)) = .next t →
      step (during s i ws g sh [.answer a] rd k) = .next (restore (during s i ws g sh [] rd k) r t) := by
    intro t ht
    rw [step_cons (e := .answer a) (rest := []) rfl]
    show takeAnswer a (during s i ws g sh [] rd k) = _
    unfold takeAnswer
    show (match exec i (rewind r a (during s i ws g sh [] rd k)) with | .next t => Host.Outcome.next (restore _ r t) | .fault f => .fault f | .refused f => .refused f) = _
    rw [ht]
  have hck : check i (rewind r a (during s i ws g sh [] rd k)) = none := (check_congr (s := s) rfl rfl rfl rfl rfl).trans hc
  have hck2 : check i { s with answers := ws.map .word ++ [a] } = none := (check_congr (s := s) rfl rfl rfl rfl rfl).trans hc
  obtain ⟨f, hf, hQ⟩ := draws_body_all (i := i) (s := { s with answers := ws.map .word ++ [a] }) ⟨h.grid, h.matrix, h.sponge⟩ hck2
  have hf2 := body_varied hf (accept (rewind r a (during s i ws g sh [] rd k))).meta
  obtain ⟨w, rfl, hl⟩ | ⟨rfl, hl⟩ := ha
  · have e1 := exec_takes (ws := ws ++ [w]) (rest := []) hck2 hf (by simp) (by rw [draws_as]; simpa using hl)
    have e2 := exec_takes (ws := ws ++ [w]) (rest := []) hck hf2 (by simp [rewind, during, r]) (by rw [draws_as]; simpa using hl)
    have hm := ((hQ (ws ++ [w]) (by rw [draws_as]; simpa using hl)).1).2
    generalize f (ws ++ [w]) = u at e1 e2 hm
    simp only [State.meta, accept, Meta.mk.injEq] at hm
    obtain ⟨h1, h2, h3, h4, h5, h6, h7, h8, h9, h10, h11⟩ := hm
    refine ⟨_, _, e1, ?_, rfl, hstep _ e2, ?_⟩
    · exact h7.trans hr
    · obtain ⟨⟩ := u
      simp only at h1 h2 h3 h4 h5 h6 h7 h8 h9 h10 h11
      subst h1 h2 h3 h4 h5 h6 h7 h8 h9 h10 h11
      simp [sameAfterBusy, restore, freshTemps, State.withMeta, State.meta, accept, rewind, during, hr]
      rfl
  · have hd := draws_body_all (i := i) (s := { s with answers := ws.map .word ++ [.failure] }) ⟨h.grid, h.matrix, h.sponge⟩ hck2
    have e1 := exec_failed (ws := ws) (rest := []) hck2 hd rfl (by rwa [draws_as])
    have hd2 := draws_body_all (i := i) (s := rewind r .failure (during s i ws g sh [] rd k)) ⟨h.grid, h.matrix, h.sponge⟩ hck
    have e2 := exec_failed (ws := ws) (rest := []) hck hd2 (by simp [rewind, during, r]) (by rwa [draws_rd])
    refine ⟨_, _, e1, rfl, rfl, hstep _ e2, ?_⟩
    rfl

theorem answersIn_append (es fs : List Input) : answersIn (es ++ fs) = answersIn es ++ answersIn fs := by
  induction es with
  | nil => rfl
  | cons e es ih => cases e <;> simp [answersIn, ih]

end Sys2Proof.Machine
end

