-- ==== Sys2Proof/Laws/Lanes.lean ====
section
/-! SUPPORT. Reading a grid after one lane is set, and the frame of a command that ran (R30, R159, R212, R309). -/

namespace Sys2Proof.Machine

theorem lane_len {s : State} (h : s.Inv) {l : BitVec 5} (hl : ¬ 25 ≤ l.toNat) : (laneAt s.lanes l.toNat).length = s.params.D + 1 :=
  length_laneAt h.grid (by omega)

theorem set_same {s : State} (h : s.Inv) {L : Nat} (hL : L < 25) (a : Lane) : laneAt (s.lanes.set L a) L = a := by
  have : L < s.lanes.length := by rw [h.grid.1]; exact hL
  simp [laneAt, List.getD_eq_getElem?_getD, this]

theorem set_others {s t : State} (h : s.Inv) {L : Nat} {a : Lane} (ht : t.lanes = s.lanes.set L a) : othersSame L s t := by
  refine ⟨by rw [ht, List.length_set, h.grid.1], fun M hM => ?_⟩
  rw [ht]; simp [laneAt, List.getD_eq_getElem?_getD, hM.symm]

theorem ran_mk (s : State) (n : Nat) (rest : List Answer) (u : State) (hm : u.meta = (accept s).meta) (hk : keepsArg s u) :
    ran n rest s (freshTemps { u with rngCount := s.rngCount + BitVec.ofNat 64 n, answers := rest }) := by
  simp only [State.meta, accept, Meta.mk.injEq] at hm
  obtain ⟨h1, h2, h3, h4, h5, h6, h7, h8, h9, h10, h11⟩ := hm
  exact ⟨h3, h2, rfl, rfl, ⟨hk.1, hk.2, h1, h4, h7, h9, h10⟩⟩

theorem ran_pure (s : State) (u : State) (hm : u.meta = (accept s).meta) (hk : keepsArg s u) :
    ran 0 s.answers s (freshTemps { u with rngCount := s.rngCount, answers := s.answers }) := by
  have := ran_mk s 0 s.answers u hm hk
  simpa using this

theorem bodyGrid {s : State} (_h : s.Inv) {i : Instr} (ha : accepts i s) {g : Grid}
    (hb : bodyOf i (accept s) = Draw.pure { accept s with lanes := g }) :
    ∃ t, exec i s = .next t ∧ ranLinear s t ∧ t.lanes = g := by
  refine ⟨_, exec_pure (check_of_accepts ha) hb, ⟨ran_pure s _ rfl ⟨rfl, rfl⟩, ⟨rfl, rfl, rfl⟩, ⟨rfl, rfl, rfl, rfl, rfl⟩, rfl, rfl⟩, rfl⟩

theorem slice_laneIndices (k : Nat) (f : Nat → Lane) : slice k (laneIndices.map f) = laneIndices.map fun L => shareAt (f L) k := by
  simp [slice, Function.comp_def]

theorem plainAt_slice (k : Nat) (g : Grid) (x y : Nat) : plainAt (slice k g) x y = shareAt (laneXY g x y) k := by
  unfold plainAt slice laneXY laneAt
  simp only [List.getD_eq_getElem?_getD, List.getElem?_map]
  cases g[x % 5 + 5 * (y % 5)]? <;> rfl

theorem shareAt_columnParity {D : Nat} {g : Grid} (h : gridOk D g) (k x : Nat) :
    shareAt (columnParity g x) k = plainParity (slice k g) x := by
  have hl := fun x y => length_laneXY h x y
  simp only [columnParity, plainParity, plainAt_slice]
  rw [shareAt_gXor _ _ (by simp [hl]), shareAt_gXor _ _ (by simp [hl]), shareAt_gXor _ _ (by simp [hl]), shareAt_gXor _ _ (by simp [hl])]

theorem xy_lt {x y : Nat} (_hx : x < 5) (_hy : y < 5) : x % 5 + 5 * (y % 5) < 25 := by omega

theorem laneXY_map (f : Nat → Lane) {x y : Nat} (hx : x < 5) (hy : y < 5) : laneXY (laneIndices.map f) x y = f (x + 5 * y) := by
  rw [laneXY, laneAt_map f (xy_lt hx hy)]; congr 1; omega

theorem laneXY_eq (g : Grid) {x y : Nat} (hx : x < 5) (hy : y < 5) : laneXY g x y = laneAt g (x + 5 * y) := by
  rw [laneXY]; congr 1; omega

theorem laneAt_pi {D : Nat} {g : Grid} (h : gridOk D g) {L : Nat} (hL : L < 25) : laneAt (pi g) L = laneAt g (piSource.getD L 0) := by
  rw [pi_eq h]
  have : L < piSource.length := by simpa [piSource] using hL
  simp [laneAt, List.getD_eq_getElem?_getD, this]

theorem raw_check {i j : Instr} {s : State} (h : check i s = none) (hi : isRaw i = true) (hj : isRaw j = true) (hw : j.wellFormed = true) :
    check j s = none := by
  obtain ⟨h1, h2, -, -⟩ := check_none h
  refine check_raw hj ⟨h1 hi, ?_⟩ hw
  have : phaseFree s.sph = true := by cases i <;> first | exact h2 | cases hi
  simpa [phaseFree] using this

theorem exec_completed {i : Instr} {s t : State} (he : exec i s = .next t) (ht : completed t) :
    check i s = none ∧ ∃ u p, bodyOf i (accept s) s.port = .done u p ∧ t = freshTemps { u with rngCount := p.count, answers := p.answers } := by
  cases hc : check i s with
  | some e =>
    rw [exec_of_rejected hc] at he; cases he
    exact absurd ht.1 (check_ne_rng hc).2.2
  | none =>
    rw [exec_of_accepted hc] at he
    refine ⟨rfl, ?_⟩
    cases hb : bodyOf i (accept s) s.port with
    | done u p => rw [hb] at he; cases he; exact ⟨u, p, rfl, rfl⟩
    | failed p => rw [hb] at he; cases he; cases ht.1
    | waiting p => rw [hb] at he; cases he; cases ht.2

end Sys2Proof.Machine
end

