-- ==== Sys2Proof/Laws/Rounds.lean ====
section
/-! SUPPORT. The words each lane of CHI, each round and each loop draws, and raw commands run one after another (R206, R208, R209, R221). -/

namespace Sys2Proof.Machine

/-- The values of a collecting loop whose passes each draw `m` words. -/
def eachOf {ι α : Type} (g : ι → List Word → α) (m : Nat) : List ι → List Word → List α
  | [], _ => []
  | x :: xs, ws => g x (ws.take m) :: eachOf g m xs (ws.drop m)

theorem takes_each {ι α : Type} {f : ι → Draw α} {m : Nat} {g : ι → List Word → α} (h : ∀ x, Takes (f x) m (g x)) :
    ∀ xs : List ι, Takes (Draw.each f xs) (m * xs.length) (eachOf g m xs)
  | [] => takes_congr (takes_pure []) fun ws h => rfl
  | x :: xs => by
    have := takes_bind (k := fun a => Draw.map (a :: ·) (Draw.each f xs)) (g := fun ws vs => g x ws :: eachOf g m xs vs) (h x) fun ws _ => takes_map (g x ws :: ·) (takes_each h xs)
    have e : m + m * xs.length = m * (x :: xs).length := by simp [Nat.mul_succ]; omega
    rw [← e]
    exact this

theorem getElem?_eachOf {ι α : Type} (g : ι → List Word → α) (m : Nat) : ∀ (xs : List ι) (ws : List Word) (L : Nat),
    (eachOf g m xs ws)[L]? = xs[L]?.map fun x => g x ((ws.drop (L * m)).take m)
  | [], _, _ => by simp [eachOf]
  | x :: xs, ws, 0 => by simp [eachOf]
  | x :: xs, ws, L + 1 => by
    simp only [eachOf, List.getElem?_cons_succ, getElem?_eachOf g m xs, List.drop_drop]
    congr 3
    rw [Nat.succ_mul, Nat.add_comm]

def chiOf (D : Nat) (B : Grid) (L : Nat) (ws : List Word) : Lane :=
  gXor (laneXY B (L % 5) (L / 5)) (andShares D (gNot D (laneXY B (L % 5 + 1) (L / 5))) (laneXY B (L % 5 + 2) (L / 5)) (matrixOf D ws))

theorem takes_chi (D : Nat) (g : Grid) : Takes (chi D g) (25 * (D * (D + 1) / 2)) (eachOf (chiOf D g) (D * (D + 1) / 2) laneIndices) := by
  have := takes_each (f := chiLane D g) (g := chiOf D g) (fun L => takes_map _ (takes_gAnd D _ _)) laneIndices
  rwa [show D * (D + 1) / 2 * laneIndices.length = 25 * (D * (D + 1) / 2) by simp [laneIndices, Nat.mul_comm]] at this

theorem takes_round (D i : Nat) (g : Grid) : Takes (round D i g) (25 * (D * (D + 1) / 2))
    (fun ws => iota i (eachOf (chiOf D (pi (rho (theta g)))) (D * (D + 1) / 2) laneIndices ws)) :=
  takes_map _ (takes_chi D _)

def foldOf {ι σ : Type} (g : σ → ι → List Word → σ) (m : Nat) : List ι → σ → List Word → σ
  | [], a, _ => a
  | x :: xs, a, ws => foldOf g m xs (g a x (ws.take m)) (ws.drop m)

theorem takes_fold {ι σ : Type} {f : σ → ι → Draw σ} {m : Nat} {g : σ → ι → List Word → σ} (h : ∀ a x, Takes (f a x) m (g a x)) :
    ∀ (xs : List ι) (a : σ), Takes (Draw.fold f xs a) (m * xs.length) (foldOf g m xs a)
  | [], a => takes_congr (takes_pure a) fun ws h => rfl
  | x :: xs, a => by
    have := takes_bind (k := Draw.fold f xs) (g := fun ws vs => foldOf g m xs (g a x ws) vs) (h a x) fun ws _ => takes_fold h xs (g a x ws)
    have e : m + m * xs.length = m * (x :: xs).length := by simp [Nat.mul_succ]; omega
    rw [← e]
    exact this

/-- `s` after raw commands: accepted, with a new grid, zero `Rm`, the words drawn counted, and some temporaries. -/
def afterRaw (s : State) (g : Grid) (c : Word) (rest : List Answer) (T : Temps) (k : Nat) (rm : RandMatrix) : State :=
  { accept s with lanes := g, rm := rm, rngCount := c, answers := rest, temps := T, freeTick := k }

theorem check_after (i : Instr) (s : State) (g n rest T k rm) : check i (afterRaw s g n rest T k rm) = check i s := check_congr rfl rfl rfl rfl rfl

theorem run_after {s : State} (h : s.running = none) (g c as T k rm) : (afterRaw s g c as T k rm).running = none := h

theorem exec_chi {t : State} {D : Nat} {g : Grid} (hD : t.params.D = D) (hg : t.lanes = g) {ws : List Word} {rest : List Answer} (hc : check .chi t = none) (hs : t.answers = ws.map .word ++ rest)
    (hl : ws.length = 25 * (D * (D + 1) / 2)) :
    exec .chi t = .next (freshTemps { (accept t).setGridDiscard (eachOf (chiOf D g) (D * (D + 1) / 2) laneIndices ws) with
      rngCount := t.rngCount + BitVec.ofNat 64 (25 * (D * (D + 1) / 2)), answers := rest }) := by
  subst hD hg
  exact exec_takes hc (takes_map (accept t).setGridDiscard (takes_chi t.params.D t.lanes)) hs hl

theorem exec_lin {i : Instr} {f : Grid → Grid} (hf : ∀ s, bodyOf i s = Draw.pure { s with lanes := f s.lanes }) {t : State} (hc : check i t = none) :
    exec i t = .next (freshTemps { accept t with lanes := f t.lanes }) := exec_pure hc (hf _)

theorem lin_after {i : Instr} {f : Grid → Grid} (hf : ∀ s, bodyOf i s = Draw.pure { s with lanes := f s.lanes }) {s : State} (hc : check i s = none)
    (g c as T k rm) : exec i { afterRaw s g c as T k rm with arg := s.arg } = .next (afterRaw s (f g) c as (Config.freeTemps k) (k + 1) rm) := by
  have : check i { afterRaw s g c as T k rm with arg := s.arg } = none := (check_congr rfl rfl rfl rfl rfl).trans hc
  rw [exec_lin hf this]; rfl

theorem lin_first {i : Instr} {f : Grid → Grid} (hf : ∀ s, bodyOf i s = Draw.pure { s with lanes := f s.lanes }) {s : State} (hc : check i s = none) :
    exec i { s with arg := s.arg } = .next (afterRaw s (f s.lanes) s.rngCount s.answers (Config.freeTemps s.freeTick) (s.freeTick + 1) s.rm) := by
  have : check i { s with arg := s.arg } = none := hc
  rw [exec_lin hf this]; rfl

theorem chi_after {s : State} (hc : check .chi s = none) {ws : List Word} {rest : List Answer} (hl : ws.length = 25 * (s.params.D * (s.params.D + 1) / 2))
    (g c T k rm) : exec .chi { afterRaw s g c (ws.map .word ++ rest) T k rm with arg := s.arg }
      = .next (afterRaw s (eachOf (chiOf s.params.D g) (s.params.D * (s.params.D + 1) / 2) laneIndices ws) (c + BitVec.ofNat 64 (25 * (s.params.D * (s.params.D + 1) / 2))) rest (Config.freeTemps k) (k + 1) (zeroMatrix s.params.D)) := by
  have : check .chi { afterRaw s g c (ws.map .word ++ rest) T k rm with arg := s.arg } = none := (check_congr rfl rfl rfl rfl rfl).trans hc
  rw [exec_chi (t := { afterRaw s g c (ws.map Answer.word ++ rest) T k rm with arg := s.arg }) (D := s.params.D) (g := g) rfl rfl this rfl hl]; rfl

end Sys2Proof.Machine
end

