-- ==== Sys2Proof/Laws/Shares.lean ====
section
/-! SUPPORT. Which drawn word lands in which share, in closed form: of a masked word, of the permutation, and of the bodies
of SABSORB, SFINAL and SSQUEEZE (R97, R206, R209, R261 to R263). -/

namespace Sys2Proof.Machine

/-! ### Loops -/

theorem fold_append {ι σ : Type} (f : σ → ι → Draw σ) : ∀ (xs ys : List ι) (a : σ),
    Draw.fold f (xs ++ ys) a = Draw.bind (Draw.fold f xs a) (Draw.fold f ys)
  | [], _, _ => rfl
  | x :: xs, ys, a => by
    funext p
    simp only [List.cons_append, Draw.fold, Draw.bind]
    cases f a x p with
    | done b q => simp only [fold_append f xs ys b, Draw.bind]
    | failed q => rfl
    | waiting q => rfl

theorem eachOf_eq_map (f : Nat → List Word → Lane) (m : Nat) (ws : List Word) :
    eachOf f m laneIndices ws = laneIndices.map fun L => f L ((ws.drop (L * m)).take m) := by
  refine List.ext_getElem? fun L => ?_
  rw [getElem?_eachOf, List.getElem?_map]
  by_cases h : L < 25
  · simp [laneIndices, h]
  · simp [laneIndices, h]

theorem foldOf_range' {σ : Type} (g : σ → Nat → List Word → σ) (m : Nat) (ws : List Word) : ∀ (n k : Nat) (a : σ),
    foldOf g m (List.range' k n) a (ws.drop (k * m))
      = (List.range' k n).foldl (fun a i => g a i ((ws.drop (i * m)).take m)) a
  | 0, _, _ => rfl
  | n + 1, k, a => by
    rw [List.range'_succ, foldOf, List.foldl_cons, List.drop_drop, ← foldOf_range' g m ws n (k + 1)]
    congr 2
    rw [Nat.succ_mul]

/-! ### The permutation -/

theorem lane_eq_shares {D : Nat} {a : Lane} (h : a.length = D + 1) : a = (List.range (D + 1)).map (shareAt a) := by
  refine List.ext_getElem (by simp [h]) fun k h1 h2 => ?_
  simp [shareAt, List.getD_eq_getElem?_getD, h1]

theorem lane_eq_of_shares {D : Nat} {a : Lane} {f : Nat → Word} (h : a.length = D + 1) (hf : ∀ k ≤ D, shareAt a k = f k) :
    a = (List.range (D + 1)).map f := by
  rw [lane_eq_shares h]
  exact List.map_congr_left fun k hk => hf k (by simpa [Nat.lt_succ_iff] using hk)

theorem chiOf_shares {D : Nat} {g : Grid} (h : gridOk D g) (L : Nat) {ws : List Word} (hl : ws.length = andDraws D) :
    chiOf D g L ws = (List.range (D + 1)).map fun k => shareAt (laneXY g (L % 5) (L / 5)) k ^^^
      andShare D (notShare D (laneXY g (L % 5 + 1) (L / 5))) (shareAt (laneXY g (L % 5 + 2) (L / 5))) ws k := by
  have h0 := fun x y => length_laneXY h x y
  have h1 : (gNot D (laneXY g (L % 5 + 1) (L / 5))).length = D + 1 := by simp [h0]
  have h2 := length_andShares D _ _ (matrixOf D ws) h1 (h0 (L % 5 + 2) (L / 5))
  refine lane_eq_of_shares (by simp only [chiOf, length_gXor, h0, h2, Nat.min_self]) fun k hk => ?_
  rw [chiOf, shareAt_gXor _ _ (by rw [h0, h2]), shareAt_andShares_eq h1 (h0 _ _) hl hk]
  congr 1
  have e : ∀ j ≤ D, shareAt (gNot D (laneXY g (L % 5 + 1) (L / 5))) j = notShare D (laneXY g (L % 5 + 1) (L / 5)) j :=
    fun j hj => shareAt_gNot (h0 _ _) hj
  unfold andShare
  rw [e k hk]
  congr 2
  exact xorAll_map_congr fun i hi => by rw [e i (by have := List.mem_range.mp hi; omega)]

theorem takes_round_shares {D : Nat} {g : Grid} (h : gridOk D g) (i : Nat) :
    Takes (round D i g) (25 * andDraws D) (roundShares D i g) := by
  refine takes_congr (takes_round D i g) fun ws hl => ?_
  show iota i (eachOf _ _ laneIndices ws) = iota i (chiShares D _ ws)
  refine congrArg (iota i) ?_
  rw [eachOf_eq_map, chiShares]
  refine map_laneIndices_congr fun L hL => ?_
  refine chiOf_shares (gridOk_pi (gridOk_rho (gridOk_theta h))) L ?_
  have hl' : ws.length = 25 * andDraws D := hl
  rw [List.length_take, List.length_drop]
  show min (andDraws D) (ws.length - L * andDraws D) = _
  have : L * andDraws D + andDraws D ≤ 25 * andDraws D := by
    rw [← Nat.succ_mul]; exact Nat.mul_le_mul_right _ hL
  omega

theorem gridOk_roundShares {D : Nat} (i : Nat) (g : Grid) (ws : List Word) : gridOk D (roundShares D i g ws) :=
  gridOk_iota (gridOk_map fun _ _ => by simp) i

/-- The permutation, share by share: which of its draws goes into which share. -/
theorem takes_permute {D : Nat} {g : Grid} (h : gridOk D g) : Takes (permute D g) (permuteDraws D) (permuteShares D g) := by
  have key : ∀ (n k : Nat) (g : Grid), gridOk D g → Takes (Draw.fold (fun g i => round D i g) (List.range' k n) g)
      (25 * andDraws D * n) (foldOf (fun g i => roundShares D i g) (25 * andDraws D) (List.range' k n) g) := by
    intro n
    induction n with
    | zero => exact fun k g _ => takes_congr (takes_pure g) fun ws _ => rfl
    | succ n ih =>
      intro k g hg
      have := takes_bind (k := Draw.fold (fun g i => round D i g) (List.range' (k + 1) n))
        (g := fun ws vs => foldOf (fun g i => roundShares D i g) (25 * andDraws D) (List.range' (k + 1) n) (roundShares D k g ws) vs)
        (takes_round_shares hg k) fun ws _ => ih (k + 1) _ (gridOk_roundShares k g ws)
      rw [show 25 * andDraws D * (n + 1) = 25 * andDraws D + 25 * andDraws D * n by rw [Nat.mul_succ, Nat.add_comm]]
      exact this
  have := key 24 0 g h
  rw [← List.range_eq_range', permuteDraws_eq] at this
  refine takes_congr this fun ws _ => ?_
  have e := foldOf_range' (fun g i => roundShares D i g) (25 * andDraws D) ws 24 0 g
  rw [Nat.zero_mul, List.drop_zero, ← List.range_eq_range'] at e
  exact e

theorem takes_permuteState {s : State} (h : gridOk s.params.D s.lanes) :
    Takes (permuteState s) (permuteDraws s.params.D) fun ws => s.setGridDiscard (permuteShares s.params.D s.lanes ws) :=
  takes_map _ (takes_permute h)

/-! ### Masked words -/

theorem takes_absorbLane {s : State} (h : gridOk s.params.D s.lanes) {L : Nat} (hL : L < 25) (w : Word) :
    Takes (absorbLane L w s) s.params.D fun ws => { s with lanes := maskInto s.params.D L w ws s.lanes } := by
  refine takes_congr (takes_map _ (takes_gMask _ w)) fun ws hl => ?_
  have h1 := length_laneAt h hL
  show ({ s with lanes := _ } : State) = _
  congr 1
  unfold maskInto
  congr 1
  refine lane_eq_of_shares (by simp [h1, hl]) fun k hk => ?_
  rw [shareAt_gXor _ _ (by simp [h1, hl]), shareAt_mask hl hk]

theorem gridOk_maskInto {D : Nat} {g : Grid} (h : gridOk D g) (L : Nat) (w : Word) (ws : List Word) :
    gridOk D (maskInto D L w ws g) := gridOk_set h L (by simp)

theorem gridOk_maskLanes {D : Nat} (w : Nat → Word) : ∀ (Ls : List Nat) (g : Grid) (ws : List Word), gridOk D g →
    gridOk D (maskLanes D w Ls g ws)
  | [], _, _, h => h
  | L :: Ls, _, _, h => gridOk_maskLanes w Ls _ _ (gridOk_maskInto h L _ _)

theorem takes_maskLanes (w : Nat → Word) : ∀ (Ls : List Nat) (u : State), gridOk u.params.D u.lanes → (∀ L ∈ Ls, L < 25) →
    Takes (Draw.fold (fun t L => absorbLane L (w L) t) Ls u) (u.params.D * Ls.length) fun ws =>
      { u with lanes := maskLanes u.params.D w Ls u.lanes ws }
  | [], u, _, _ => takes_congr (takes_pure u) fun _ _ => rfl
  | L :: Ls, u, h, hL => by
    have := takes_bind (m := u.params.D * Ls.length) (f := fun ws => { u with lanes := maskInto u.params.D L (w L) ws u.lanes })
      (k := Draw.fold (fun t L => absorbLane L (w L) t) Ls)
      (g := fun ws vs => { u with lanes := maskLanes u.params.D w Ls (maskInto u.params.D L (w L) ws u.lanes) vs })
      (takes_absorbLane h (hL L (by simp)) (w L)) fun ws _ =>
        takes_maskLanes w Ls { u with lanes := maskInto u.params.D L (w L) ws u.lanes } (gridOk_maskInto h L _ _)
          fun M hM => hL M (by simp [hM])
    rw [List.length_cons, Nat.mul_succ, Nat.add_comm]
    exact this

theorem maskLanes_congr {D : Nat} {w v : Nat → Word} : ∀ {Ls : List Nat}, (∀ L ∈ Ls, w L = v L) → ∀ (g : Grid) (ws : List Word),
    maskLanes D w Ls g ws = maskLanes D v Ls g ws
  | [], _, _, _ => rfl
  | L :: Ls, h, g, ws => by
    rw [maskLanes, maskLanes, h L (by simp)]
    exact maskLanes_congr (fun M hM => h M (by simp [hM])) _ _

/-! ### SABSORB -/

theorem getLsbD_leWord_bytesOf (w : Word) : ∀ (n : Nat), n ≤ 8 → ∀ i < 64, (leWord (bytesOf w n)).getLsbD i = (decide (i < 8 * n) && w.getLsbD i)
  | 0, _, i, _ => by simp [bytesOf, leWord]
  | n + 1, hn, i, hi => by
    have e : bytesOf w (n + 1) = bytesOf w n ++ [byteOf w n] := by simp [bytesOf, List.range_succ]
    rw [e, leWord_concat, BitVec.getLsbD_or, getLsbD_leWord_bytesOf w n (by omega) i hi, show (bytesOf w n).length = n by simp [bytesOf]]
    simp only [byteAt, byteOf, BitVec.getLsbD_shiftLeft, BitVec.getLsbD_setWidth, BitVec.getLsbD_extractLsb', hi, decide_true, Bool.true_and]
    by_cases h1 : i < 8 * n
    · have h2 : i < 8 * (n + 1) := by omega
      simp [h1, h2]
    · by_cases h2 : i < 8 * (n + 1)
      · have h3 : i - 8 * n < 8 := by omega
        have h4 : i - 8 * n < 64 := by omega
        have h5 : 8 * n + (i - 8 * n) = i := by omega
        simp [h1, h2, h3, h4, h5]
      · have h3 : ¬ i - 8 * n < 8 := by omega
        simp [h1, h2, h3]

/-- The bytes of ARG that fill a lane up are those a left shift keeps. -/
theorem leWord_bytesOf_shift (w : Word) (p : Nat) (hp : p ≤ 8) : leWord (bytesOf w (8 - p)) <<< (8 * p) = w <<< (8 * p) := by
  apply BitVec.eq_of_getLsbD_eq
  intro i hi
  simp only [BitVec.getLsbD_shiftLeft, hi, decide_true, Bool.true_and]
  by_cases h : i < 8 * p
  · simp [h]
  · rw [getLsbD_leWord_bytesOf w (8 - p) (by omega) _ (by omega)]
    have : i - 8 * p < 8 * (8 - p) := by omega
    simp [h, this]

/-- Bytes that complete no lane only fill LACC. -/
theorem fold_absorb_short : ∀ (bs : List Byte) (s : State), s.apos.toNat % 8 + bs.length < 8 → s.apos.toNat < 200 →
    Draw.fold absorbByte bs s
      = Draw.pure { s with
          lacc := s.lacc ||| leWord bs <<< (8 * (s.apos.toNat % 8))
          apos := s.apos + BitVec.ofNat 8 bs.length }
  | [], s, _, _ => by simp [Draw.fold, leWord]
  | b :: bs, s, h, hs => by
    have e1 : (s.apos + 1).toNat = s.apos.toNat + 1 := toNat_add_one (by omega)
    simp only [List.length_cons] at h
    have e2 : (s.apos.toNat + 1) % 8 = s.apos.toNat % 8 + 1 := by omega
    have hb : absorbByte s b = Draw.pure { s with lacc := s.lacc ||| byteAt b (s.apos.toNat % 8), apos := s.apos + 1 } := by
      unfold absorbByte absorbLaneEnd
      rw [if_neg (by simp only [e1]; omega)]
    rw [Draw.fold, hb, pure_bind, fold_absorb_short bs _ (by simp only [e1]; omega) (by simp only [e1]; omega)]
    simp only [e1, e2]
    congr 2
    · rw [BitVec.add_assoc, List.length_cons, Nat.add_comm bs.length 1, BitVec.ofNat_add]; rfl
    · rw [leWord_cons, BitVec.shiftLeft_or_distrib, BitVec.or_assoc, BitVec.or_comm (leWord bs <<< 8 <<< _), ← BitVec.shiftLeft_add]
      congr 3
      omega

theorem bytesOf_append (w : Word) {m n : Nat} (h : m ≤ n) : ∃ zs : List Byte, bytesOf w n = bytesOf w m ++ zs ∧ zs.length = n - m := by
  refine ⟨(List.range' m (n - m)).map (byteOf w), ?_, by simp⟩
  rw [bytesOf, bytesOf, ← List.map_append]
  congr 1
  rw [List.range_eq_range', List.range_eq_range']
  have := List.range'_append_1 (s := 0) (m := m) (n := n - m)
  rw [Nat.zero_add] at this
  rw [this]; congr 1; omega

/-- What follows draws nothing and leaves the lanes: the words and the lanes are those of what came before. -/
theorem takes_bind_still {x : Draw State} {n : Nat} {f : List Word → State} {k : State → Draw State} (hx : Takes x n f)
    (hk : ∀ ws : List Word, ws.length = n → ∃ v : State, k (f ws) = Draw.pure v ∧ v.lanes = (f ws).lanes) :
    ∃ f', Takes (Draw.bind x k) n f' ∧ ∀ ws : List Word, ws.length = n → (f' ws).lanes = (f ws).lanes := by
  have h : ∀ ws : List Word, ∃ v : State, ws.length = n → k (f ws) = Draw.pure v ∧ v.lanes = (f ws).lanes := by
    intro ws
    by_cases hl : ws.length = n
    · obtain ⟨v, hv⟩ := hk ws hl; exact ⟨v, fun _ => hv⟩
    · exact ⟨f ws, fun h => absurd h hl⟩
  choose g hg using h
  have := takes_bind (k := k) (m := 0) (g := fun ws _ => g ws) hx fun ws hl => by rw [(hg ws hl).1]; exact takes_pure _
  refine ⟨fun ws => g (ws.take n), this, fun ws hl => ?_⟩
  show (g (ws.take n)).lanes = _
  rw [List.take_of_length_le (by omega)]
  exact (hg ws hl).2

/-- SABSORB that completes no lane changes no lane. -/
theorem sabsorb_short {s : State} (h : absorbShape s) {n : BitVec 6} (hc : lanesCompleted s n.toNat = 0) :
    ∃ u : State, bodySabsorb n s = Draw.pure u ∧ u.lanes = s.lanes := by
  obtain ⟨-, ⟨-, -, hr⟩, hap, -⟩ := h
  unfold lanesCompleted at hc
  exact ⟨_, fold_absorb_short _ s (by rw [length_bytesOf]; omega) (by omega), rfl⟩

/-- SABSORB that completes a lane: the lane takes `D` draws, and a block it completes the draws of a permutation. -/
theorem sabsorb_lane {s : State} (h : absorbShape s) {n : BitVec 6} (hn : n.toNat ≤ 8) (hc : lanesCompleted s n.toNat = 1) :
    ∃ f, Takes (bodySabsorb n s)
        (s.params.D + (if blocksCompleted s n.toNat = 1 then permuteDraws s.params.D else 0)) f ∧
      ∀ ws : List Word, ws.length = s.params.D + (if blocksCompleted s n.toNat = 1 then permuteDraws s.params.D else 0) →
        (f ws).lanes =
        let g := maskInto s.params.D (s.apos.toNat / 8) (s.lacc ||| s.arg <<< (8 * (s.apos.toNat % 8))) (ws.take s.params.D) s.lanes
        if blocksCompleted s n.toNat = 1 then permuteShares s.params.D g (ws.drop s.params.D) else g := by
  obtain ⟨hg, ⟨hr8, hr1, hr2⟩, hap, -⟩ := h
  unfold lanesCompleted at hc
  have hp : s.apos.toNat % 8 < 8 := Nat.mod_lt _ (by omega)
  generalize hpp : s.apos.toNat % 8 = p at *
  obtain ⟨zs, hz, hzl⟩ := bytesOf_append s.arg (m := 8 - p) (n := n.toNat) (by omega)
  have hx : bytesOf s.arg (8 - p) = bytesOf s.arg (7 - p) ++ [byteOf s.arg (7 - p)] := by
    rw [show 8 - p = 7 - p + 1 by omega]; simp [bytesOf, List.range_succ]
  have e1 : (s.apos + BitVec.ofNat 8 (bytesOf s.arg (7 - p)).length).toNat = s.apos.toNat + (7 - p) := by
    rw [length_bytesOf, BitVec.toNat_add]; simp; omega
  have e2 : (s.apos + BitVec.ofNat 8 (bytesOf s.arg (7 - p)).length + 1).toNat = s.apos.toNat + (8 - p) := by
    rw [toNat_add_one (by omega), e1]; omega
  have e3 : s.lacc ||| leWord (bytesOf s.arg (7 - p)) <<< (8 * p) ||| byteAt (byteOf s.arg (7 - p)) ((s.apos.toNat + (7 - p)) % 8)
      = s.lacc ||| s.arg <<< (8 * p) := by
    rw [← leWord_bytesOf_shift s.arg p (by omega), hx, leWord_concat, BitVec.shiftLeft_or_distrib, BitVec.or_assoc, length_bytesOf]
    congr 2
    rw [byteAt, byteAt, ← BitVec.shiftLeft_add]
    congr 1; omega
  have hL : (s.apos.toNat + (8 - p)) / 8 - 1 = s.apos.toNat / 8 := by omega
  have hbody : bodySabsorb n s = Draw.bind (absorbByte { s with
      lacc := s.lacc ||| leWord (bytesOf s.arg (7 - p)) <<< (8 * p)
      apos := s.apos + BitVec.ofNat 8 (bytesOf s.arg (7 - p)).length } (byteOf s.arg (7 - p))) (Draw.fold absorbByte zs) := by
    unfold bodySabsorb
    rw [hz, hx, List.append_assoc, fold_append, fold_absorb_short _ s (by rw [hpp, length_bytesOf]; omega) (by omega), pure_bind, hpp]
    rfl
  let u : State := { s with
    lacc := s.lacc ||| s.arg <<< (8 * p)
    apos := s.apos + BitVec.ofNat 8 (bytesOf s.arg (7 - p)).length + 1 }
  have hbyte : absorbByte { s with
      lacc := s.lacc ||| leWord (bytesOf s.arg (7 - p)) <<< (8 * p)
      apos := s.apos + BitVec.ofNat 8 (bytesOf s.arg (7 - p)).length } (byteOf s.arg (7 - p))
      = Draw.bind (absorbLane (s.apos.toNat / 8) u.lacc u) fun t => absorbBlockEnd { t with lacc := 0 } := by
    unfold absorbByte absorbLaneEnd
    simp only [e1, e2, e3, hL]
    rw [if_pos (by omega)]
  rw [hbody, hbyte]
  have hmask := takes_absorbLane (s := u) (L := s.apos.toNat / 8) hg (by omega) u.lacc
  have hshort : ∀ t : State, t.apos.toNat % 8 = 0 → t.apos.toNat < 200 → ∃ v : State, Draw.fold absorbByte zs t = Draw.pure v ∧ v.lanes = t.lanes :=
    fun t h1 h2 => ⟨_, fold_absorb_short zs t (by omega) h2, rfl⟩
  let w (ws : List Word) : State := { u with lanes := maskInto s.params.D (s.apos.toNat / 8) u.lacc ws s.lanes, lacc := 0 }
  by_cases hb : s.apos.toNat + (8 - p) = s.rate.toNat
  · have hb1 : blocksCompleted s n.toNat = 1 := by unfold blocksCompleted; rw [if_pos (by omega)]
    have hrate : u.apos = s.rate := BitVec.eq_of_toNat_eq (by rw [← hb]; exact e2)
    have := takes_bind (k := fun t : State => absorbBlockEnd { t with lacc := 0 }) (m := permuteDraws s.params.D)
      (g := fun ws vs => { (w ws).setGridDiscard (permuteShares s.params.D (w ws).lanes vs) with apos := 0 }) hmask fun ws _ => by
        show Takes (absorbBlockEnd (w ws)) _ _
        unfold absorbBlockEnd
        rw [if_pos (show (w ws).apos = (w ws).rate from hrate)]
        exact takes_map _ (takes_permuteState (s := w ws) (gridOk_maskInto hg _ _ _))
    obtain ⟨f, hf, hl⟩ := takes_bind_still this fun ws _ => hshort _ (show (0 : BitVec 8).toNat % 8 = 0 from rfl) (show (0 : BitVec 8).toNat < 200 by decide)
    rw [if_pos hb1]
    refine ⟨f, hf, fun ws hlen => (hl ws hlen).trans ?_⟩
    rw [if_pos hb1]; rfl
  · have hb1 : ¬ blocksCompleted s n.toNat = 1 := by unfold blocksCompleted; rw [if_neg (by omega)]; omega
    have hrate : ¬ u.apos = s.rate := fun e => hb (by rw [← e]; exact e2.symm)
    rw [bind_assoc, if_neg hb1, Nat.add_zero]
    obtain ⟨f, hf, hl⟩ := takes_bind_still hmask (k := fun t : State => Draw.bind (absorbBlockEnd { t with lacc := 0 }) (Draw.fold absorbByte zs)) fun ws _ => by
      obtain ⟨v, hv, hvl⟩ := hshort (w ws) (show u.apos.toNat % 8 = 0 by rw [show u.apos.toNat = _ from e2]; omega) (show u.apos.toNat < 200 by rw [show u.apos.toNat = _ from e2]; omega)
      refine ⟨v, ?_, hvl⟩
      show Draw.bind (absorbBlockEnd (w ws)) _ = _
      unfold absorbBlockEnd
      rw [if_neg (show ¬ (w ws).apos = (w ws).rate from hrate), pure_bind, hv]
    refine ⟨f, hf, fun ws hlen => (hl ws hlen).trans ?_⟩
    rw [if_neg hb1, List.take_of_length_le (by omega)]

/-! ### SFINAL -/

/-- SFINAL, share by share: the lanes of the padded block take `D` draws each, the permutation the draws after them. -/
theorem takes_bodySfinal {s : State} (hg : gridOk s.params.D s.lanes) (hro : rateOk s.rate) :
    Takes (bodySfinal s) (s.params.D * (padLanes s).length + permuteDraws s.params.D) fun ws =>
      { s with
        lanes := permuteShares s.params.D (maskLanes s.params.D (padLane s) (padLanes s) s.lanes (ws.take (s.params.D * (padLanes s).length)))
          (ws.drop (s.params.D * (padLanes s).length))
        rm := zeroMatrix s.params.D
        lacc := 0
        apos := 0
        spos := 0
        delivered := 0
        sph := if s.outLen = 0 then .done else .squeezing } := by
  obtain ⟨hr8, hr1, hr2⟩ := hro
  refine takes_congr (takes_bind (m := permuteDraws s.params.D)
    (g := fun ws vs => startSqueeze { ({ s with
      lanes := maskLanes s.params.D (padLane s) (padLanes s) s.lanes ws, sph := .padded, lacc := 0, apos := 0 } : State).setGridDiscard
        (permuteShares s.params.D (maskLanes s.params.D (padLane s) (padLanes s) s.lanes ws) vs) with sph := .permuted })
    (takes_maskLanes (padLane s) (padLanes s) { s with sph := .padded } hg fun L hL => by
      simp only [padLanes, List.mem_range'_1] at hL; omega)
    fun ws _ => takes_map _ (takes_permuteState (s := { s with
      lanes := maskLanes s.params.D (padLane s) (padLanes s) s.lanes ws, sph := .padded, lacc := 0, apos := 0 })
      (gridOk_maskLanes _ _ _ _ hg))) fun ws _ => rfl

theorem maskLanes_take {D : Nat} (w : Nat → Word) : ∀ (Ls : List Nat) (g : Grid) (ws : List Word),
    maskLanes D w Ls g (ws.take (D * Ls.length)) = maskLanes D w Ls g ws
  | [], _, _ => rfl
  | L :: Ls, g, ws => by
    rw [maskLanes, maskLanes, List.length_cons, Nat.mul_succ, List.take_take, Nat.min_eq_left (Nat.le_add_left _ _),
      List.drop_take, Nat.add_sub_cancel, maskLanes_take w Ls]

/-! ### SSQUEEZE -/

/-- Output bytes inside one rate window draw nothing and change SPOS only. -/
theorem fold_squeeze_short : ∀ (ks : List Nat) (s : State) (r : Word), s.spos.toNat + ks.length ≤ s.rate.toNat →
    ∃ r', Draw.fold squeezeByte ks (s, r) = Draw.pure ({ s with spos := s.spos + BitVec.ofNat 8 ks.length }, r')
  | [], s, r, _ => ⟨r, by simp [Draw.fold]⟩
  | k :: ks, s, r, h => by
    have := s.rate.isLt
    simp only [List.length_cons] at h
    have e1 : (s.spos + 1).toNat = s.spos.toNat + 1 := toNat_add_one (by omega)
    have hne : ¬ s.spos = s.rate := fun e => by rw [e] at h; omega
    have hb : squeezeByte (s, r) k = Draw.pure ({ s with spos := s.spos + 1 }, r ||| byteAt (squeezedByte s) k) := by
      unfold squeezeByte openWindow
      rw [if_neg hne]; rfl
    obtain ⟨r', hr'⟩ := fold_squeeze_short ks { s with spos := s.spos + 1 } (r ||| byteAt (squeezedByte s) k) (by simp only [e1]; omega)
    refine ⟨r', ?_⟩
    rw [Draw.fold, hb, pure_bind, hr', BitVec.add_assoc, List.length_cons, Nat.add_comm ks.length 1, BitVec.ofNat_add]; rfl

/-- SSQUEEZE that opens no window changes no lane. -/
theorem ssqueeze_short {s : State} {n : BitVec 6} (hw : windowsOpened s n.toNat = 0) :
    ∃ u : State, bodySsqueeze n s = Draw.pure u ∧ u.lanes = s.lanes ∧ u.spos = s.spos + BitVec.ofNat 8 n.toNat := by
  obtain ⟨r', hr'⟩ := fold_squeeze_short (List.range n.toNat) s 0 (by
    rw [List.length_range]
    unfold windowsOpened at hw
    by_contra hlt
    rw [if_pos (by omega)] at hw
    omega)
  rw [List.length_range] at hr'
  refine ⟨deliver n ({ s with spos := s.spos + BitVec.ofNat 8 n.toNat }, r'), ?_, rfl, rfl⟩
  unfold bodySsqueeze Draw.map
  rw [hr', pure_bind]

/-- SSQUEEZE that opens a window permutes once, with all its draws. -/
theorem ssqueeze_window {s : State} (h : squeezeShape s) {n : BitVec 6} (hn : n.toNat ≤ 8) (hw : windowsOpened s n.toNat = 1) :
    ∃ f, Takes (bodySsqueeze n s) (permuteDraws s.params.D) f ∧ ∀ ws : List Word, ws.length = permuteDraws s.params.D →
      (f ws).lanes = permuteShares s.params.D s.lanes ws ∧
        (f ws).spos = BitVec.ofNat 8 (s.spos.toNat + n.toNat - s.rate.toNat) := by
  obtain ⟨hg, ⟨hr8, hr1, hr2⟩, hle⟩ := h
  unfold windowsOpened at hw
  have hlt : s.rate.toNat < s.spos.toNat + n.toNat := by
    by_contra hc; rw [if_neg hc] at hw; omega
  generalize ha : s.rate.toNat - s.spos.toNat = a
  obtain ⟨b, hb⟩ : ∃ b, n.toNat = a + (b + 1) := ⟨n.toNat - a - 1, by omega⟩
  obtain ⟨r1, h1⟩ := fold_squeeze_short (List.range' 0 a) s 0 (by rw [List.length_range']; omega)
  rw [List.length_range'] at h1
  have hs1 : s.spos + BitVec.ofNat 8 a = s.rate := BitVec.eq_of_toNat_eq (by
    rw [BitVec.toNat_add, BitVec.toNat_ofNat]; omega)
  rw [hs1] at h1
  have hsplit : List.range n.toNat = List.range' 0 a ++ a :: List.range' (a + 1) b := by
    rw [List.range_eq_range', hb, ← List.range'_succ]
    have := List.range'_append_1 (s := 0) (m := a) (n := b + 1)
    rw [Nat.zero_add] at this
    exact this.symm
  have hbody : bodySsqueeze n s = Draw.bind (permuteState { s with spos := s.rate }) fun t =>
      Draw.map (deliver n) (Draw.fold squeezeByte (List.range' (a + 1) b)
        ({ t with spos := (0 : BitVec 8) + 1 }, r1 ||| byteAt (squeezedByte { t with spos := 0 }) a)) := by
    unfold bodySsqueeze
    rw [hsplit, fold_append, h1, pure_bind]
    simp only [Draw.fold, squeezeByte, openWindow, if_true, Draw.map, bind_assoc, pure_bind]
  rw [hbody]
  have hs : ∀ t : State, t.rate = s.rate → ∃ r2, Draw.fold squeezeByte (List.range' (a + 1) b)
        ({ t with spos := (0 : BitVec 8) + 1 }, r1 ||| byteAt (squeezedByte { t with spos := 0 }) a)
        = Draw.pure ({ t with spos := (0 : BitVec 8) + 1 + BitVec.ofNat 8 b }, r2) := fun t ht => by
    have := fold_squeeze_short (List.range' (a + 1) b) { t with spos := (0 : BitVec 8) + 1 } (r1 ||| byteAt (squeezedByte { t with spos := 0 }) a) (by
      rw [List.length_range']
      show ((0 : BitVec 8) + 1).toNat + b ≤ t.rate.toNat
      rw [ht, show ((0 : BitVec 8) + 1).toNat = 1 by decide]; omega)
    rwa [List.length_range'] at this
  have key : ∀ ws : List Word, ∃ r2 : Word, Draw.fold squeezeByte (List.range' (a + 1) b)
        ({ ({ s with spos := s.rate } : State).setGridDiscard (permuteShares s.params.D s.lanes ws) with spos := (0 : BitVec 8) + 1 },
          r1 ||| byteAt (squeezedByte { ({ s with spos := s.rate } : State).setGridDiscard (permuteShares s.params.D s.lanes ws) with spos := 0 }) a)
        = Draw.pure ({ ({ s with spos := s.rate } : State).setGridDiscard (permuteShares s.params.D s.lanes ws) with spos := (0 : BitVec 8) + 1 + BitVec.ofNat 8 b }, r2) :=
    fun ws => hs _ rfl
  choose r2 hr2 using key
  have := takes_bind (m := 0)
    (k := fun t : State => Draw.map (deliver n) (Draw.fold squeezeByte (List.range' (a + 1) b)
        ({ t with spos := (0 : BitVec 8) + 1 }, r1 ||| byteAt (squeezedByte { t with spos := 0 }) a)))
    (g := fun ws _ => deliver n ({ ({ s with spos := s.rate } : State).setGridDiscard (permuteShares s.params.D s.lanes ws) with spos := (0 : BitVec 8) + 1 + BitVec.ofNat 8 b }, r2 ws))
    (takes_permuteState (s := { s with spos := s.rate }) hg) fun ws _ => by
      unfold Draw.map
      rw [hr2 ws]
      exact takes_pure _
  refine ⟨_, this, fun ws hl => ⟨?_, ?_⟩⟩
  · show permuteShares s.params.D s.lanes (ws.take (permuteDraws s.params.D)) = _
    rw [List.take_of_length_le (by omega)]
  · show (0 : BitVec 8) + 1 + BitVec.ofNat 8 b = _
    refine BitVec.eq_of_toNat_eq ?_
    rw [BitVec.toNat_add, BitVec.toNat_ofNat, BitVec.toNat_ofNat, show ((0 : BitVec 8) + 1).toNat = 1 by decide]
    omega

end Sys2Proof.Machine
end

