-- ==== Sys2Proof/Laws/Pairs.lean ====
section
/-! SUPPORT. Two runs of one command side by side: from states with equal plaintext, and from states with equal public values (R364, R369). -/

namespace Sys2Proof.Machine

/-- Two computations that, when both end with a value, end with related values. -/
def Related {α β : Type} (R : α → β → Prop) (x : Draw α) (y : Draw β) : Prop :=
  ∀ p q a b p' q', x p = .done a p' → y q = .done b q' → R a b

theorem rel_pure {α β : Type} {R : α → β → Prop} {a : α} {b : β} (h : R a b) : Related R (Draw.pure a) (Draw.pure b) := by
  intro p q a b p' q' e f; cases e; cases f; exact h

theorem bind_done {α β : Type} {x : Draw α} {k : α → Draw β} {p p' : Port} {b : β} (h : Draw.bind x k p = .done b p') :
    ∃ a q, x p = .done a q ∧ k a q = .done b p' := by
  simp only [Draw.bind] at h
  cases hx : x p with
  | done a q => rw [hx] at h; exact ⟨a, q, rfl, h⟩
  | failed q => rw [hx] at h; cases h
  | waiting q => rw [hx] at h; cases h

theorem rel_bind {α β γ δ : Type} {R : α → β → Prop} {S : γ → δ → Prop} {x : Draw α} {y : Draw β} {k : α → Draw γ} {l : β → Draw δ}
    (h : Related R x y) (hk : ∀ a b, R a b → Related S (k a) (l b)) : Related S (Draw.bind x k) (Draw.bind y l) := by
  intro p q c d p' q' e f
  obtain ⟨a, p1, e1, e2⟩ := bind_done e
  obtain ⟨b, q1, f1, f2⟩ := bind_done f
  exact hk a b (h _ _ _ _ _ _ e1 f1) _ _ _ _ _ _ e2 f2

theorem rel_map {α β γ δ : Type} {R : α → β → Prop} {S : γ → δ → Prop} {x : Draw α} {y : Draw β} {f : α → γ} {g : β → δ}
    (h : Related R x y) (hk : ∀ a b, R a b → S (f a) (g b)) : Related S (Draw.map f x) (Draw.map g y) :=
  rel_bind h fun a b hab => rel_pure (hk a b hab)

theorem rel_fold {ι σ τ : Type} {R : σ → τ → Prop} {f : σ → ι → Draw σ} {g : τ → ι → Draw τ}
    (h : ∀ a b x, R a b → Related R (f a x) (g b x)) : ∀ (xs : List ι) (a : σ) (b : τ), R a b → Related R (Draw.fold f xs a) (Draw.fold g xs b)
  | [], _, _, hab => rel_pure hab
  | x :: xs, a, b, hab => rel_bind (h a b x hab) fun a b hab => rel_fold h xs a b hab

theorem always_of_draws {α : Type} {x : Draw α} {n : Nat} {Q : α → Prop} (h : Draws x n Q) : Always Q x := by
  obtain ⟨f, hf, hQ⟩ := h
  intro p a q e
  obtain ⟨as, c⟩ := p
  obtain ⟨ws, rest, rfl, hl⟩ | ⟨ws, rest, rfl, hl⟩ | ⟨ws, rfl, hl⟩ := answers_cases n as
  · rw [hf.done ws rest c hl] at e; cases e; exact hQ ws hl
  · rw [hf.failed ws rest c hl] at e; cases e
  · rw [hf.waiting ws c hl] at e; cases e

theorem rel_always {α β : Type} {P : α → Prop} {Q : β → Prop} {x : Draw α} {y : Draw β} (hx : Always P x) (hy : Always Q y) :
    Related (fun a b => P a ∧ Q b) x y := fun _ _ _ _ _ _ e f => ⟨hx _ _ _ e, hy _ _ _ f⟩

structure plainPair (a b : State) : Prop where
  l : gridOk a.params.D a.lanes
  r : gridOk b.params.D b.lanes
  plain : samePlain a b

theorem values_at {a : State} (L : Nat) : gUnmask (laneAt a.lanes L) = a.values.getD L 0 := (getD_gridValues _ _).symm

theorem plainPair_set {a b : State} (h : plainPair a b) (L : Nat) {m n : Lane} (hm : L < 25 → m.length = a.params.D + 1) (hn : L < 25 → n.length = b.params.D + 1)
    (hv : L < 25 → gUnmask n = gUnmask m) : plainPair (a.setLane L m) (b.setLane L n) := by
  by_cases hL : L < 25
  · refine ⟨gridOk_set h.l L (hm hL), gridOk_set h.r L (hn hL), ?_⟩
    have : (b.setLane L n).values = (a.setLane L m).values := by
      show gridValues (b.lanes.set L n) = gridValues (a.lanes.set L m)
      rw [gridValues_set, gridValues_set, hv hL, show gridValues b.lanes = gridValues a.lanes from h.plain.values]
    exact ⟨this, h.plain.2, h.plain.3, h.plain.4, h.plain.5, h.plain.6, h.plain.7, h.plain.8, h.plain.9, h.plain.10, h.plain.11, h.plain.12⟩
  · have ha : a.setLane L m = a := by
      unfold State.setLane; rw [List.set_eq_of_length_le (by rw [h.l.1]; omega)]
    have hb : b.setLane L n = b := by
      unfold State.setLane; rw [List.set_eq_of_length_le (by rw [h.r.1]; omega)]
    rw [ha, hb]; exact h

theorem plainPair_grid {a b : State} (h : plainPair a b) {g g' : Grid} (hg : gridOk a.params.D g) (hg' : gridOk b.params.D g')
    (hv : gridValues g' = gridValues g) : plainPair (a.setGridDiscard g) (b.setGridDiscard g') :=
  ⟨hg, hg', ⟨hv, h.plain.2, h.plain.3, h.plain.4, h.plain.5, h.plain.6, h.plain.7, h.plain.8, h.plain.9, h.plain.10, h.plain.11, h.plain.12⟩⟩

theorem plainPair_lanes {a b : State} (h : plainPair a b) {g g' : Grid} (hg : gridOk a.params.D g) (hg' : gridOk b.params.D g')
    (hv : gridValues g' = gridValues g) : plainPair { a with lanes := g } { b with lanes := g' } :=
  ⟨hg, hg', ⟨hv, h.plain.2, h.plain.3, h.plain.4, h.plain.5, h.plain.6, h.plain.7, h.plain.8, h.plain.9, h.plain.10, h.plain.11, h.plain.12⟩⟩

theorem rel_absorbLane {a b : State} (h : plainPair a b) (L : Nat) (w : Word) : Related plainPair (absorbLane L w a) (absorbLane L w b) := by
  refine rel_map (rel_always (always_of_draws (draws_gMask a.params.D w)) (always_of_draws (draws_gMask b.params.D w))) ?_
  rintro m n ⟨⟨hm, hv⟩, ⟨hn, hv'⟩⟩
  refine plainPair_set h L (fun hL => by simp [length_laneAt h.l hL, hm]) (fun hL => by simp [length_laneAt h.r hL, hn]) fun hL => ?_
  rw [gUnmask_gXor _ _ (by simp [length_laneAt h.r hL, hn]), gUnmask_gXor _ _ (by simp [length_laneAt h.l hL, hm]), hv, hv', values_at, values_at, h.plain.values]

theorem rel_permuteState {a b : State} (h : plainPair a b) : Related plainPair (permuteState a) (permuteState b) := by
  refine rel_map (rel_always (always_of_draws (draws_permute h.l)) (always_of_draws (draws_permute h.r))) ?_
  rintro g g' ⟨⟨hg, hv⟩, ⟨hg', hv'⟩⟩
  refine plainPair_grid h hg hg' ?_
  rw [hv, hv', show gridValues b.lanes = gridValues a.lanes from h.plain.values]

theorem rel_absorbByte {a b : State} (h : plainPair a b) (x : Byte) : Related plainPair (absorbByte a x) (absorbByte b x) := by
  have hp := h.plain
  have h1 : plainPair { a with lacc := a.lacc ||| byteAt x (a.apos.toNat % 8), apos := a.apos + 1 } { b with lacc := b.lacc ||| byteAt x (b.apos.toNat % 8), apos := b.apos + 1 } :=
    ⟨h.l, h.r, ⟨hp.1, hp.2, hp.3, hp.4, hp.5, hp.6, hp.7, hp.8, by simp [hp.apos], by simp [hp.apos, hp.lacc], hp.11, hp.12⟩⟩
  have hend : ∀ a b, plainPair a b → Related plainPair (absorbBlockEnd a) (absorbBlockEnd b) := by
    intro a b h
    unfold absorbBlockEnd
    rw [h.plain.apos, h.plain.rate]
    split
    · refine rel_map (rel_permuteState h) fun u v huv => ?_
      have hp := huv.plain
      exact ⟨huv.l, huv.r, ⟨hp.1, hp.2, hp.3, hp.4, hp.5, hp.6, hp.7, hp.8, rfl, hp.10, hp.11, hp.12⟩⟩
    · exact rel_pure h
  unfold absorbByte absorbLaneEnd
  have e : b.apos = a.apos := hp.apos
  simp only [e] at h1 ⊢
  split
  · rw [show b.lacc = a.lacc from hp.lacc] at h1 ⊢
    refine rel_bind (rel_absorbLane h1 _ _) fun u v huv => hend _ _ ?_
    have hp := huv.plain
    exact ⟨huv.l, huv.r, ⟨hp.1, hp.2, hp.3, hp.4, hp.5, hp.6, hp.7, hp.8, hp.9, rfl, hp.11, hp.12⟩⟩
  · exact rel_pure h1

theorem rel_squeezeByte {a b : State × Word} (h : plainPair a.1 b.1 ∧ b.2 = a.2) (k : Nat) :
    Related (fun a b : State × Word => plainPair a.1 b.1 ∧ b.2 = a.2) (squeezeByte a k) (squeezeByte b k) := by
  obtain ⟨h, hw⟩ := h
  have ho : Related plainPair (openWindow a.1) (openWindow b.1) := by
    unfold openWindow
    rw [h.plain.spos, h.plain.rate]
    split
    · refine rel_map (rel_permuteState h) fun u v huv => ?_
      have hp := huv.plain
      exact ⟨huv.l, huv.r, ⟨hp.1, hp.2, hp.3, hp.4, hp.5, hp.6, hp.7, hp.8, hp.9, hp.10, rfl, hp.12⟩⟩
    · exact rel_pure h
  refine rel_map ho fun u v huv => ⟨?_, ?_⟩
  · have hp := huv.plain
    exact ⟨huv.l, huv.r, ⟨hp.1, hp.2, hp.3, hp.4, hp.5, hp.6, hp.7, hp.8, hp.9, hp.10, by simp [hp.spos], hp.12⟩⟩
  · simp only [squeezedByte, values_at, huv.plain.spos, huv.plain.values, hw]

theorem rel_body {s s' : State} (h : plainPair s s') (i : Instr) (hc : check i s = none) (hop' : check i s' = none) : Related plainPair (bodyOf i s) (bodyOf i s') := by
  have hp := h.plain
  have hop := (check_eq_none_iff i s).mp hc |>.2.2.2
  have hl : ∀ {L : Nat}, ¬ 25 ≤ L → (laneAt s.lanes L).length = s.params.D + 1 := fun h' => length_laneAt h.l (by omega)
  have hl' : ∀ {L : Nat}, ¬ 25 ≤ L → (laneAt s'.lanes L).length = s'.params.D + 1 := fun h' => length_laneAt h.r (by omega)
  have hv : ∀ L, gUnmask (laneAt s'.lanes L) = gUnmask (laneAt s.lanes L) := fun L => by rw [values_at, values_at, hp.values]
  have hvg : gridValues s'.lanes = gridValues s.lanes := hp.values
  cases i with
  | lmask ld =>
    show Related plainPair (bodyLmask ld s) (bodyLmask ld s')
    refine rel_map (rel_always (always_of_draws (draws_gMask s.params.D s.arg)) (always_of_draws (draws_gMask s'.params.D s'.arg))) ?_
    rintro m n ⟨⟨hm, hmv⟩, ⟨hn, hnv⟩⟩
    exact plainPair_set h _ (fun _ => hm) (fun _ => hn) fun _ => by rw [hmv, hnv, hp.arg]
  | lmxor ld =>
    refine rel_map (rel_always (always_of_draws (draws_gMask s.params.D s.arg)) (always_of_draws (draws_gMask s'.params.D s'.arg))) ?_
    rintro m n ⟨⟨hm, hmv⟩, ⟨hn, hnv⟩⟩
    refine plainPair_set h _ (fun _ => by simp [State.lane, hl hop, hm]) (fun _ => by simp [State.lane, hl' hop, hn]) fun _ => ?_
    rw [State.lane, State.lane, gUnmask_gXor _ _ (by simp [hl' hop, hn]), gUnmask_gXor _ _ (by simp [hl hop, hm]), hmv, hnv, hp.arg, hv]
  | lxorc ld =>
    refine rel_pure (plainPair_set h _ (fun _ => by simp [State.lane, hl hop]) (fun _ => by simp [State.lane, hl' hop]) fun _ => ?_)
    rw [State.lane, State.lane, gUnmask_xorShare0 _ _ (by rw [hl' hop]; omega), gUnmask_xorShare0 _ _ (by rw [hl hop]; omega), hv, hp.arg]
  | lunmask la =>
    refine rel_pure ⟨h.l, h.r, ⟨hp.1, hp.2, ?_, hp.4, hp.5, hp.6, hp.7, hp.8, hp.9, hp.10, hp.11, hp.12⟩⟩
    exact hv _
  | lmov ld la =>
    simp only [badOperand, not_or] at hop
    exact rel_pure (plainPair_set h _ (fun _ => hl hop.2) (fun _ => hl' hop.2) fun _ => hv _)
  | lxor ld la lb =>
    simp only [badOperand, not_or] at hop
    refine rel_pure (plainPair_set h _ (fun _ => by simp [State.lane, hl hop.2.1, hl hop.2.2]) (fun _ => by simp [State.lane, hl' hop.2.1, hl' hop.2.2]) fun _ => ?_)
    simp only [State.lane]
    rw [gUnmask_gXor _ _ (by rw [hl' hop.2.1, hl' hop.2.2]), gUnmask_gXor _ _ (by rw [hl hop.2.1, hl hop.2.2]), hv, hv]
  | lnot ld la =>
    simp only [badOperand, not_or] at hop
    refine rel_pure (plainPair_set h _ (fun _ => by simp [State.lane, hl hop.2]) (fun _ => by simp [State.lane, hl' hop.2]) fun _ => ?_)
    rw [State.lane, State.lane, gUnmask_gNot _ _ (hl' hop.2), gUnmask_gNot _ _ (hl hop.2), hv]
  | lrotl ld la n =>
    simp only [badOperand, not_or] at hop
    refine rel_pure (plainPair_set h _ (fun _ => by simp [State.lane, hl hop.2]) (fun _ => by simp [State.lane, hl' hop.2]) fun _ => ?_)
    rw [State.lane, State.lane, gUnmask_gRotl, gUnmask_gRotl, hv]
  | land ld la lb =>
    simp only [badOperand, not_or] at hop
    refine rel_map (rel_always (always_of_draws (draws_gAnd _ _ _ (hl hop.2.1) (hl hop.2.2))) (always_of_draws (draws_gAnd _ _ _ (hl' hop.2.1) (hl' hop.2.2)))) ?_
    rintro m n ⟨⟨hm, hmv⟩, ⟨hn, hnv⟩⟩
    refine plainPair_grid h (gridOk_set h.l _ hm) (gridOk_set h.r _ hn) ?_
    rw [gridValues_set, gridValues_set, hmv, hnv, State.lane, State.lane, State.lane, State.lane, hv, hv, hvg]
  | stclr => exact rel_pure (plainPair_lanes h (gridOk_zeroGrid _) (gridOk_zeroGrid _) (by rw [gridValues_zeroGrid, gridValues_zeroGrid]))
  | theta => exact rel_pure (plainPair_lanes h (gridOk_theta h.l) (gridOk_theta h.r) (by rw [values_theta h.l, values_theta h.r, hvg]))
  | rho => exact rel_pure (plainPair_lanes h (gridOk_rho h.l) (gridOk_rho h.r) (by rw [values_rho, values_rho, hvg]))
  | pi =>
    show Related plainPair (bodyPi s) (bodyPi s')
    unfold bodyPi
    exact rel_pure (plainPair_lanes h (gridOk_pi h.l) (gridOk_pi h.r) (by rw [values_pi h.l, values_pi h.r, hvg]))
  | chi =>
    refine rel_map (rel_always (always_of_draws (draws_chi h.l)) (always_of_draws (draws_chi h.r))) ?_
    rintro g g' ⟨⟨hg, hgv⟩, ⟨hg', hgv'⟩⟩
    exact plainPair_grid h hg hg' (by rw [hgv, hgv', hvg])
  | iota n => exact rel_pure (plainPair_lanes h (gridOk_iota h.l _) (gridOk_iota h.r _) (by rw [values_iota h.l, values_iota h.r, hvg]))
  | round n =>
    refine rel_map (rel_always (always_of_draws (draws_round h.l _)) (always_of_draws (draws_round h.r _))) ?_
    rintro g g' ⟨⟨hg, hgv⟩, ⟨hg', hgv'⟩⟩
    exact plainPair_grid h hg hg' (by rw [hgv, hgv', hvg])
  | permute => exact rel_permuteState h
  | sinit n =>
    show Related plainPair (bodySinit n s) (bodySinit n s')
    unfold bodySinit
    rw [hp.arg]
    split
    · refine rel_pure ⟨gridOk_zeroGrid _, gridOk_zeroGrid _, ⟨?_, hp.arg, rfl, rfl, hp.rawEn, rfl, rfl, rfl, rfl, rfl, rfl, rfl⟩⟩
      show gridValues (zeroGrid _) = gridValues (zeroGrid _)
      rw [gridValues_zeroGrid, gridValues_zeroGrid]
    · exact rel_pure h
  | sabsorb n =>
    show Related plainPair (bodySabsorb n s) (bodySabsorb n s')
    unfold bodySabsorb
    rw [hp.arg]
    exact rel_fold (fun a b x hab => rel_absorbByte hab x) _ _ _ h
  | sfinal =>
    show Related plainPair (bodySfinal s) (bodySfinal s')
    unfold bodySfinal
    have hpl : padLanes s' = padLanes s := by unfold padLanes; rw [hp.apos, hp.rate]
    have hpw : ∀ L, padLane s' L = padLane s L := by intro L; unfold padLane; rw [hp.apos, hp.rate, hp.lacc, hp.ds]
    rw [hpl]
    refine rel_bind (R := plainPair) (rel_fold (fun a b L hab => by rw [hpw]; exact rel_absorbLane hab _ _) _ _ _ ?_) fun a b hab => rel_map (R := plainPair) (rel_permuteState ?_) fun u v huv => ?_
    · exact ⟨h.l, h.r, ⟨hp.1, hp.2, hp.3, rfl, hp.5, hp.6, hp.7, hp.8, hp.9, hp.10, hp.11, hp.12⟩⟩
    · have hp := hab.plain
      exact ⟨hab.l, hab.r, ⟨hp.1, hp.2, hp.3, hp.4, hp.5, hp.6, hp.7, hp.8, rfl, rfl, hp.11, hp.12⟩⟩
    · have hp := huv.plain
      refine ⟨huv.l, huv.r, ⟨hp.1, hp.2, hp.3, ?_, hp.5, hp.6, hp.7, hp.8, hp.9, hp.10, rfl, rfl⟩⟩
      show (if v.outLen = 0 then Phase.done else .squeezing) = if u.outLen = 0 then _ else _
      rw [hp.outLen]
  | ssqueeze n =>
    refine rel_map (R := fun a b : State × Word => plainPair a.1 b.1 ∧ b.2 = a.2) (rel_fold (fun a b k hab => rel_squeezeByte hab k) _ _ _ ⟨h, rfl⟩) ?_
    rintro ⟨u, w⟩ ⟨v, w'⟩ ⟨huv, hw⟩
    have hp := huv.plain
    refine ⟨huv.l, huv.r, ⟨hp.1, hp.2, hw, ?_, hp.5, hp.6, hp.7, hp.8, hp.9, hp.10, hp.11, ?_⟩⟩
    · show (if v.delivered + n.setWidth 64 = v.outLen then Phase.done else v.sph) = if u.delivered + n.setWidth 64 = u.outLen then _ else u.sph
      rw [hp.delivered, hp.outLen, hp.sph]
    · show v.delivered + n.setWidth 64 = u.delivered + n.setWidth 64
      rw [hp.delivered]

structure publicPair (a b : State) : Prop where
  params : b.params = a.params
  sph : b.sph = a.sph
  rate : b.rate = a.rate
  ds : b.ds = a.ds
  outLen : b.outLen = a.outLen
  apos : b.apos = a.apos
  spos : b.spos = a.spos
  delivered : b.delivered = a.delivered

theorem related_any {α β : Type} (x : Draw α) (y : Draw β) : Related (fun _ _ => True) x y := fun _ _ _ _ _ _ _ _ => trivial

theorem public_permuteState {a b : State} (h : publicPair a b) : Related publicPair (permuteState a) (permuteState b) :=
  rel_map (related_any _ _) fun _ _ _ => ⟨h.1, h.2, h.3, h.4, h.5, h.6, h.7, h.8⟩

theorem public_absorbLane {a b : State} (h : publicPair a b) (L : Nat) (w v : Word) : Related publicPair (absorbLane L w a) (absorbLane L v b) :=
  rel_map (related_any _ _) fun _ _ _ => ⟨h.1, h.2, h.3, h.4, h.5, h.6, h.7, h.8⟩

theorem public_absorbByte {a b : State} (h : publicPair a b) (x y : Byte) : Related publicPair (absorbByte a x) (absorbByte b y) := by
  have hend : ∀ a b, publicPair a b → Related publicPair (absorbBlockEnd a) (absorbBlockEnd b) := by
    intro a b h
    unfold absorbBlockEnd
    rw [h.apos, h.rate]
    split
    · exact rel_map (public_permuteState h) fun u v huv => ⟨huv.1, huv.2, huv.3, huv.4, huv.5, rfl, huv.7, huv.8⟩
    · exact rel_pure h
  unfold absorbByte absorbLaneEnd
  simp only [h.apos]
  split
  · refine rel_bind (R := publicPair) (public_absorbLane (a := { a with lacc := _, apos := a.apos + 1 }) (b := { b with lacc := _, apos := a.apos + 1 }) ⟨h.1, h.2, h.3, h.4, h.5, rfl, h.7, h.8⟩ _ _ _) fun u v huv => hend _ _ ⟨huv.1, huv.2, huv.3, huv.4, huv.5, huv.6, huv.7, huv.8⟩
  · exact rel_pure ⟨h.1, h.2, h.3, h.4, h.5, rfl, h.7, h.8⟩

theorem public_fold {ι κ : Type} {f : State → ι → Draw State} {g : State → κ → Draw State} (h : ∀ a b x y, publicPair a b → Related publicPair (f a x) (g b y)) :
    ∀ (xs : List ι) (ys : List κ), xs.length = ys.length → ∀ a b, publicPair a b → Related publicPair (Draw.fold f xs a) (Draw.fold g ys b)
  | [], [], _, _, _, hab => rel_pure hab
  | x :: xs, y :: ys, hl, a, b, hab => rel_bind (h a b x y hab) fun a b hab => public_fold h xs ys (by simpa using hl) a b hab

theorem public_squeezeByte {a b : State × Word} (h : publicPair a.1 b.1) (k : Nat) :
    Related (fun a b : State × Word => publicPair a.1 b.1) (squeezeByte a k) (squeezeByte b k) := by
  have ho : Related publicPair (openWindow a.1) (openWindow b.1) := by
    unfold openWindow
    rw [h.spos, h.rate]
    split
    · exact rel_map (public_permuteState h) fun u v huv => ⟨huv.1, huv.2, huv.3, huv.4, huv.5, huv.6, rfl, huv.8⟩
    · exact rel_pure h
  exact rel_map ho fun u v huv => ⟨huv.1, huv.2, huv.3, huv.4, huv.5, huv.6, by simp [huv.spos], huv.8⟩

theorem public_body {s s' : State} (h : publicPair s s') (i : Instr) (harg : ∀ n, i = .sinit n → s'.arg = s.arg) : Related publicPair (bodyOf i s) (bodyOf i s') := by
  cases i with
  | lmask ld => exact rel_map (related_any _ _) fun _ _ _ => ⟨h.1, h.2, h.3, h.4, h.5, h.6, h.7, h.8⟩
  | lmxor ld => exact rel_map (related_any _ _) fun _ _ _ => ⟨h.1, h.2, h.3, h.4, h.5, h.6, h.7, h.8⟩
  | lxorc ld => exact rel_pure ⟨h.1, h.2, h.3, h.4, h.5, h.6, h.7, h.8⟩
  | lunmask la => exact rel_pure ⟨h.1, h.2, h.3, h.4, h.5, h.6, h.7, h.8⟩
  | lmov ld la => exact rel_pure ⟨h.1, h.2, h.3, h.4, h.5, h.6, h.7, h.8⟩
  | lxor ld la lb => exact rel_pure ⟨h.1, h.2, h.3, h.4, h.5, h.6, h.7, h.8⟩
  | lnot ld la => exact rel_pure ⟨h.1, h.2, h.3, h.4, h.5, h.6, h.7, h.8⟩
  | lrotl ld la n => exact rel_pure ⟨h.1, h.2, h.3, h.4, h.5, h.6, h.7, h.8⟩
  | land ld la lb => exact rel_map (related_any _ _) fun _ _ _ => ⟨h.1, h.2, h.3, h.4, h.5, h.6, h.7, h.8⟩
  | stclr => exact rel_pure ⟨h.1, h.2, h.3, h.4, h.5, h.6, h.7, h.8⟩
  | theta => exact rel_pure ⟨h.1, h.2, h.3, h.4, h.5, h.6, h.7, h.8⟩
  | rho => exact rel_pure ⟨h.1, h.2, h.3, h.4, h.5, h.6, h.7, h.8⟩
  | pi => exact rel_pure ⟨h.1, h.2, h.3, h.4, h.5, h.6, h.7, h.8⟩
  | chi => exact rel_map (related_any _ _) fun _ _ _ => ⟨h.1, h.2, h.3, h.4, h.5, h.6, h.7, h.8⟩
  | iota n => exact rel_pure ⟨h.1, h.2, h.3, h.4, h.5, h.6, h.7, h.8⟩
  | round n => exact rel_map (related_any _ _) fun _ _ _ => ⟨h.1, h.2, h.3, h.4, h.5, h.6, h.7, h.8⟩
  | permute => exact public_permuteState h
  | sinit n =>
    show Related publicPair (bodySinit n s) (bodySinit n s')
    unfold bodySinit
    rw [harg n rfl]
    split
    · exact rel_pure ⟨h.1, rfl, rfl, rfl, rfl, rfl, rfl, rfl⟩
    · exact rel_pure h
  | sabsorb n => exact public_fold (fun a b x y hab => public_absorbByte hab x y) _ _ (by simp [length_bytesOf]) _ _ h
  | sfinal =>
    show Related publicPair (bodySfinal s) (bodySfinal s')
    unfold bodySfinal
    have hpl : padLanes s' = padLanes s := by unfold padLanes; rw [h.apos, h.rate]
    rw [hpl]
    refine rel_bind (R := publicPair) (rel_fold (f := fun t L => absorbLane L (padLane s L) t) (g := fun t L => absorbLane L (padLane s' L) t) (fun a b L hab => public_absorbLane hab _ _ _) _ { s with sph := .padded } { s' with sph := .padded } ⟨h.1, rfl, h.3, h.4, h.5, h.6, h.7, h.8⟩) fun a b hab =>
      rel_map (R := publicPair) (public_permuteState ⟨hab.1, hab.2, hab.3, hab.4, hab.5, rfl, hab.7, hab.8⟩) fun u v huv => ⟨huv.1, ?_, huv.3, huv.4, huv.5, huv.6, rfl, rfl⟩
    show (if v.outLen = 0 then Phase.done else .squeezing) = if u.outLen = 0 then _ else _
    rw [huv.outLen]
  | ssqueeze n =>
    refine rel_map (R := fun a b : State × Word => publicPair a.1 b.1) (rel_fold (fun a b k hab => public_squeezeByte hab k) _ _ _ h) ?_
    rintro ⟨u, w⟩ ⟨v, w'⟩ huv
    have huv : publicPair u v := huv
    refine ⟨huv.1, ?_, huv.3, huv.4, huv.5, huv.6, huv.7, ?_⟩
    · show (if v.delivered + n.setWidth 64 = v.outLen then Phase.done else v.sph) = if u.delivered + n.setWidth 64 = u.outLen then _ else u.sph
      rw [huv.delivered, huv.outLen, huv.sph]
    · show v.delivered + n.setWidth 64 = u.delivered + n.setWidth 64
      rw [huv.delivered]

theorem check_public {i : Instr} {s s' : State} (h : samePublic s s') (harg : ∀ n, i = .sinit n → s'.arg = s.arg) : check i s' = check i s := by
  unfold check
  have hc : configInvalid i s' = configInvalid i s := by
    cases i <;> simp [configInvalid]
    rw [harg _ rfl]
  have ho : operandsOk i s' = operandsOk i s := by cases i <;> simp [operandsOk, h.outLen, h.delivered]
  rw [h.rawEn, h.sph, hc, ho]

theorem kinds_words (ws : List Word) : (ws.map Answer.word).map Answer.isWord = List.replicate ws.length true := by
  induction ws with
  | nil => rfl
  | cons w ws ih => simp [Answer.isWord, List.replicate_succ, ih]

/-- The answers split the same way when their kinds agree. -/
theorem split_same (n : Nat) {as bs : List Answer} (h : bs.map Answer.isWord = as.map Answer.isWord) :
    (∃ (ws vs : List Word) (r r' : List Answer), as = ws.map .word ++ r ∧ bs = vs.map .word ++ r' ∧ ws.length = n ∧ vs.length = n ∧ r'.map Answer.isWord = r.map Answer.isWord) ∨
    (∃ (ws vs : List Word) (r r' : List Answer), as = ws.map .word ++ .failure :: r ∧ bs = vs.map .word ++ .failure :: r' ∧ ws.length < n ∧ vs.length = ws.length ∧ r'.map Answer.isWord = r.map Answer.isWord) ∨
    (∃ (ws vs : List Word), as = ws.map .word ∧ bs = vs.map .word ∧ ws.length < n ∧ vs.length = ws.length) := by
  induction n generalizing as bs with
  | zero => exact .inl ⟨[], [], as, bs, rfl, rfl, rfl, rfl, h⟩
  | succ n ih =>
    cases as with
    | nil => 
      have : bs = [] := by simpa using h
      subst this
      exact .inr (.inr ⟨[], [], rfl, rfl, by simp, rfl⟩)
    | cons a as =>
      cases bs with
      | nil => simp at h
      | cons b bs =>
        simp only [List.map_cons, List.cons.injEq] at h
        obtain ⟨h1, h2⟩ := h
        cases a with
        | failure =>
          cases b with
          | failure => exact .inr (.inl ⟨[], [], as, bs, rfl, rfl, by simp, rfl, h2⟩)
          | word _ => cases h1
        | word w =>
          cases b with
          | failure => cases h1
          | word v =>
            obtain ⟨ws, vs, r, r', rfl, rfl, e1, e2, e3⟩ | ⟨ws, vs, r, r', rfl, rfl, e1, e2, e3⟩ | ⟨ws, vs, rfl, rfl, e1, e2⟩ := ih h2
            · exact .inl ⟨w :: ws, v :: vs, r, r', rfl, rfl, by simp [e1], by simp [e2], e3⟩
            · exact .inr (.inl ⟨w :: ws, v :: vs, r, r', rfl, rfl, by simp [e1], by simp [e2], e3⟩)
            · exact .inr (.inr ⟨w :: ws, v :: vs, rfl, rfl, by simp [e1], by simp [e2]⟩)

end Sys2Proof.Machine
end

