-- ==== Sys2Proof/Laws/SpongeRun.lean ====
section
/-! SUPPORT. How many words a message and an output draw in all (R259), where SPOS stands, and commands run one after another. -/

namespace Sys2Proof.Machine

theorem fullBlocks_rest_length (rate : Nat) (hr : 0 < rate) : ∀ (fuel : Nat) (msg : List Byte) (st : List Word), msg.length ≤ fuel →
    (fullBlocks rate fuel msg st).2.length = msg.length % rate
  | 0, msg, st, h => by
    have : msg = [] := List.eq_nil_of_length_eq_zero (by omega)
    subst this; rfl
  | fuel + 1, msg, st, h => by
    unfold fullBlocks
    split
    · rename_i hle
      rw [fullBlocks_rest_length rate hr fuel _ _ (by rw [List.length_drop]; omega), List.length_drop]
      exact (Nat.mod_eq_sub_mod hle).symm
    · rename_i hle
      show msg.length = _
      exact (Nat.mod_eq_of_lt (by omega)).symm

theorem absorbFull_rest_length (rate : Nat) (hr : 0 < rate) (msg : List Byte) : (absorbFull rate msg).2.length = msg.length % rate :=
  fullBlocks_rest_length rate hr _ msg _ (le_refl _)

/-- The words drawn to absorb `m` bytes. -/
def absorbCost (D r m : Nat) : Nat := D * (m / r * (r / 8) + m % r / 8) + permuteDraws D * (m / r)

theorem apos_of_absorbed {s : State} {msg : List Byte} (h : absorbed s msg) : s.apos.toNat = msg.length % s.rate.toNat := by
  obtain ⟨-, hro, hap, -⟩ := h
  obtain ⟨-, h1, -⟩ := hro
  rw [hap, absorbFull_rest_length _ (by omega)]

theorem cost_step {D r m n : Nat} (h8 : r % 8 = 0) (hr : 8 ≤ r) (hn : n ≤ 8) :
    absorbCost D r m + (D * ((m % r % 8 + n) / 8) + permuteDraws D * (if r ≤ m % r + n then 1 else 0)) = absorbCost D r (m + n) := by
  have hm := Nat.mod_lt m (show 0 < r by omega)
  have hdm := Nat.div_add_mod m r
  generalize hq : m / r = q at *
  generalize hp : m % r = p at *
  obtain ⟨k, rfl⟩ : ∃ k, r = 8 * k := ⟨r / 8, by omega⟩
  have hk : 8 * k / 8 = k := by omega
  unfold absorbCost
  rw [hk, hq, hp]
  by_cases hb : 8 * k ≤ p + n
  · have hd : (m + n) / (8 * k) = q + 1 := by
      rw [← hdm, Nat.add_assoc, Nat.mul_add_div (by omega)]
      have : (p + n) / (8 * k) = 1 := Nat.div_eq_of_lt_le (by omega) (by omega)
      rw [this]
    have hmo : (m + n) % (8 * k) = p + n - 8 * k := by
      rw [← hdm, Nat.add_assoc, Nat.mul_add_mod, Nat.mod_eq_sub_mod hb, Nat.mod_eq_of_lt (by omega)]
    rw [hd, hmo, if_pos hb]
    have e : q * k + p / 8 + (p % 8 + n) / 8 = (q + 1) * k + (p + n - 8 * k) / 8 := by
      rw [Nat.succ_mul]; omega
    rw [← e]; ring
  · have hd : (m + n) / (8 * k) = q := by
      rw [← hdm, Nat.add_assoc, Nat.mul_add_div (by omega), Nat.div_eq_of_lt (by omega), Nat.add_zero]
    have hmo : (m + n) % (8 * k) = p + n := by
      rw [← hdm, Nat.add_assoc, Nat.mul_add_mod, Nat.mod_eq_of_lt (by omega)]
    rw [hd, hmo, if_neg hb]
    have e : q * k + p / 8 + (p % 8 + n) / 8 = q * k + (p + n) / 8 := by omega
    rw [← e]; ring

/-- What one run of commands keeps: an idle block that has drawn its words. -/
structure Idle (s : State) : Prop where
  inv : s.Inv
  halt : s.halt = false
  running : s.running = none

theorem idle_arg {s : State} (h : Idle s) (a : Word) : Idle { s with arg := a } :=
  ⟨⟨h.inv.grid, h.inv.matrix, h.inv.sponge, h.inv.halted, fun e => absurd (e : s.halt = true) (by rw [h.halt]; decide),
    fun r e => absurd (e : s.running = some r) (by rw [h.running]; intro x; cases x)⟩, h.halt, h.running⟩

theorem idle_exec {s t : State} {i : Instr} {n : Nat} {rest : List Answer} (h : Idle s) (he : exec i s = .next t) (hr : ran n rest s t) : Idle t :=
  ⟨inv_exec h.inv h.halt h.running he, hr.same.halt.trans h.halt, hr.same.running.trans h.running⟩

theorem words_split {ws : List Word} {rest as : List Answer} {n m : Nat} (h : as = ws.map .word ++ rest) (hl : ws.length = n + m) :
    as = (ws.take n).map .word ++ ((ws.drop n).map .word ++ rest) ∧ (ws.take n).length = n ∧ (ws.drop n).length = m := by
  refine ⟨?_, by rw [List.length_take]; omega, by rw [List.length_drop]; omega⟩
  rw [h, ← List.append_assoc, ← List.map_append, List.take_append_drop]

theorem runAll_step {a : Word} {i : Instr} {s t : State} {n : Nat} {rest : List Answer} {l : List (Word × Instr)}
    (he : exec i { s with arg := a } = .next t) (hr : ran n rest { s with arg := a } t) (hs : s.running = none) :
    runAll ((a, i) :: l) s = (runAll l t).map fun q => (q.1, (match i with | .ssqueeze n => bytesOf t.result n.toNat | _ => []) ++ q.2) := by
  simp only [runAll, he]
  rw [if_pos ⟨hr.err, hr.same.running.trans hs⟩]
  cases runAll l t <;> rfl

def sposAt (r d : Nat) : Nat := if d = 0 then 0 else (d - 1) % r + 1

def squeezeCost (D r d : Nat) : Nat := permuteDraws D * ((d + r - 1) / r - 1)

theorem sposAt_succ {r d : Nat} (hr : 8 ≤ r) : sposAt r (d + 1) = (if sposAt r d = r then 0 else sposAt r d) + 1 := by
  unfold sposAt
  rw [if_neg (by omega), Nat.add_sub_cancel]
  by_cases hd : d = 0
  · subst hd; rw [if_pos rfl, if_neg (by omega), Nat.zero_mod]
  · rw [if_neg hd]
    obtain ⟨e, rfl⟩ : ∃ e, d = e + 1 := ⟨d - 1, by omega⟩
    rw [Nat.add_sub_cancel]
    have hm := Nat.mod_lt e (show 0 < r by omega)
    have hdm := Nat.div_add_mod e r
    generalize e % r = p at *
    generalize e / r = q at *
    have : (e + 1) % r = if p + 1 = r then 0 else p + 1 := by
      rw [← hdm, Nat.add_assoc, Nat.mul_add_mod]
      split
      · rename_i h; rw [h, Nat.mod_self]
      · exact Nat.mod_eq_of_lt (by omega)
    rw [this]

theorem squeezeCost_step {D r d n : Nat} (hr : 8 ≤ r) (hn1 : 1 ≤ n) (hn : n ≤ 8) :
    squeezeCost D r d + permuteDraws D * (if r < sposAt r d + n then 1 else 0) = squeezeCost D r (d + n) := by
  unfold squeezeCost
  rw [← Nat.mul_add]
  congr 1
  unfold sposAt
  by_cases hd : d = 0
  · subst hd
    rw [if_pos rfl, if_neg (by omega), Nat.zero_add, Nat.zero_add, Nat.add_zero, Nat.div_eq_of_lt (show r - 1 < r by omega), Nat.div_eq_of_lt_le (k := 1) (by omega) (by omega)]
  · rw [if_neg hd]
    obtain ⟨e, rfl⟩ : ∃ e, d = e + 1 := ⟨d - 1, by omega⟩
    rw [Nat.add_sub_cancel]
    have hm := Nat.mod_lt e (show 0 < r by omega)
    have hdm := Nat.div_add_mod e r
    have e1 : (e + 1 + r - 1) / r = e / r + 1 := by
      rw [show e + 1 + r - 1 = e + r by omega, Nat.add_div_right _ (by omega)]
    have e2 : (e + 1 + n + r - 1) / r = (e + n) / r + 1 := by
      rw [show e + 1 + n + r - 1 = (e + n) + r by omega, Nat.add_div_right _ (by omega)]
    rw [e1, e2, Nat.add_sub_cancel, Nat.add_sub_cancel]
    generalize e % r = p at *
    generalize e / r = q at *
    rw [← hdm, Nat.add_assoc (r * q) p n, Nat.mul_add_div (by omega)]
    by_cases hb : r < p + 1 + n
    · rw [if_pos hb, Nat.div_eq_of_lt_le (k := 1) (show 1 * r ≤ p + n by omega) (by omega)]
    · rw [if_neg hb, Nat.div_eq_of_lt (show p + n < r by omega)]

theorem always_spos {r : Nat} (hr : 8 ≤ r) (hr2 : r ≤ 192) : ∀ (xs : List Nat) (d : Nat) (sr : State × Word), sr.1.rate.toNat = r → sr.1.spos.toNat = sposAt r d →
    Always (fun tr : State × Word => tr.1.spos.toNat = sposAt r (d + xs.length)) (Draw.fold squeezeByte xs sr)
  | [], d, sr, h1, h2 => always_pure (by simpa using h2)
  | x :: xs, d, sr, h1, h2 => by
    have hle : sposAt r d ≤ r := by
      unfold sposAt; split
      · omega
      · have := Nat.mod_lt (d - 1) (show 0 < r by omega); omega
    refine always_bind (P := fun tr : State × Word => tr.1.rate.toNat = r ∧ tr.1.spos.toNat = sposAt r (d + 1)) ?_ fun tr htr => ?_
    · unfold squeezeByte openWindow
      refine always_bind (P := fun t : State => t.rate.toNat = r ∧ t.spos.toNat = if sposAt r d = r then 0 else sposAt r d) ?_ ?_
      · by_cases he : sr.1.spos = sr.1.rate
        · have : sposAt r d = r := by rw [← h2, ← h1, he]
          rw [if_pos he]
          refine always_bind (P := fun t : State => t.rate.toNat = r) (always_permuteState (s := sr.1) fun g => h1) fun t ht => always_pure ⟨ht, ?_⟩
          rw [if_pos this]; rfl
        · have : ¬ sposAt r d = r := by rw [← h2, ← h1]; intro h; exact he (BitVec.eq_of_toNat_eq h)
          rw [if_neg he]
          exact always_pure ⟨h1, by rw [if_neg this]; exact h2⟩
      · rintro t ⟨ht1, ht2⟩
        refine always_pure ⟨ht1, ?_⟩
        show (t.spos + 1).toNat = _
        rw [sposAt_succ hr, ← ht2]
        exact toNat_add_one (by rw [ht2]; split <;> omega)
    · have := always_spos hr hr2 xs (d + 1) tr htr.1 htr.2
      rw [List.length_cons, show d + (xs.length + 1) = d + 1 + xs.length by omega]
      exact this

end Sys2Proof.Machine
end

