-- ==== Sys2Proof/Laws/MaskedSponge.lean ====
section
/-! SUPPORT. The streamed sponge against the whole-input sponge of R253 and R255 on shares: each byte that is absorbed and
each byte that is squeezed moves the reference on by the same draws to the same lanes (R257). -/

namespace Sys2Proof.Machine

/-! ### Absorbing -/

/-- What is left of `absorb_ref` when the lanes of the current block before lane `j` are masked in and `msg` is the current
block with all that follows. -/
def absorbTail (D r : Nat) (ds : Byte) (msg : List Byte) (j : Nat) (g : Grid) : Draw Grid :=
  if r ≤ msg.length then
    Draw.bind (maskedLanes D msg j (r / 8 - j) g) fun g =>
      Draw.bind (permute D g) (maskedAbsorbFrom D r ds (msg.drop r).length (msg.drop r))
  else Draw.bind (maskedLanes D (padBlock r ds msg) j (r / 8 - j) g) (permute D)

theorem maskedAbsorb_fuel (D r : Nat) (ds : Byte) (hr : 0 < r) (fuel : Nat) (msg : List Byte) (h : msg.length ≤ fuel) :
    maskedAbsorbFrom D r ds fuel msg = absorbTail D r ds msg 0 := by
  induction fuel using Nat.strong_induction_on generalizing msg with
  | h fuel ih =>
    funext g
    cases fuel with
    | zero =>
      unfold maskedAbsorbFrom absorbTail maskedLast
      rw [if_neg (by omega), Nat.sub_zero]
    | succ fuel =>
      unfold maskedAbsorbFrom absorbTail maskedLast
      split
      · have hl : (msg.drop r).length ≤ fuel := by rw [List.length_drop]; omega
        rw [Nat.sub_zero, ih fuel (by omega) _ hl, ih (msg.drop r).length (by omega) _ (le_refl _)]
      · rw [Nat.sub_zero]

theorem maskedLanes_succ (D : Nat) (block : List Byte) (j n : Nat) (g : Grid) :
    maskedLanes D block j (n + 1) g = Draw.bind (gMask D (blockWord block j)) fun m =>
      maskedLanes D block (j + 1) n (g.set j (gXor (laneAt g j) m)) := by
  unfold maskedLanes
  rw [List.range'_succ, Draw.fold, Draw.map, bind_assoc]
  simp only [pure_bind]

/-- A lane of the padded block that the message fills is the message's. -/
theorem blockWord_padBlock_full {r : Nat} (ds : Byte) {msg : List Byte} {j : Nat} (h8 : r % 8 = 0) (hlt : msg.length < r)
    (hj : 8 * (j + 1) ≤ msg.length) : blockWord (padBlock r ds msg) j = blockWord msg j := by
  have hz : (msg ++ List.replicate (r - msg.length) (0 : Byte)).length = r := by simp; omega
  unfold padBlock
  rw [blockWord_xorByteAt _ _ _ (by rw [length_xorByteAt, hz]; omega), blockWord_xorByteAt _ _ _ (by rw [hz]; omega),
    blockWord_zeros]
  have h1 : ¬ msg.length / 8 = j := by omega
  have h2 : ¬ (r - 1) / 8 = j := by omega
  rw [if_neg h1, if_neg h2, if_pos (show j < msg.length / 8 by omega)]
  simp

/-- APOS and LACC hold the bytes `p` of the current block (R47). -/
structure holds (s : State) (p : List Byte) : Prop where
  apos : s.apos.toNat = p.length
  lt : p.length < s.rate.toNat
  lacc : s.lacc = leWord (p.drop (8 * (p.length / 8)))

theorem holds_of_absorbed {s : State} {msg : List Byte} (h : absorbed s msg) : holds s (absorbFull s.rate.toNat msg).2 :=
  ⟨h.2.2.1, h.2.2.2.1, h.2.2.2.2.1⟩

theorem blockWord_head {p : List Byte} {b : Byte} {m : List Byte} (h : (p.length + 1) % 8 = 0) :
    blockWord (p ++ b :: m) (p.length / 8) = leWord (p.drop (8 * (p.length / 8)) ++ [b]) := by
  unfold blockWord
  rw [List.drop_append_of_le_length (by omega), show b :: m = [b] ++ m from rfl, ← List.append_assoc]
  congr 1
  refine List.take_left' ?_
  simp; omega

theorem absorbBlockEnd_done {w t : State} {q q' : Port} (h : absorbBlockEnd w q = .done t q') :
    (w.apos = w.rate ∧ ∃ g, permute w.params.D w.lanes q = .done g q' ∧ t = { w.setGridDiscard g with apos := 0 }) ∨
      (¬ w.apos = w.rate ∧ t = w ∧ q' = q) := by
  unfold absorbBlockEnd at h
  split at h
  · rename_i he
    obtain ⟨v, q3, hv, ht⟩ := bind_done h
    cases ht
    obtain ⟨g, q4, hg, hv'⟩ := bind_done hv
    cases hv'
    exact .inl ⟨he, g, hg, rfl⟩
  · rename_i he
    cases h
    exact .inr ⟨he, rfl, rfl⟩

/-- One byte absorbed: the reference from before it and from after it are the same. -/
theorem absorbByte_tail {s t : State} {p : List Byte} {b : Byte} {q q' : Port} (hro : rateOk s.rate) (hp : holds s p)
    (hb : absorbByte s b q = .done t q') :
    ∃ p', holds t p' ∧ paramsSame s t ∧ t.params = s.params ∧ ∀ (ds : Byte) (m : List Byte),
      absorbTail s.params.D s.rate.toNat ds (p ++ b :: m) (p.length / 8) s.lanes q
        = absorbTail s.params.D s.rate.toNat ds (p' ++ m) (p'.length / 8) t.lanes q' := by
  obtain ⟨hr8, hr1, hr2⟩ := hro
  obtain ⟨hap, hlt, hla⟩ := hp
  have e1 : (s.apos + 1).toNat = p.length + 1 := by rw [toNat_add_one (by omega), hap]
  have hlacc : s.lacc ||| byteAt b (s.apos.toNat % 8) = leWord (p.drop (8 * (p.length / 8)) ++ [b]) := by
    rw [leWord_concat, hla, hap]; congr 2; simp; omega
  unfold absorbByte absorbLaneEnd at hb
  simp only [e1, hlacc] at hb
  by_cases h8 : (p.length + 1) % 8 = 0
  · rw [if_pos h8, show (p.length + 1) / 8 - 1 = p.length / 8 by omega] at hb
    obtain ⟨u, q1, hm, hend⟩ := bind_done hb
    obtain ⟨a, q2, ha, hu⟩ := bind_done hm
    cases hu
    have hword := fun m => blockWord_head (b := b) (m := m) h8
    have htake : ∀ (block : List Byte) (n : Nat), blockWord block (p.length / 8) = leWord (p.drop (8 * (p.length / 8)) ++ [b]) →
        maskedLanes s.params.D block (p.length / 8) (n + 1) s.lanes q
          = maskedLanes s.params.D block (p.length / 8 + 1) n (s.lanes.set (p.length / 8) (gXor (laneAt s.lanes (p.length / 8)) a)) q1 := by
      intro block n hw
      have ha' : gMask s.params.D (leWord (p.drop (8 * (p.length / 8)) ++ [b])) q = .done a q1 := ha
      rw [maskedLanes_succ, Draw.bind, hw, ha']
    obtain ⟨hr, g, hg, rfl⟩ | ⟨hr, rfl, rfl⟩ := absorbBlockEnd_done hend
    · -- the block is complete
      have hr : s.apos + 1 = s.rate := hr
      have hrl : p.length + 1 = s.rate.toNat := by rw [← hr, e1]
      refine ⟨[], ⟨rfl, by simp only [List.length_nil]; exact lt_of_lt_of_le (by omega) hr1, rfl⟩, ⟨rfl, rfl, rfl⟩, rfl, fun ds m => ?_⟩
      rw [absorbTail, if_pos (by simp; omega), show s.rate.toNat / 8 - p.length / 8 = 0 + 1 by omega, Draw.bind, htake _ _ (hword m)]
      have hd : (p ++ b :: m).drop s.rate.toNat = m := by
        rw [show p ++ b :: m = (p ++ [b]) ++ m by simp]
        exact List.drop_left' (by simp; omega)
      rw [hd, maskedAbsorb_fuel _ _ _ (by omega) _ _ (le_refl _)]
      show Draw.bind (permute s.params.D _) _ q1 = _
      rw [Draw.bind, show permute s.params.D (s.lanes.set (p.length / 8) (gXor (laneAt s.lanes (p.length / 8)) a)) q1 = .done g q' from hg]
      rfl
    · have hr : ¬ s.apos + 1 = s.rate := hr
      have hrl : p.length + 1 < s.rate.toNat := by
        have : p.length + 1 ≠ s.rate.toNat := fun e => hr (BitVec.eq_of_toNat_eq (by rw [e1, e]))
        omega
      refine ⟨p ++ [b], ⟨by simp only [List.length_append, List.length_singleton]; exact e1, by simpa using hrl, ?_⟩, ⟨rfl, rfl, rfl⟩, rfl, fun ds m => ?_⟩
      · show (0 : Word) = leWord (List.drop _ _)
        rw [List.drop_of_length_le (by simp; omega)]; rfl
      · rw [List.append_assoc, List.singleton_append, show (p ++ [b]).length / 8 = p.length / 8 + 1 by simp; omega]
        unfold absorbTail
        rw [show s.rate.toNat / 8 - p.length / 8 = (s.rate.toNat / 8 - (p.length / 8 + 1)) + 1 by omega]
        split
        · rw [Draw.bind, htake _ _ (hword m)]; rfl
        · rename_i hlen
          rw [Draw.bind, htake _ _ ((blockWord_padBlock_full ds hr8 (by omega) (by simp; omega)).trans (hword m))]; rfl
  · rw [if_neg h8] at hb
    cases hb
    have hrl : p.length + 1 < s.rate.toNat := by omega
    refine ⟨p ++ [b], ⟨by simp only [List.length_append, List.length_singleton]; exact e1, by simpa using hrl, ?_⟩, ⟨rfl, rfl, rfl⟩, rfl, fun ds m => ?_⟩
    · show leWord _ = leWord _
      rw [show (p ++ [b]).length / 8 = p.length / 8 by simp; omega, List.drop_append_of_le_length (by omega)]
    · rw [List.append_assoc, List.singleton_append, show (p ++ [b]).length / 8 = p.length / 8 by simp; omega]

theorem absorbBytes_tail : ∀ (bs : List Byte) {s t : State} {p : List Byte} {q q' : Port}, rateOk s.rate → holds s p →
    Draw.fold absorbByte bs s q = .done t q' →
    ∃ p', holds t p' ∧ paramsSame s t ∧ t.params = s.params ∧ ∀ (ds : Byte) (m : List Byte),
      absorbTail s.params.D s.rate.toNat ds (p ++ (bs ++ m)) (p.length / 8) s.lanes q
        = absorbTail s.params.D s.rate.toNat ds (p' ++ m) (p'.length / 8) t.lanes q'
  | [], s, t, p, q, q', _, hp, h => by cases h; exact ⟨p, hp, ⟨rfl, rfl, rfl⟩, rfl, fun _ _ => rfl⟩
  | b :: bs, s, t, p, q, q', hro, hp, h => by
    obtain ⟨u, q1, h1, h2⟩ := bind_done h
    obtain ⟨p1, k1, k2, k3, k4⟩ := absorbByte_tail hro hp h1
    obtain ⟨p2, l1, l2, l3, l4⟩ := absorbBytes_tail bs (by rw [k2.rate]; exact hro) k1 h2
    refine ⟨p2, l1, ⟨l2.rate.trans k2.rate, l2.ds.trans k2.ds, l2.outLen.trans k2.outLen⟩, l3.trans k3, fun ds m => ?_⟩
    rw [List.cons_append, k4 ds (bs ++ m), ← k2.rate, ← k3]
    exact l4 ds m

/-! ### The last block -/

theorem maskedLanes_of_fold {D : Nat} {block : List Byte} {w : Nat → Word} : ∀ (n j : Nat) {u t : State} {q q' : Port}, u.params.D = D →
    (∀ L, j ≤ L → L < j + n → blockWord block L = w L) →
    Draw.fold (fun t L => absorbLane L (w L) t) (List.range' j n) u q = .done t q' →
    maskedLanes D block j n u.lanes q = .done t.lanes q' ∧ ∃ g, t = { u with lanes := g }
  | 0, j, u, t, q, q', _, _, h => by cases h; exact ⟨rfl, u.lanes, rfl⟩
  | n + 1, j, u, t, q, q', hD, hw, h => by
    rw [List.range'_succ] at h
    obtain ⟨v, q1, h1, h2⟩ := bind_done h
    obtain ⟨a, q2, ha, hv⟩ := bind_done h1
    cases hv
    obtain ⟨k1, g, k2⟩ := maskedLanes_of_fold n (j + 1) (u := u.setLane j (gXor (laneAt u.lanes j) a)) hD (fun L h1 h2 => hw L (by omega) (by omega)) h2
    refine ⟨?_, g, k2⟩
    rw [maskedLanes_succ, Draw.bind, hw j (le_refl _) (by omega), ← hD, ha, hD]
    exact k1

/-- SFINAL ends `absorb_ref` and opens the first rate window. -/
theorem bodySfinal_tail {s t : State} {p : List Byte} {q q' : Port} (hro : rateOk s.rate) (hp : holds s p)
    (h : bodySfinal s q = .done t q') :
    absorbTail s.params.D s.rate.toNat s.ds p (p.length / 8) s.lanes q = .done t.lanes q' ∧
      t.rate = s.rate ∧ t.params = s.params ∧ t.spos = 0 := by
  obtain ⟨u, q1, h1, h2⟩ := bind_done h
  obtain ⟨v, q2, h3, h4⟩ := bind_done h2
  cases h4
  obtain ⟨g, q3, h5, h6⟩ := bind_done h3
  cases h6
  rw [padLanes, hp.apos] at h1
  have hword : ∀ L, p.length / 8 ≤ L → L < p.length / 8 + (s.rate.toNat / 8 - p.length / 8) → blockWord (padBlock s.rate.toNat s.ds p) L = padLane s L :=
    fun L h1 _ => by rw [blockWord_padBlock hro hp.apos hp.lt hp.lacc, if_neg (by omega)]
  obtain ⟨k1, g', rfl⟩ := maskedLanes_of_fold (D := s.params.D) (u := { s with sph := .padded }) (block := padBlock s.rate.toNat s.ds p) (w := padLane s) _ _ rfl hword h1
  rw [absorbTail, if_neg (by have := hp.lt; omega), Draw.bind, show maskedLanes _ _ _ _ s.lanes q = _ from k1]
  exact ⟨h5, rfl, rfl, rfl⟩

/-! ### Squeezing -/

/-- What is left of `squeeze_ref` gives the bytes still to come; `bs` came before. -/
def withBytes (bs : List Byte) (x : Draw (Grid × List Byte)) : Draw (Grid × List Byte) := Draw.map (fun r => (r.1, bs ++ r.2)) x

theorem withBytes_nil (x : Draw (Grid × List Byte)) : withBytes [] x = x := by
  funext q
  simp only [withBytes, Draw.map, Draw.bind, List.nil_append]
  cases x q <;> rfl

theorem withBytes_append (as bs : List Byte) (x : Draw (Grid × List Byte)) : withBytes as (withBytes bs x) = withBytes (as ++ bs) x := by
  simp only [withBytes, Draw.map, bind_assoc, pure_bind, List.append_assoc]

/-- One byte squeezed: the reference gives that byte first. -/
theorem squeezeByte_tail {s t : State} {r r' : Word} {k : Nat} {q q' : Port} (hro : rateOk s.rate) (hsp : s.spos.toNat ≤ s.rate.toNat)
    (h : squeezeByte (s, r) k q = .done (t, r') q') :
    ∃ b, r' = r ||| byteAt b k ∧ t.rate = s.rate ∧ t.params = s.params ∧ t.spos.toNat ≤ t.rate.toNat ∧
      ∀ m, maskedSqueezeFrom s.params.D s.rate.toNat (m + 1) s.lanes s.spos.toNat q
        = withBytes [b] (maskedSqueezeFrom s.params.D s.rate.toNat m t.lanes t.spos.toNat) q' := by
  obtain ⟨hr8, hr1, hr2⟩ := hro
  obtain ⟨u, q1, h1, h2⟩ := bind_done h
  cases h2
  refine ⟨squeezedByte u, rfl, ?_⟩
  unfold openWindow at h1
  by_cases he : s.spos = s.rate
  · rw [if_pos he] at h1
    obtain ⟨v, q2, h3, h4⟩ := bind_done h1
    cases h4
    obtain ⟨g, q3, h5, h6⟩ := bind_done h3
    cases h6
    have e1 : ((0 : BitVec 8) + 1).toNat = 1 := by decide
    refine ⟨rfl, rfl, by show ((0 : BitVec 8) + 1).toNat ≤ s.rate.toNat; omega, fun m => ?_⟩
    rw [maskedSqueezeFrom, if_pos (by rw [he])]
    have h5' : permute s.params.D s.lanes q = .done g q' := h5
    simp only [Draw.map, bind_assoc, pure_bind, withBytes]
    rw [Draw.bind, h5']
    rfl
  · rw [if_neg he] at h1
    cases h1
    have hne : ¬ s.spos.toNat = s.rate.toNat := fun e => he (BitVec.eq_of_toNat_eq e)
    have e1 : (s.spos + 1).toNat = s.spos.toNat + 1 := toNat_add_one (by omega)
    refine ⟨rfl, rfl, by show (s.spos + 1).toNat ≤ s.rate.toNat; omega, fun m => ?_⟩
    rw [maskedSqueezeFrom, if_neg hne, pure_bind]
    show _ = withBytes _ (maskedSqueezeFrom s.params.D s.rate.toNat m s.lanes (s.spos + 1).toNat) q
    rw [e1]
    rfl

theorem squeezeBytes_tail : ∀ (n k : Nat) {s t : State} {r : Word} {out : List Byte} {q q' : Port}, rateOk s.rate → s.spos.toNat ≤ s.rate.toNat →
    out.length = k → Draw.fold squeezeByte (List.range' k n) (s, leWord out) q = .done (t, r) q' →
    ∃ bs : List Byte, bs.length = n ∧ r = leWord (out ++ bs) ∧ t.rate = s.rate ∧ t.params = s.params ∧ t.spos.toNat ≤ t.rate.toNat ∧
      ∀ m, maskedSqueezeFrom s.params.D s.rate.toNat (n + m) s.lanes s.spos.toNat q
        = withBytes bs (maskedSqueezeFrom s.params.D s.rate.toNat m t.lanes t.spos.toNat) q'
  | 0, k, s, t, r, out, q, q', _, hsp, _, h => by
    cases h
    exact ⟨[], rfl, by simp, rfl, rfl, hsp, fun m => by rw [Nat.zero_add, withBytes_nil]⟩
  | n + 1, k, s, t, r, out, q, q', hro, hsp, ho, h => by
    rw [List.range'_succ] at h
    obtain ⟨⟨u, r1⟩, q1, h1, h2⟩ := bind_done h
    obtain ⟨b, rfl, k2, k3, k4, k5⟩ := squeezeByte_tail hro hsp h1
    rw [← ho, ← leWord_concat] at h2
    obtain ⟨bs, l1, l2, l3, l4, l5, l6⟩ := squeezeBytes_tail n (out.length + 1) (by rw [k2]; exact hro) k4 (by simp) h2
    refine ⟨b :: bs, by simp [l1], by rw [l2]; simp, l3.trans k2, l4.trans k3, l5, fun m => ?_⟩
    rw [show n + 1 + m = n + m + 1 by omega, k5 (n + m), show b :: bs = [b] ++ bs from rfl, ← withBytes_append]
    have := l6 m
    rw [k2, k3] at this
    simp only [withBytes, Draw.map, Draw.bind] at this ⊢
    rw [this]

end Sys2Proof.Machine
end

