-- ==== Sys2Proof/Laws/Phase.lean ====
section
/-! SUPPORT. What every command does to the phase and to RESULT (R39, R42, R250). -/

namespace Sys2Proof.Machine

/-- What each body does to the phase and RESULT. -/
def phaseResult (i : Instr) (s u : State) : Prop :=
  match i with
  | .sinit _ => (u.sph = .absorbing ∧ u.result = 0) ∨ (u.sph = s.sph ∧ u.result = s.result)
  | .sfinal => u.sph = (if s.outLen = 0 then .done else .squeezing) ∧ u.result = s.result
  | .ssqueeze _ => u.sph = if u.delivered = u.outLen then .done else s.sph
  | .lunmask _ => u.sph = s.sph
  | _ => u.sph = s.sph ∧ u.result = s.result

theorem always_phaseResult (i : Instr) (s : State) : Always (phaseResult i s) (bodyOf i s) := by
  let P : State → Prop := fun u => u.sph = s.sph ∧ u.result = s.result ∧ u.outLen = s.outLen
  have hp : ∀ (Q : State → Prop) (u : State), (∀ g, Q (u.setGridDiscard g)) → Always Q (permuteState u) := fun Q u hu =>
    always_map (x := permute u.params.D u.lanes) (f := u.setGridDiscard) hu
  have hl : ∀ (Q : State → Prop) (L : Nat) (w : Word) (u : State), (∀ a, Q (u.setLane L a)) → Always Q (absorbLane L w u) :=
    fun _ _ _ u hu => always_map fun _ => hu _
  cases i with
  | lmask ld => exact always_map fun _ => ⟨rfl, rfl⟩
  | lmxor ld => exact always_map fun _ => ⟨rfl, rfl⟩
  | lxorc ld => exact always_pure ⟨rfl, rfl⟩
  | lunmask la => exact always_pure rfl
  | lmov ld la => exact always_pure ⟨rfl, rfl⟩
  | lxor ld la lb => exact always_pure ⟨rfl, rfl⟩
  | lnot ld la => exact always_pure ⟨rfl, rfl⟩
  | lrotl ld la n => exact always_pure ⟨rfl, rfl⟩
  | land ld la lb => exact always_map fun _ => ⟨rfl, rfl⟩
  | stclr => exact always_pure ⟨rfl, rfl⟩
  | theta => exact always_pure ⟨rfl, rfl⟩
  | rho => exact always_pure ⟨rfl, rfl⟩
  | pi => exact always_pure ⟨rfl, rfl⟩
  | chi => exact always_map (x := chi s.params.D s.lanes) (f := s.setGridDiscard) fun _ => ⟨rfl, rfl⟩
  | iota n => exact always_pure ⟨rfl, rfl⟩
  | round n => exact always_map (x := round s.params.D n.toNat s.lanes) (f := s.setGridDiscard) fun _ => ⟨rfl, rfl⟩
  | permute => exact always_map (x := permute s.params.D s.lanes) (f := s.setGridDiscard) fun _ => ⟨rfl, rfl⟩
  | sinit n =>
    show Always _ (bodySinit n s)
    unfold bodySinit
    split
    · exact always_pure (.inl ⟨rfl, rfl⟩)
    · exact always_pure (.inr ⟨rfl, rfl⟩)
  | sabsorb n =>
    have : Always (fun u => u.sph = s.sph ∧ u.result = s.result) (Draw.fold absorbByte (bytesOf s.arg n.toNat) s) := by
      refine always_fold (fun u b hu => ?_) _ _ ⟨rfl, rfl⟩
      unfold absorbByte absorbLaneEnd
      split
      · refine always_bind (hl (fun u => u.sph = s.sph ∧ u.result = s.result) _ _ _ fun _ => hu) fun v hv => ?_
        unfold absorbBlockEnd
        split
        · exact always_bind (hp (fun u => u.sph = s.sph ∧ u.result = s.result) _ fun _ => hv) fun w hw => always_pure hw
        · exact always_pure hv
      · exact always_pure hu
    exact this
  | sfinal =>
    have : Always (fun u => u.sph = (if s.outLen = 0 then .done else .squeezing) ∧ u.result = s.result) (bodySfinal s) := by
      refine always_bind (P := fun u => u.result = s.result ∧ u.outLen = s.outLen)
        (always_fold (fun u L hu => hl _ _ _ _ fun _ => hu) _ _ ⟨rfl, rfl⟩) fun u hu => ?_
      refine always_bind (P := fun u => u.result = s.result ∧ u.outLen = s.outLen) (hp _ _ fun _ => hu) fun v hv => always_pure ?_
      exact ⟨by simp only [startSqueeze]; rw [hv.2], hv.1⟩
    exact this
  | ssqueeze n =>
    refine always_bind (P := fun tr : State × Word => tr.1.sph = s.sph ∧ tr.1.outLen = s.outLen) (always_fold (fun u k hu => ?_) _ _ ⟨rfl, rfl⟩)
      fun u hu => always_pure ?_
    · unfold squeezeByte openWindow
      split
      · exact always_bind (P := fun u => u.sph = s.sph ∧ u.outLen = s.outLen)
          (always_bind (P := fun u => u.sph = s.sph ∧ u.outLen = s.outLen) (hp _ _ fun _ => hu) fun v hv => always_pure hv) fun v hv => always_pure hv
      · exact always_bind (P := fun u => u.sph = s.sph ∧ u.outLen = s.outLen) (always_pure hu) fun v hv => always_pure hv
    · show (if u.1.delivered + n.setWidth 64 = u.1.outLen then Phase.done else u.1.sph) = _
      rw [hu.1]; rfl

/-- The phase and RESULT after `exec`. -/
theorem exec_phaseResult {i : Instr} {s t : State} (h : exec i s = .next t) :
    (t.sph = s.sph ∧ t.result = s.result) ∨ (check i s = none ∧ phaseResult i s t) ∨ (t.halt = true ∧ t.sph = .empty ∧ t.result = 0) := by
  rw [exec_eq_command, command] at h
  cases hc : check i s with
  | some e => rw [hc] at h; cases h; exact .inl ⟨rfl, rfl⟩
  | none =>
    rw [hc] at h
    cases hb : bodyOf i (accept s) s.port with
    | done u p =>
      rw [hb] at h; cases h
      refine .inr (.inl ⟨rfl, ?_⟩)
      have := always_phaseResult i (accept s) _ _ _ hb
      cases i <;> exact this
    | failed p => rw [hb] at h; cases h; exact .inr (.inr ⟨rfl, rfl, rfl⟩)
    | waiting p => rw [hb] at h; cases h; exact .inl ⟨rfl, rfl⟩

theorem phase_of_exec {i : Instr} {s t : State} (h : exec i s = .next t) (hne : t.sph ≠ s.sph) :
    (∃ n, i = .sinit n ∧ t.sph = .absorbing) ∨
    (i = .sfinal ∧ s.sph = .absorbing ∧ t.sph = if s.outLen = 0 then .done else .squeezing) ∨
    (∃ n, i = .ssqueeze n ∧ s.sph = .squeezing ∧ t.sph = .done ∧ t.delivered = t.outLen) ∨ (t.halt = true ∧ t.sph = .empty) := by
  obtain ⟨h1, -⟩ | ⟨hc, h1⟩ | ⟨h1, h2, -⟩ := exec_phaseResult h
  · exact absurd h1 hne
  · cases i with
    | sinit n =>
      rcases h1 with h1 | h1
      · exact .inl ⟨n, rfl, h1.1⟩
      · exact absurd h1.1 hne
    | sfinal => exact .inr (.inl ⟨rfl, absorbing_of_check hc (.inl rfl), h1.1⟩)
    | ssqueeze n =>
      simp only [phaseResult] at h1
      split at h1
      · rename_i hd
        exact .inr (.inr (.inl ⟨n, rfl, (squeezing_of_check hc).1, h1, hd⟩))
      · exact absurd h1 hne
    | lunmask la => exact absurd h1 hne
    | _ => exact absurd h1.1 hne
  · exact .inr (.inr (.inr ⟨h1, h2⟩))

theorem result_of_exec {i : Instr} {s t : State} (h : exec i s = .next t) (hne : t.result ≠ s.result) :
    (∃ la, i = .lunmask la) ∨ (∃ n, i = .ssqueeze n) ∨ (t.result = 0 ∧ ((∃ n, i = .sinit n) ∨ t.halt = true)) := by
  obtain ⟨-, h1⟩ | ⟨hc, h1⟩ | ⟨h1, -, h2⟩ := exec_phaseResult h
  · exact absurd h1 hne
  · cases i with
    | sinit n =>
      rcases h1 with h1 | h1
      · exact .inr (.inr ⟨h1.2, .inl ⟨n, rfl⟩⟩)
      · exact absurd h1.2 hne
    | ssqueeze n => exact .inr (.inl ⟨n, rfl⟩)
    | lunmask la => exact .inl ⟨la, rfl⟩
    | _ => exact absurd h1.2 hne
  · exact .inr (.inr ⟨h2, .inr h1⟩)

end Sys2Proof.Machine
end

