-- ==== Sys2Proof/Tests/Slice0.lean ====
section
/-! SUPPORT. Tests. Every expected value is written in the spec: the rule or the vector of 95_test_vectors.md is named at
each test. After them, a witness for the hypotheses of each obligation: a concrete state and operands that meet them all. -/

namespace Sys2Proof.Tests

open Sys2Proof Sys2Proof.Machine

/-! ### States for the tests -/

/-- An instance of order `D ≤ 3`. -/
def order (D : Nat) (h : D ≤ 3 := by decide) : Params := ⟨D, 3, h, by decide⟩

/-- A grid that is zero but for some lanes. -/
def gridWith (D : Nat) (lanes : List (Nat × Lane)) : Grid := lanes.foldl (fun g x => g.set x.1 x.2) (zeroGrid D)

/-- Raw mode on, some lanes set, some words ready. -/
def raw (p : Params) (arg : Word) (lanes : List (Nat × Lane)) (ws : List Word) : State :=
  { State.resetOf p with rawEn := true, arg := arg, lanes := gridWith p.D lanes, answers := ws.map .word }

/-- At `D = 0`: raw mode on, each lane one value. -/
def plain (vs : List Word) : State := { State.resetOf (order 0) with rawEn := true, lanes := vs.map fun v => [v] }

/-- Phase ABSORBING, right after SINIT. -/
def absorbing (p : Params) (sp : SpongeParams) (arg : Word) (ws : List Word) : State :=
  { State.resetOf p with
    rate := sp.rate, ds := sp.ds, outLen := sp.outLen, sph := .absorbing, arg := arg, answers := ws.map .word }

/-- Phase SQUEEZING, right after SFINAL, with one value in lane 0. -/
def squeezing (p : Params) (sp : SpongeParams) (lane0 : Lane) (ws : List Word) : State :=
  { State.resetOf p with
    rate := sp.rate, ds := sp.ds, outLen := sp.outLen, sph := .squeezing, lanes := gridWith p.D [(0, lane0)],
    answers := ws.map .word }

/-- `f` of the next state. -/
def after {α : Type} (o : Result) (f : State → α) : Option α :=
  match o with
  | .next t => some (f t)
  | .fault _ => none
  | .refused _ => none

/-- STATUS as the host reads it once no command is BUSY. -/
def status (t : State) : Word := statusWord t t.sph

/-- TESTRNG(seed): SplitMix64 (95_test_vectors.md §2). -/
def testRng : Nat → Word → List Word
  | 0, _ => []
  | n + 1, st =>
    let st := st + 0x9E3779B97F4A7C15
    let z := (st ^^^ (st >>> 30)) * 0xBF58476D1CE4E5B9
    let z := (z ^^^ (z >>> 27)) * 0x94D049BB133111EB
    (z ^^^ (z >>> 31)) :: testRng n st

/-! ### Well-formed commands (R111, R112): each check refuses an ill-formed command -/

theorem test_lane_25_is_ill_formed :
    (Instr.lmask 25).wellFormed = false ∧ (Instr.lmxor 25).wellFormed = false ∧ (Instr.lxorc 31).wellFormed = false ∧
    (Instr.lunmask 25).wellFormed = false ∧ (Instr.lmov 25 0).wellFormed = false ∧ (Instr.lmov 0 25).wellFormed = false ∧
    (Instr.lxor 25 0 0).wellFormed = false ∧ (Instr.lxor 0 25 0).wellFormed = false ∧
    (Instr.lxor 0 0 25).wellFormed = false ∧ (Instr.lnot 0 25).wellFormed = false ∧
    (Instr.lrotl 25 0 0).wellFormed = false ∧ (Instr.land 0 0 25).wellFormed = false := by decide

theorem test_round_24_is_ill_formed : (Instr.iota 24).wellFormed = false ∧ (Instr.round 24).wellFormed = false := by decide

theorem test_variant_7_is_ill_formed : (Instr.sinit 7).wellFormed = false := by decide

theorem test_counts_0_and_9_are_ill_formed :
    (Instr.sabsorb 0).wellFormed = false ∧ (Instr.sabsorb 9).wellFormed = false ∧
    (Instr.ssqueeze 0).wellFormed = false ∧ (Instr.ssqueeze 9).wellFormed = false := by decide

theorem test_ends_of_the_ranges_are_well_formed :
    (Instr.land 24 24 24).wellFormed = true ∧ (Instr.lrotl 24 0 63).wellFormed = true ∧
    (Instr.round 23).wellFormed = true ∧ (Instr.sinit 6).wellFormed = true ∧ (Instr.sabsorb 8).wellFormed = true := by decide

/-! ### Decoding: words the spec writes out (V-L1, §3.2 to §3.4, P1, R121) -/

theorem test_decode_lane_commands :
    decode 0x00000301 = .ok (.lmask 3) ∧ decode 0x00000302 = .ok (.lmxor 3) ∧ decode 0x00000303 = .ok (.lxorc 3) ∧
    decode 0x00012004 = .ok (.lunmask 9) ∧ decode 0x00006705 = .ok (.lmov 7 3) ∧ decode 0x001CE706 = .ok (.lxor 7 7 7) ∧
    decode 0x00012907 = .ok (.lnot 9 9) ∧ decode 0x1F806808 = .ok (.lrotl 8 3 63) ∧
    decode 0x000C6309 = .ok (.land 3 3 3) := by decide

/-- The words without fields are the opcodes of R116. -/
theorem test_decode_round_commands :
    decode 0x10 = .ok .stclr ∧ decode 0x11 = .ok .theta ∧ decode 0x12 = .ok .rho ∧ decode 0x13 = .ok .pi ∧
    decode 0x14 = .ok .chi ∧ decode 0x0B800015 = .ok (.iota 23) ∧ decode 0x00000016 = .ok (.round 0) ∧
    decode 0x17 = .ok .permute := by decide

theorem test_decode_sponge_commands :
    decode 0x01800020 = .ok (.sinit 3) ∧ decode 0x02000020 = .ok (.sinit 4) ∧ decode 0x01800021 = .ok (.sabsorb 3) ∧
    decode 0x00000022 = .ok .sfinal ∧ decode 0x04000023 = .ok (.ssqueeze 8) := by decide

/-- The ILLEGAL rows of §3.4. -/
theorem test_decode_illegal :
    decode 0 = .error .unknownOpcode ∧ decode 0x0A = .error .unknownOpcode ∧
    decode 0x20000010 = .error .reservedBits ∧ decode 0x100000010 = .error .reservedBits ∧
    decode 0xC4105 = .error .unusedField := by decide

/-! ### Lane commands -/

/-- V-L1 step 1. -/
theorem test_lmask : after (exec (.lmask 3) (raw (order 1) 0x0123456789ABCDEF [] [0x1111111111111111]))
    (fun t => (laneAt t.lanes 3, t.rngCount)) = some ([0x1111111111111111, 0x1032547698BADCFE], 1) := by decide

/-- V-G1, `D = 2`. -/
theorem test_lmask_order_2 : after (exec (.lmask 24) (raw (order 2) 0xAAAAAAAAAAAAAAAA [] [0x1111111111111111, 0x2222222222222222]))
    (fun t => laneAt t.lanes 24) = some [0x1111111111111111, 0x2222222222222222, 0x9999999999999999] := by decide

/-- R161. -/
theorem test_lmxor : after (exec (.lmxor 5) (raw (order 1) 5 [(5, [0x1111111111111111, 0x1111111111111111])] [0x2222222222222222]))
    (fun t => laneAt t.lanes 5) = some [0x3333333333333333, 0x3333333333333336] := by decide

/-- R162. -/
theorem test_lxorc : after (exec (.lxorc 0) (raw (order 1) 0xF0 [(0, [1, 2])] []))
    (fun t => laneAt t.lanes 0) = some [0xF1, 2] := by decide

/-- R163. -/
theorem test_lunmask : after (exec (.lunmask 24) (raw (order 1) 0 [(24, [0x1111111111111111, 0xE1E1E1E1E1E1E1E1])] []))
    (·.result) = some 0xF0F0F0F0F0F0F0F0 := by decide

/-- R164. -/
theorem test_lmov : after (exec (.lmov 7 3) (raw (order 1) 0 [(3, [1, 2])] [])) (fun t => laneAt t.lanes 7) = some [1, 2] := by
  decide

/-- R165. -/
theorem test_lxor : after (exec (.lxor 5 0 1) (raw (order 1) 0
      [(0, [0x1111111111111111, 0xE1E1E1E1E1E1E1E1]), (1, [0x2222222222222222, 0xDD22DD22DD22DD22])] []))
    (fun t => laneAt t.lanes 5) = some [0x3333333333333333, 0x3CC33CC33CC33CC3] := by decide

/-- V-L1 step 8: both sources are the destination. -/
theorem test_lxor_clears : after (exec (.lxor 7 7 7) (raw (order 1) 0 [(7, [5, 9])] []))
    (fun t => laneAt t.lanes 7) = some [0, 0] := by decide

/-- R166: an even number of shares. -/
theorem test_lnot_even : after (exec (.lnot 3 2) (raw (order 1) 0 [(2, [0x3333333333333333, 0xC333C333C333C333])] []))
    (fun t => laneAt t.lanes 3) = some [0x3333333333333333, 0x3CCC3CCC3CCC3CCC] := by decide

/-- V-G2, `D = 2`: an odd number of shares. -/
theorem test_lnot_odd : after (exec (.lnot 3 2) (raw (order 2) 0
      [(2, [0x0123456789ABCDEF, 0xFEDCBA9876543210, 0x0F0F0F0F0F0F0F0F])] []))
    (fun t => laneAt t.lanes 3) = some [0xFEDCBA9876543210, 0x0123456789ABCDEF, 0xF0F0F0F0F0F0F0F0] := by decide

/-- V-L1 step 6. -/
theorem test_lrotl_63 : after (exec (.lrotl 8 3 63) (raw (order 1) 0 [(3, [0x33333333333333CC, 0xCDEF76544567FEDC])] []))
    (fun t => laneAt t.lanes 8) = some [0x19999999999999E6, 0x66F7BB2A22B3FF6E] := by decide

/-- V-L1 step 5: `N = 0` copies. -/
theorem test_lrotl_0 : after (exec (.lrotl 8 3 0) (raw (order 1) 0 [(3, [0x33333333333333CC, 0xCDEF76544567FEDC])] []))
    (fun t => laneAt t.lanes 8) = some [0x33333333333333CC, 0xCDEF76544567FEDC] := by decide

/-- R168. -/
theorem test_land : after (exec (.land 2 0 1) (raw (order 1) 0
      [(0, [0x1111111111111111, 0xE1E1E1E1E1E1E1E1]), (1, [0x2222222222222222, 0xDD22DD22DD22DD22])] [0x3333333333333333]))
    (fun t => laneAt t.lanes 2) = some [0x3333333333333333, 0xC333C333C333C333] := by decide

/-- V-G3, the `D = 3` row: the draw order of the pairs. -/
theorem test_land_draw_order : after (exec (.land 2 0 1) (raw (order 3) 0 [] [1, 2, 4, 8, 16, 32]))
    (fun t => (laneAt t.lanes 2, t.rngCount)) = some ([0x7, 0x19, 0x2A, 0x34], 6) := by decide

/-! ### Round commands -/

/-- V-R8e. -/
theorem test_stclr : after (exec .stclr (raw (order 2) 0 [(0, [1, 2, 3]), (24, [5, 0, 0])] []))
    (fun t => (t.lanes, status t, t.rngCount)) = some (zeroGrid 2, 0, 0) := by decide

/-- V-R1. -/
theorem test_theta : after (exec .theta (plain (1 :: List.replicate 24 0))) (·.values) =
    some ([1, 1, 0, 0, 2] ++ [0, 1, 0, 0, 2] ++ [0, 1, 0, 0, 2] ++ [0, 1, 0, 0, 2] ++ [0, 1, 0, 0, 2]) := by decide +kernel

/-- V-R3, lanes 0 to 9. -/
theorem test_rho : after (exec .rho (plain (List.replicate 25 1))) (fun t => t.values.take 10) =
    some ([0x1, 0x2, 0x4000000000000000, 0x10000000, 0x8000000]
      ++ [0x1000000000, 0x100000000000, 0x40, 0x80000000000000, 0x100000]) := by decide +kernel

/-- V-R4. -/
theorem test_pi : after (exec .pi (plain ((List.range 25).map (BitVec.ofNat 64)))) (·.values) =
    some ([0, 6, 12, 18, 24, 3, 9, 10, 16, 22, 1, 7, 13] ++ [19, 20, 4, 5, 11, 17, 23, 2, 8, 14, 15, 21]) := by decide +kernel

/-- V-R6. -/
theorem test_chi : after (exec .chi (plain ((List.range 25).map (BitVec.ofNat 64)))) (·.values) =
    some ([2, 0, 6, 3, 5, 4, 14, 6, 12, 11, 14, 10, 14] ++ [13, 15, 14, 18, 16, 30, 3, 22, 20, 30, 19, 25]) := by decide +kernel

/-- R219, V-R8f: `D = 1`, lane `L` is the `LMASK` of `L` with the first 25 words of TESTRNG, CHI draws the next 25. -/
theorem test_chi_order_1 :
    after (exec .chi { raw (order 1) 0 [] ((testRng 50 0).drop 25) with
        lanes := (List.range 25).map fun L =>
          [(testRng 50 0).getD L 0, (testRng 50 0).getD L 0 ^^^ BitVec.ofNat 64 L] })
      (fun t => (laneAt t.lanes 0, t.rngCount)) = some ([0x773E36C02058C790, 0x773E36C02058C792], 25) := by decide +kernel

/-- V-R8b. -/
theorem test_iota : after (exec (.iota 23) (raw (order 1) 0 [] [])) (fun t => laneAt t.lanes 0) =
    some [0x8000000080008008, 0] := by decide

/-- V-R8c. -/
theorem test_round_0_of_zero : after (exec (.round 0) (plain (List.replicate 25 0))) (·.values) =
    some (1 :: List.replicate 24 0) := by decide +kernel

/-- V-R8d, lanes 0 to 4. -/
theorem test_round_0_of_one : after (exec (.round 0) (plain (1 :: List.replicate 24 0))) (fun t => t.values.take 5) =
    some [0, 0x0000100000000000, 0x8000, 1, 0x0000100000008000] := by decide +kernel

/-- R222, V-R10. -/
theorem test_permute : after (exec .permute (plain (List.replicate 25 0))) (fun t => (t.values.take 1, t.values.drop 24)) =
    some ([0xF1258F7940E1DDE7], [0xEAF1FF7B5CECA249]) := by decide +kernel

/-! ### Sponge commands -/

/-- V-S3a. -/
theorem test_sinit : after (exec (.sinit 1) (State.resetOf (order 1)))
    (fun t => (status t, t.rate, t.ds, t.outLen, t.apos)) = some (0x100, 136, 0x06, 32, 0) := by decide

/-- V-S3j: CUSTOM. -/
theorem test_sinit_custom : after (exec (.sinit 6) { State.resetOf (order 1) with arg := 0x0000002000060088 })
    (fun t => (t.rate, t.ds, t.outLen)) = some (136, 0x06, 32) := by decide

/-- V-S3b. -/
theorem test_sabsorb_3 : after (exec (.sabsorb 3) (absorbing (order 1) ⟨136, 0x06, 32⟩ 0x636261 []))
    (fun t => (status t, t.apos, t.lacc, t.rngCount)) = some (0x100, 3, 0x636261, 0) := by decide

/-- V-S3d: the fifth to the twelfth byte complete lane 0. -/
theorem test_sabsorb_completes_a_lane :
    after (exec (.sabsorb 8) { absorbing (order 1) ⟨72, 0x06, 64⟩ 0x0D0C0B0A09080706 [0xE220A8397B1DCDAF] with
        apos := 5, lacc := 0x0504030201 })
      (fun t => (laneAt t.lanes 0, t.apos, t.lacc)) =
    some ([0xE220A8397B1DCDAF, 0xEA27AE3C7F1ECFAE], 13, 0x0D0C0B0A09) := by decide

/-- E5: the first eight bytes of SHA3-512 of the empty string. -/
theorem test_sfinal : after (exec .sfinal (absorbing (order 0) ⟨72, 0x06, 64⟩ 0 []))
    (fun t => (status t, bytesOf (t.values.getD 0 0) 8)) =
    some (0x400, [0xA6, 0x9F, 0x73, 0xCC, 0xA2, 0x3A, 0x9A, 0xC5]) := by decide +kernel

/-- V-S3l: the one pad byte is `DS ^ 0x80`. -/
theorem test_sfinal_rate_8 : after (exec .sfinal (absorbing (order 0) ⟨8, 0x86, 8⟩ 0 []))
    (fun t => bytesOf (t.values.getD 0 0) 8) =
    some [0x80, 0xFE, 0x75, 0xC4, 0xF0, 0x9F, 0xDB, 0x73] := by decide +kernel

/-- P1 step 6. -/
theorem test_ssqueeze : after (exec (.ssqueeze 8) (squeezing (order 1) ⟨136, 0x06, 32⟩
      [0x1111111111111111, 0xB225E24FA75D983A ^^^ 0x1111111111111111] []))
    (fun t => (status t, t.result, t.delivered)) = some (0x400, 0xB225E24FA75D983A, 8) := by decide

/-- R263, R210: at `SPOS = RATE` the next byte opens a window; the zero state permutes to the table of R210. The last byte
ends in DONE. -/
theorem test_ssqueeze_opens_a_window :
    after (exec (.ssqueeze 8) { squeezing (order 0) ⟨136, 0x06, 144⟩ [0] [] with spos := 136, delivered := 136 })
      (fun t => (status t, t.result, t.spos)) = some (0x500, 0xF1258F7940E1DDE7, 8) := by decide +kernel

/-! ### Errors (§3.4), registers (§3.5) and the failure of the source -/

/-- STATUS after one CMD write. -/
def statusAfter (s : State) (w : Word) : Option Word := after (step { s with inputs := [.write 0x00 8 w] }) status

theorem test_errors_from_reset :
    statusAfter (State.resetOf (order 1)) 0 = some 0x10 ∧ statusAfter (State.resetOf (order 1)) 0x17 = some 0x50 ∧
    statusAfter (State.resetOf (order 1)) 0x800021 = some 0x30 ∧ statusAfter (State.resetOf (order 1)) 0x3800020 = some 0x40 ∧
    statusAfter (State.resetOf (order 1)) 0x1906 = some 0x50 ∧
    statusAfter { State.resetOf (order 1) with arg := 0x600C8 } 0x3000020 = some 0x40 ∧
    statusAfter { State.resetOf (order 1) with arg := 0x1060088 } 0x3000020 = some 0x40 := by decide

theorem test_errors_in_raw_mode :
    statusAfter (raw (order 1) 0 [] []) 0x1906 = some 0x20 ∧ statusAfter (raw (order 1) 0 [] []) 0xC000016 = some 0x20 := by
  decide

theorem test_errors_while_absorbing :
    statusAfter (absorbing (order 1) ⟨136, 6, 32⟩ 0 []) 0x800023 = some 0x130 ∧
    statusAfter (absorbing (order 1) ⟨136, 6, 32⟩ 0 []) 0x21 = some 0x120 ∧
    statusAfter (absorbing (order 1) ⟨136, 6, 32⟩ 0 []) 0x4800021 = some 0x120 ∧
    statusAfter (absorbing (order 1) ⟨136, 6, 32⟩ 0 []) 0x4800023 = some 0x130 ∧
    statusAfter { absorbing (order 1) ⟨136, 6, 32⟩ 0 [] with rawEn := true } 0x17 = some 0x130 := by decide

/-- V-X1: the reads after reset at `D = D_MAX = 2`. -/
theorem test_reads_after_reset :
    [0x00, 0x08, 0x10, 0x18, 0x20, 0x28, 0x30, 0x38].map (fun off =>
      after (step { State.resetOf ⟨2, 2, by decide, by decide⟩ with inputs := [.read off 8] }) (·.readData)) =
    [some 0, some 0, some 0, some 0, some 0, some 0x10202, some 0, some 0] := by decide

/-- R310: two words and then a Failure; STATUS is 0xF2 and RNG_COUNT keeps the two. -/
theorem test_failure : after (exec (.land 2 0 1) { raw (order 2) 5 [(0, [1, 2, 3])] [] with
      answers := [.word 7, .word 8, .failure] })
    (fun t => (status t, t.rngCount, t.lanes, t.arg)) = some (0xF2, 2, zeroGrid 2, 5) := by decide

/-- V-X3: reset after a HALT. -/
theorem test_reset_leaves_halt :
    after (step { State.resetOf (order 1) with
        halt := true, err := .rng, arg := 5, rawEn := true, rngCount := 4, inputs := [.reset] })
      (fun t => (status t, t.arg, t.rawEn, t.rngCount)) = some (0, 0, false, 0) := by decide

/-- R43: RAW_EN from 0 to 1 scrubs, and the phase becomes EMPTY. -/
theorem test_rawon_scrubs :
    after (step { squeezing (order 0) ⟨136, 6, 32⟩ [9] [] with inputs := [.write 0x20 8 1] })
      (fun t => (status t, t.lanes, t.rawEn, t.outLen)) = some (0, zeroGrid 0, true, 0) := by decide

/-- R315: an ARG write while BUSY sets IGN and is lost. -/
theorem test_write_while_busy :
    after (step { raw (order 1) 3 [] [] with
        running := some ⟨.lmask 0, 0, [], 0⟩, inputs := [.write 0x08 8 9] }) (fun t => (status t, t.arg)) =
    some (0x5, 3) := by decide
/-! ### Witnesses: states and operands that meet the hypotheses of the obligations -/

theorem gridOk_gridWith (D : Nat) (lanes : List (Nat × Lane)) (h : ∀ x ∈ lanes, x.2.length = D + 1) :
    gridOk D (gridWith D lanes) := by
  have key : ∀ (l : List (Nat × Lane)) (g : Grid), gridOk D g → (∀ x ∈ l, x.2.length = D + 1) →
      gridOk D (l.foldl (fun g x => g.set x.1 x.2) g) := by
    intro l
    induction l with
    | nil => exact fun g hg _ => hg
    | cons x l ih =>
      exact fun g hg hl => ih _ (gridOk_set hg x.1 (hl x (by simp))) fun y hy => hl y (by simp [hy])
  exact key lanes _ (gridOk_zeroGrid D) h

/-- An idle state with complete lanes and fitting sponge registers meets the invariant. -/
theorem inv_idle {s : State} (hg : gridOk s.params.D s.lanes) (hm : s.rm = zeroMatrix s.params.D) (hs : spongeOk s)
    (hh : s.halt = false) (he : s.err ≠ .rng) (hr : s.running = none) : s.Inv :=
  ⟨hg, hm, hs, by simp [hh, he], fun e => absurd (hh.symm.trans e) (by decide), fun r e => by rw [hr] at e; cases e⟩

theorem inv_raw (p : Params) (arg : Word) (lanes : List (Nat × Lane)) (ws : List Word)
    (h : ∀ x ∈ lanes, x.2.length = p.D + 1) : (raw p arg lanes ws).Inv :=
  inv_idle (gridOk_gridWith _ _ h) rfl ⟨rfl, rfl, rfl, rfl, rfl, rfl, rfl⟩ rfl (by intro h; cases h) rfl

theorem inv_absorbing (p : Params) (sp : SpongeParams) (arg : Word) (ws : List Word) (h : rateOk sp.rate) :
    (absorbing p sp arg ws).Inv := by
  obtain ⟨h1, h2, h3⟩ := h
  refine inv_idle (gridOk_zeroGrid _) rfl ⟨⟨h1, h2, h3⟩, ?_, ?_, rfl, rfl⟩ rfl (by intro h; cases h) rfl
  · show 0 < sp.rate.toNat; omega
  · show (0 : Word).toNat < 2 ^ (8 * ((0 : BitVec 8).toNat % 8)); decide

theorem inv_squeezing (p : Params) (sp : SpongeParams) (a : Lane) (ws : List Word) (ha : a.length = p.D + 1)
    (h : rateOk sp.rate) (ho : 0 < sp.outLen.toNat) : (squeezing p sp a ws).Inv :=
  inv_idle (gridOk_gridWith p.D _ (by simpa using ha)) rfl ⟨h, rfl, rfl, Nat.zero_le _, ho⟩ rfl (by intro h; cases h) rfl

theorem accepts_of {i : Instr} {s : State} (hr : s.running = none) (hh : s.halt = false) (hc : check i s = none) :
    accepts i s := by
  obtain ⟨h1, h2, h3, h4⟩ := (check_eq_none_iff i s).mp hc
  exact ⟨hr, hh, h1, h2, h3, h4⟩

/-- `D = 1`, raw mode, lanes 0, 1 and 24 set, the words `ws` ready. -/
def ready (ws : List Word) : State := raw (order 1) 5 [(0, [1, 2]), (1, [3, 5]), (24, [8, 13])] ws

theorem ready_inv (ws : List Word) : (ready ws).Inv := inv_raw _ _ _ _ (by decide)

/-- LMASK L24 is BUSY at `D = 2`: one of its two words is here. -/
def busy (es : List Input) : State :=
  { raw (order 2) 5 [] [] with running := some ⟨.lmask 24, 0, [7], 0⟩, rngCount := 1, inputs := es }

theorem busy_inv (es : List Input) : (busy es).Inv :=
  ⟨gridOk_zeroGrid _, rfl, ⟨rfl, rfl, rfl, rfl, rfl, rfl, rfl⟩, by simp [busy, raw, State.resetOf],
    (fun e => by cases e), fun r e => by cases e; exact ⟨rfl, rfl, rfl, rfl, rfl, by decide, show 1 < 2 by decide⟩⟩

/-- A halted block: ARG and RNG_COUNT keep their values. -/
def halted (es : List Input) : State :=
  { State.resetOf (order 1) with halt := true, err := .rng, arg := 5, rawEn := true, rngCount := 4, inputs := es }

theorem halted_inv (es : List Input) : (halted es).Inv :=
  ⟨gridOk_zeroGrid _, rfl, ⟨rfl, rfl, rfl, rfl, rfl, rfl, rfl⟩, by simp [halted],
    fun _ => ⟨rfl, rfl⟩, fun r e => by cases e⟩

/-- `ready`, with inputs to come. -/
def given (es : List Input) : State := { ready [] with inputs := es }

theorem given_inv (es : List Input) : (given es).Inv := inv_inputs (ready_inv []) es

theorem witness_DecodedValueIsItsEncoding : ∃ w i, decode w = .ok i := ⟨0x04000023, .ssqueeze 8, by decide⟩

/-- Both clauses: opcode 0x23 is the last of the table, 0x24 the first above it. -/
theorem witness_IllegalExactlyOffTheTable : (∃ s : State, s.inputs = [.write 0x00 8 0x24] ∧ s.halt = false ∧
    s.running = none) ∧ ¬ followsTable 0x24 ∧ followsTable 0x23 := by
  refine ⟨⟨given [.write 0 8 0x24], rfl, rfl, rfl⟩, ?_, followsTable_encode (.ssqueeze 0)⟩
  unfold followsTable; decide

theorem witness_StepRunsDecodedCommand : ∃ (s : State) (w : Word) (i : Instr) (rest : List Input),
    s.inputs = .write 0x00 8 w :: rest ∧ s.halt = false ∧ s.running = none ∧ decode w = .ok i :=
  ⟨given [.write 0 8 0x00030004], 0x00030004, .lunmask 24, [], rfl, rfl, rfl, by decide⟩

/-- A narrow access, and a misaligned one at the last offset. -/
theorem witness_UnalignedOrNarrowAccessNotPerformed :
    ((0x38 < 0x40 ∧ (4 ≠ 8 ∨ 0x38 % 8 ≠ 0)) ∧ ∃ s : State, s.inputs = [.read 0x38 4]) ∧
    ((0x3F < 0x40 ∧ (8 ≠ 8 ∨ 0x3F % 8 ≠ 0)) ∧ ∃ s : State, s.inputs = [.write 0x3F 8 1]) :=
  ⟨⟨by decide, given _, rfl⟩, by decide, given _, rfl⟩

/-- Every offset, and every value of ERR and SPH. -/
theorem witness_IdleReadsReturnTheRegisters : ∀ off ∈ [0x00, 0x08, 0x10, 0x18, 0x20, 0x28, 0x30, 0x38], ∀ (e : Err) (p : Phase),
    (∃ s : State, s.running = none ∧ s.inputs = [.read off 8] ∧ s.err = e ∧ s.sph = p) ∧ off < 0x40 ∧ off % 8 = 0 := by
  intro off h e p
  refine ⟨⟨{ given [.read off 8] with err := e, sph := p }, rfl, rfl, rfl, rfl⟩, ?_⟩
  revert off; decide

theorem witness_ReadsHaveNoSideEffect : ∃ s : State, s.inputs = [.read 0x30 8] ∧ s.running ≠ none :=
  ⟨busy _, rfl, by decide⟩

theorem witness_InfoReadsTheConfiguration : (∃ s : State, s.inputs = [.read 0x28 8]) ∧
    ∃ s t : State, step s = .next t ∧ s ≠ t :=
  ⟨⟨busy _, rfl⟩, given [.lateAnswer .failure], given [], rfl, by decide⟩

/-- An ARG write that is taken, a reset, and neither. -/
theorem witness_ArgHoldsTheLastTakenWrite :
    (∃ s t v, step s = .next t ∧ takesWrite s 0x08 v) ∧ (∃ s t, step s = .next t ∧ s.inputs.head? = some .reset) ∧
    (∃ s t, step s = .next t ∧ (¬ ∃ v, takesWrite s 0x08 v) ∧ s.inputs.head? ≠ some .reset) :=
  ⟨⟨given [.write 8 8 9], _, 9, rfl, rfl, rfl, rfl⟩, ⟨busy [.reset], _, rfl, rfl⟩,
    ⟨busy [.write 8 8 9], _, rfl, fun ⟨_, _, _, h⟩ => absurd h (by decide), by decide⟩⟩

/-- Halted, BUSY, RAW_EN from 0 to 1, and RAW_EN left at 1; then the three other parts. -/
theorem witness_CtrlWriteSetsRawEnAndScrubs :
    (∃ s : State, s.inputs = [.write 0x20 8 1] ∧ s.halt = true) ∧
    (∃ s : State, s.inputs = [.write 0x20 8 1] ∧ s.halt = false ∧ s.running.isSome) ∧
    (∃ s : State, s.inputs = [.write 0x20 8 1] ∧ s.halt = false ∧ s.running = none ∧ s.rawEn = false) ∧
    (∃ s : State, s.inputs = [.write 0x20 8 3] ∧ s.halt = false ∧ s.running = none ∧ s.rawEn = true) ∧
    (∃ s t, step s = .next t ∧ (¬ ∃ v, takesWrite s 0x20 v) ∧ s.inputs.head? ≠ some .reset) ∧
    (∃ s : State, s.inputs = [.read 0x20 8]) ∧ (∃ s : State, s.inputs = [.reset]) :=
  ⟨⟨halted _, rfl, rfl⟩, ⟨busy _, rfl, rfl, rfl⟩,
    ⟨{ State.resetOf (order 1) with inputs := [.write 0x20 8 1] }, rfl, rfl, rfl, rfl⟩, ⟨given _, rfl, rfl, rfl, rfl⟩,
    ⟨busy [.write 0x20 8 1], _, rfl, fun ⟨_, _, _, h⟩ => absurd h (by decide), by decide⟩, ⟨busy _, rfl⟩, ⟨busy _, rfl⟩⟩

theorem witness_OtherWritesHaveNoEffect : ∀ off ∈ [0x08, 0x10, 0x18, 0x28, 0x30, 0x38],
    ∃ s : State, s.inputs = [.write off 8 1] ∧ s.halt = false ∧ s.running = none :=
  fun off _ => ⟨given [.write off 8 1], rfl, rfl, rfl⟩

/-- A write while BUSY to each offset; a step that clears IGN by a CMD write that is taken, and one by reset. -/
theorem witness_BusyWritesAreIgnoredAndSetIgn :
    (∀ off ∈ [0x00, 0x08, 0x20, 0x10, 0x38], ∃ s : State, s.inputs = [.write off 8 1] ∧ s.halt = false ∧
      s.running.isSome) ∧
    (∃ s t, (∃ w, takesWrite s 0x00 w) ∧ step s = .next t ∧ s.ign = true ∧ t.ign = false) ∧
    (∃ s t, s.inputs.head? = some .reset ∧ step s = .next t ∧ s.ign = true ∧ t.ign = false) :=
  ⟨fun off _ => ⟨busy [.write off 8 1], rfl, rfl, rfl⟩,
    ⟨{ given [.write 0 8 0] with ign := true }, _, ⟨0, rfl, rfl, rfl⟩, rfl, rfl, rfl⟩,
    ⟨{ busy [.reset] with ign := true }, _, rfl, rfl, rfl, rfl⟩⟩

/-- SFINAL BUSY at `D = 1`, nothing drawn yet. -/
def busyFinal (es : List Input) : State :=
  { absorbing (order 1) ⟨72, 6, 64⟩ 0 [] with running := some ⟨.sfinal, 0, [], 0⟩, inputs := es }

theorem busyFinal_inv (es : List Input) : (busyFinal es).Inv := by
  have h := inv_absorbing (order 1) ⟨72, 6, 64⟩ 0 [] (by unfold rateOk; decide)
  refine ⟨h.grid, h.matrix, h.sponge, h.halted, (fun e => by cases e), fun r e => ?_⟩
  cases e; exact ⟨rfl, rfl, rfl, rfl, rfl, Nat.le_refl _, by show 0 < drawsOf .sfinal (busyFinal []); decide⟩

theorem witness_BusyStatusRead : ∃ s r, State.Inv s ∧ s.running = some r ∧ s.inputs = [.read 0x18 8] ∧ r.cmd = .sfinal :=
  ⟨busyFinal _, _, busyFinal_inv _, rfl, rfl, rfl⟩

theorem witness_BusyStatusRead_other : ∃ s r, State.Inv s ∧ s.running = some r ∧ s.inputs = [.read 0x18 8] ∧ r.cmd ≠ .sfinal :=
  ⟨busy _, _, busy_inv _, rfl, rfl, by decide⟩

/-- A read at each offset while BUSY; and a word that leaves SFINAL BUSY. -/
theorem witness_BusyReadsReturnTheValuesFromBefore :
    (∀ off ∈ [0x00, 0x08, 0x10, 0x20, 0x28, 0x38], ∃ s : State, s.running.isSome ∧ s.inputs = [.read off 8] ∧ off < 0x40 ∧
      off % 8 = 0 ∧ off ≠ 0x18 ∧ off ≠ 0x30) ∧
    (∃ s t : State, s.Inv ∧ s.running.isSome ∧ step s = .next t ∧ t.running.isSome ∧ t.rngCount ≠ s.rngCount) := by
  refine ⟨fun off h => ⟨busy [.read off 8], rfl, rfl, ?_⟩, busyFinal [.answer (.word 7)], _, busyFinal_inv _, rfl, rfl, ?_, ?_⟩
  · revert off; decide
  · decide
  · decide

/-- SFINAL BUSY at `D = 1`, one word drawn and shown. -/
def busyShown (es : List Input) : State :=
  { busyFinal es with running := some ⟨.sfinal, 0, [7], 1⟩, rngCount := 1 }

theorem busyShown_inv (es : List Input) : (busyShown es).Inv := by
  have h := busyFinal_inv es
  refine ⟨h.grid, h.matrix, h.sponge, h.halted, (fun e => by cases e), fun r e => ?_⟩
  cases e; exact ⟨rfl, rfl, rfl, rfl, rfl, Nat.le_refl _, by show 1 < drawsOf .sfinal (busyFinal []); decide⟩

/-- A word that leaves the command BUSY, after a read that showed one. -/
theorem witness_RngCountCountsDeliveredWords_shown : ∃ s t r q, State.Inv s ∧ s.running = some r ∧ r.shown = 1 ∧
    step s = .next t ∧ t.running = some q ∧ q.drawn ≠ r.drawn :=
  ⟨busyShown [.answer (.word 9)], _, _, _, busyShown_inv _, rfl, rfl, rfl, rfl, by decide⟩

theorem witness_RngCountCountsDeliveredWords :
    (∃ s t, State.Inv s ∧ step s = .next t ∧ s.inputs.head? ≠ some .reset) ∧ (∃ s : State, s.inputs = [.reset]) ∧
    (∃ s r, State.Inv s ∧ s.running = some r ∧ s.inputs = [.read 0x30 8]) := by
  obtain ⟨t, ht⟩ := exec_next (.lmask 24) (rewind ⟨.lmask 24, 0, [7], 0⟩ (.word 9) (busy []))
  exact ⟨⟨busy [.answer (.word 9)], restore (busy []) ⟨.lmask 24, 0, [7], 0⟩ t, busy_inv _, by
      show takeAnswer (.word 9) (busy []) = _
      simp only [takeAnswer, busy] at ht ⊢; rw [ht], by decide⟩, ⟨busy _, rfl⟩, ⟨busy _, _, busy_inv _, rfl, rfl⟩⟩

theorem witness_ResetLeavesTheTable : (∃ s : State, s.inputs = [.reset]) ∧ (∃ s : State, s.inputs = [.lateAnswer (.word 1)]) :=
  ⟨⟨halted _, rfl⟩, ⟨given _, rfl⟩⟩

/-- The ends of the bounds: `D = D_MAX = 255` is built, `D = D_MAX + 1` and `D_MAX = 256` are not. -/
theorem witness_ConstructionRefusesOrdersOutOfBounds : (∃ s, State.construct 255 255 = some s) ∧
    State.construct 4 3 = none ∧ State.construct 0 256 = none ∧ ∃ s t : State, step s = .next t :=
  ⟨⟨_, rfl⟩, rfl, rfl, given [], _, rfl⟩

theorem witness_StepKeepsInvariant : ∃ s t : State, s.Inv ∧ step s = .next t ∧ t.arg ≠ s.arg :=
  ⟨given [.write 8 8 9], _, given_inv _, rfl, by decide⟩

/-- Each check fails where the ones before it pass; and all pass. -/
theorem witness_ChecksInOrderAndRejectionIsPrecise :
    (∃ e, decode 0x24 = .error e) ∧ (∃ i, decode 0x23 = .ok i) ∧
    (opcodeOf .permute < 0x20 ∧ (State.resetOf (order 1)).rawEn = false) ∧
    ((opcodeOf (.sabsorb 1) < 0x20 → (ready []).rawEn = true) ∧ ¬ phaseRow (ready []).sph (opcodeOf (.sabsorb 1))) ∧
    ((opcodeOf (.sinit 7) < 0x20 → (ready []).rawEn = true) ∧ phaseRow (ready []).sph (opcodeOf (.sinit 7)) ∧
      badConfig (.sinit 7) (ready []).arg) ∧
    ((opcodeOf (.lmask 25) < 0x20 → (ready []).rawEn = true) ∧ phaseRow (ready []).sph (opcodeOf (.lmask 25)) ∧
      ¬ badConfig (.lmask 25) (ready []).arg ∧ badOperand (.lmask 25) (ready [])) ∧
    ((opcodeOf (.lmask 24) < 0x20 → (ready []).rawEn = true) ∧ phaseRow (ready []).sph (opcodeOf (.lmask 24)) ∧
      ¬ badConfig (.lmask 24) (ready []).arg ∧ ¬ badOperand (.lmask 24) (ready [])) := by
  have hc : ∀ l, ¬ badConfig (.lmask l) (ready []).arg := by rintro l ⟨n, h, -⟩; cases h
  have hp : ∀ i, phaseAllows i (ready []).sph = true → phaseRow (ready []).sph (opcodeOf i) := fun i h => (phaseAllows_iff i _).mp h
  refine ⟨⟨.unknownOpcode, by decide⟩, ⟨.ssqueeze 0, by decide⟩, ⟨by decide, rfl⟩, ⟨fun _ => rfl, fun h => ?_⟩,
    ⟨fun _ => rfl, hp _ rfl, 7, rfl, .inl (by decide)⟩, ⟨fun _ => rfl, hp _ rfl, hc _, show 25 ≤ (25 : BitVec 5).toNat by decide⟩,
    ⟨fun _ => rfl, hp _ rfl, hc _, show ¬ 25 ≤ (24 : BitVec 5).toNat by decide⟩⟩
  exact absurd ((phaseAllows_iff (.sabsorb 1) _).mpr h) (by decide)

/-- A command that draws, and one that does not. -/
theorem witness_AcceptedCommandCompletes :
    (∃ (ws : List Word) (rest : List Answer), (ready [7]).Inv ∧ accepts (.land 24 0 1) (ready [7]) ∧ supplied (ready [7]) ws rest ∧
      ws.length = drawsOf (.land 24 0 1) (ready [7])) ∧
    (∃ (ws : List Word) (rest : List Answer), (ready [7]).Inv ∧ accepts .theta (ready [7]) ∧ supplied (ready [7]) ws rest ∧
      ws.length = drawsOf .theta (ready [7])) :=
  ⟨⟨[7], [], ready_inv _, accepts_of rfl rfl (by decide), rfl, rfl⟩,
    ⟨[], [.word 7], ready_inv _, accepts_of rfl rfl (by decide), rfl, rfl⟩⟩

theorem witness_FailureScrubsAndHalts :
    (∃ (s : State) (ws : List Word) (rest : List Answer), State.Inv s ∧ accepts (.lmask 24) s ∧ s.answers = ws.map .word ++ .failure :: rest ∧
      ws.length < drawsOf (.lmask 24) s) ∧ ∃ s : State, s.params.D = 0 :=
  ⟨⟨{ raw (order 2) 5 [] [] with answers := [.word 7, .failure] }, [7], [],
      inv_idle (gridOk_zeroGrid _) rfl ⟨rfl, rfl, rfl, rfl, rfl, rfl, rfl⟩ rfl (by decide) rfl,
      accepts_of rfl rfl (by decide), rfl, by decide⟩, plain [], rfl⟩

theorem witness_MissingAnswerLeavesTheCommandBusy : ∃ (s : State) (ws : List Word), State.Inv s ∧ accepts (.lmask 24) s ∧
    s.answers = ws.map .word ∧ ws.length < drawsOf (.lmask 24) s :=
  ⟨raw (order 2) 5 [] [7], [7], inv_raw _ _ _ _ (by decide), accepts_of rfl rfl (by decide), rfl, by decide⟩

/-- Two words with a read, an ignored write and a late answer between them; and a word and then a Failure. -/
theorem witness_BusyCommandEqualsAtomicCommand :
    (∃ (s : State) (ws : List Word) (as : List Answer) (es : List Input) (a : Answer), State.Inv s ∧ accepts (.lmask 24) s ∧ s.answers = [] ∧ s.inputs = es ++ [.answer a] ∧
      (∀ e ∈ es, e ≠ .reset) ∧ answersIn s.inputs = as ∧ as = ws.map .word ∧ ws.length = drawsOf (.lmask 24) s) ∧
    (∃ (s : State) (ws : List Word) (as : List Answer) (es : List Input) (a : Answer), State.Inv s ∧ accepts (.lmask 24) s ∧ s.answers = [] ∧ s.inputs = es ++ [.answer a] ∧
      (∀ e ∈ es, e ≠ .reset) ∧ answersIn s.inputs = as ∧ as = ws.map .word ++ [.failure] ∧
      ws.length < drawsOf (.lmask 24) s) :=
  ⟨⟨{ raw (order 2) 5 [] [] with
        inputs := [.answer (.word 7), .read 0x30 8, .write 0x08 8 1, .lateAnswer .failure] ++ [.answer (.word 9)] },
      [7, 9], _, _, _, inv_inputs (inv_raw _ _ _ _ (by decide)) _, accepts_of rfl rfl (by decide), rfl, rfl, by decide, rfl, rfl,
      by decide⟩,
    ⟨{ raw (order 2) 5 [] [] with inputs := [.answer (.word 7)] ++ [.answer .failure] }, [7], _, _, _,
      inv_inputs (inv_raw _ _ _ _ (by decide)) _, accepts_of rfl rfl (by decide), rfl, rfl, by decide, rfl, rfl, by decide⟩⟩

theorem witness_HaltIgnoresWritesAndStillReads :
    (∃ s, State.Inv s ∧ s.halt = true ∧ s.inputs = [.write 0x00 8 0x10]) ∧
    (∀ off ∈ [0x08, 0x10, 0x18, 0x20, 0x28, 0x30], ∃ s, State.Inv s ∧ s.halt = true ∧ s.inputs = [.read off 8]) ∧
    (∃ s, State.Inv s ∧ s.halt = true ∧ s.inputs = [.answer .failure]) :=
  ⟨⟨halted _, halted_inv _, rfl, rfl⟩, fun _ _ => ⟨halted _, halted_inv _, rfl, rfl⟩, ⟨halted _, halted_inv _, rfl, rfl⟩⟩

theorem witness_OnlyResetLeavesHalt : ∃ s t, s.inputs.head? = some .reset ∧ step s = .next t ∧ s.halt = true ∧ t.halt = false :=
  ⟨halted [.reset], _, rfl, rfl, rfl, rfl⟩

/-- A CTRL write that scrubs an absorbing block, and a reset of it. -/
theorem witness_PhaseChangesOnlyByItsTable :
    (∃ s t, State.Inv s ∧ step s = .next t ∧ t.sph ≠ s.sph ∧ entersRaw s) ∧
    (∃ s t, State.Inv s ∧ step s = .next t ∧ t.sph ≠ s.sph ∧ s.inputs.head? = some .reset) :=
  ⟨⟨{ absorbing (order 1) ⟨72, 6, 64⟩ 0 [] with inputs := [.write 0x20 8 1] }, _,
      inv_inputs (inv_absorbing _ _ _ _ (by unfold rateOk; decide)) _, rfl, by decide, 1, ⟨rfl, rfl, rfl⟩, by decide, rfl⟩,
    ⟨{ absorbing (order 1) ⟨72, 6, 64⟩ 0 [] with inputs := [.reset] }, _,
      inv_inputs (inv_absorbing _ _ _ _ (by unfold rateOk; decide)) _, rfl, by decide, rfl⟩⟩

theorem witness_ResultWrittenOnlyByItsCommands : ∃ s t, step s = .next t ∧ t.result ≠ s.result :=
  ⟨{ given [.reset] with result := 9 }, _, rfl, by decide⟩

theorem witness_GadgetLaws : ∃ (a b : Lane) (ws vs : List Word), a.length = 2 + 1 ∧ b.length = 2 + 1 ∧ ws.length = 2 ∧
    vs.length = 2 * (2 + 1) / 2 := ⟨[1, 2, 4], [3, 5, 6], [7, 8], [0x10, 0x20, 0x40], rfl, rfl, rfl, rfl⟩

theorem witness_LmaskMasksArg : ∃ (s : State) (ws : List Word) (rest : List Answer), State.Inv s ∧ accepts (.lmask 24) s ∧ supplied s ws rest ∧
    ws.length = s.params.D := ⟨ready [7], [7], [], ready_inv _, accepts_of rfl rfl (by decide), rfl, rfl⟩

theorem witness_LmxorXorsMaskedArg : ∃ (s : State) (ws : List Word) (rest : List Answer), State.Inv s ∧ accepts (.lmxor 24) s ∧ supplied s ws rest ∧
    ws.length = s.params.D := ⟨ready [7], [7], [], ready_inv _, accepts_of rfl rfl (by decide), rfl, rfl⟩

/-- The commands that draw nothing, with lane 24 and `N` at the ends of their ranges; `la = lb` for LXOR. -/
theorem witness_undrawn_commands : ∀ i ∈ [Instr.lxorc 24, .lunmask 24, .lmov 0 24, .lxor 24 0 0, .lnot 24 0, .lrotl 24 0 63,
    .stclr, .theta, .rho, .pi, .iota 23], (ready []).Inv ∧ accepts i (ready []) := by
  intro i h
  refine ⟨ready_inv _, accepts_of rfl rfl ?_⟩
  revert i; decide

theorem witness_LandIsTheMaskedAnd : ∃ (s : State) (ws : List Word) (rest : List Answer), State.Inv s ∧ accepts (.land 24 0 1) s ∧ supplied s ws rest ∧
    ws.length = s.params.D * (s.params.D + 1) / 2 :=
  ⟨ready [7, 8], [7], [.word 8], ready_inv _, accepts_of rfl rfl (by decide), rfl, rfl⟩

/-- CHI and ROUND #23. -/
theorem witness_ChiUsesAFreshAndForEveryLane_and_Round : ∀ i ∈ [Instr.chi, .round 23], ∃ (s : State) (ws : List Word) (rest : List Answer), State.Inv s ∧
    accepts i s ∧ supplied s ws rest ∧ ws.length = 25 * (s.params.D * (s.params.D + 1) / 2) := by
  intro i h
  refine ⟨ready (List.replicate 25 7), List.replicate 25 7, [], ready_inv _, accepts_of rfl rfl ?_, rfl, rfl⟩
  revert i; decide

/-- PERMUTE, for PermuteIsKeccakF, RoundsInOrderEqualPermute and PermuteSharesFollowTheDraws. -/
theorem witness_PermuteIsKeccakF : ∃ (s : State) (ws : List Word) (rest : List Answer), State.Inv s ∧ accepts .permute s ∧ supplied s ws rest ∧
    ws.length = 300 * s.params.D * (s.params.D + 1) := by
  obtain ⟨ws, h⟩ : ∃ ws : List Word, ws.length = 600 := ⟨List.replicate 600 7, List.length_replicate⟩
  exact ⟨ready ws, ws, [], ready_inv _, accepts_of rfl rfl rfl, (List.append_nil _).symm, h⟩

/-- Every variant. -/
theorem witness_SinitSetsTheVariant : ∀ n ∈ [(0 : BitVec 6), 1, 2, 3, 4, 5, 6], ∃ s, State.Inv s ∧ accepts (.sinit n) s := by
  intro n h
  refine ⟨raw (order 1) 0x0000002000060088 [] [], inv_raw _ _ _ _ (by decide), accepts_of rfl rfl ?_⟩
  revert n; decide

theorem absorbed_nil (p : Params) (sp : SpongeParams) (arg : Word) (ws : List Word) (h : rateOk sp.rate) :
    absorbed (absorbing p sp arg ws) [] := by
  refine ⟨rfl, h, rfl, ?_, by simp [absorbing, State.resetOf, absorbFull, fullBlocks, leWord], ?_⟩
  · obtain ⟨h1, h2, h3⟩ := h
    show 0 < sp.rate.toNat; omega
  · show gridValues (zeroGrid _) = xorBlock (([] : List Byte).length / 8) [] (List.replicate 25 0)
    rw [gridValues_zeroGrid, List.length_nil, Nat.zero_div, xorBlock_zero _ (by simp)]

/-- Seven bytes and no lane completed; eight and a lane, not the block; the one lane of the block of rate 8. -/
theorem witness_SabsorbAbsorbsTheBytes : ∀ x ∈ [((72 : BitVec 8), (7 : BitVec 6), 0, 0), (72, 8, 1, 0), (8, 8, 1, 1)],
    ∃ (s : State) (msg : List Byte) (ws : List Word) (rest : List Answer), State.Inv s ∧ accepts (.sabsorb x.2.1) s ∧
    absorbed s msg ∧ supplied s ws rest ∧ ws.length = drawsOf (.sabsorb x.2.1) s ∧ s.params.D = 1 ∧
    lanesCompleted s x.2.1.toNat = x.2.2.1 ∧ blocksCompleted s x.2.1.toNat = x.2.2.2 := by
  intro x h
  have hr : rateOk x.1 := by unfold rateOk; revert x; decide
  obtain ⟨ws, hw⟩ : ∃ ws : List Word, ws.length = x.2.2.1 + 600 * x.2.2.2 :=
    ⟨List.replicate _ 7, List.length_replicate⟩
  refine ⟨absorbing (order 1) ⟨x.1, 6, 64⟩ 5 ws, [], ws, [], inv_absorbing _ _ _ _ hr, accepts_of rfl rfl ?_,
    absorbed_nil _ _ _ _ hr, (List.append_nil _).symm, hw.trans ?_, rfl, ?_, ?_⟩
  · show check (.sabsorb x.2.1) (absorbing (order 1) ⟨x.1, 6, 64⟩ 5 []) = none
    clear hr hw; revert x; decide
  · show _ = drawsOf (.sabsorb x.2.1) (absorbing (order 1) ⟨x.1, 6, 64⟩ 5 [])
    clear hr hw; revert x; decide
  · show lanesCompleted (absorbing (order 1) ⟨x.1, 6, 64⟩ 5 []) _ = _
    clear hr hw; revert x; decide
  · show blocksCompleted (absorbing (order 1) ⟨x.1, 6, 64⟩ 5 []) _ = _
    clear hr hw; revert x; decide

/-- OUTLEN above 0, and OUTLEN 0; both at `D = 0`. -/
theorem witness_SfinalPadsAndPermutes : ∀ o ∈ [(0 : Word), 64], ∃ (s : State) (msg : List Byte) (ws : List Word) (rest : List Answer), State.Inv s ∧ accepts .sfinal s ∧
    absorbed s msg ∧ supplied s ws rest ∧ ws.length = drawsOf .sfinal s ∧ s.outLen = o := by
  intro o _
  have hr : rateOk (168 : BitVec 8) := by unfold rateOk; decide
  refine ⟨absorbing (order 0) ⟨168, 0x1F, o⟩ 5 [], [], [], [], inv_absorbing _ _ _ _ hr, accepts_of rfl rfl rfl,
    absorbed_nil _ _ _ _ hr, rfl, ?_, rfl⟩
  show 0 = drawsOf .sfinal (absorbing (order 0) ⟨168, 0x1F, 0⟩ 5 [])
  decide

/-- Not the last bytes, and the last ones. -/
theorem witness_SsqueezeDeliversTheNextBytes : ∀ n ∈ [(1 : BitVec 6), 8], ∃ (s : State) (ws : List Word) (rest : List Answer), State.Inv s ∧ accepts (.ssqueeze n) s ∧
    supplied s ws rest ∧ ws.length = drawsOf (.ssqueeze n) s := by
  intro n h
  refine ⟨squeezing (order 1) ⟨72, 6, 8⟩ [1, 2] [7], [], [.word 7],
    inv_squeezing _ _ _ _ rfl (by unfold rateOk; decide) (by decide), accepts_of rfl rfl ?_, rfl, ?_⟩ <;> revert n <;> decide

/-- A state at the end of its first window of 72 bytes, 8 more to come, at `D = 1`. -/
def windowEnd (ws : List Word) : State := { squeezing (order 1) ⟨72, 6, 80⟩ [1, 2] ws with spos := 72, delivered := 72 }

/-- The 8 last bytes, from a window that they open. -/
theorem witness_SsqueezeDeliversTheNextBytes_window : ∃ (s : State) (ws : List Word) (rest : List Answer), State.Inv s ∧
    accepts (.ssqueeze 8) s ∧ supplied s ws rest ∧ ws.length = drawsOf (.ssqueeze 8) s ∧ windowsOpened s 8 = 1 := by
  obtain ⟨ws, h⟩ : ∃ ws : List Word, ws.length = 600 := ⟨List.replicate 600 7, List.length_replicate⟩
  refine ⟨windowEnd ws, ws, [], inv_idle (gridOk_gridWith 1 _ (by decide)) rfl ?_ rfl (by intro h; cases h) rfl,
    accepts_of rfl rfl ?_, (List.append_nil _).symm, h.trans ?_, rfl⟩
  · exact ⟨⟨by show 72 % 8 = 0; decide, by show 8 ≤ 72; decide, by show 72 ≤ 192; decide⟩, rfl, rfl, Nat.le_refl 72, by show 72 < 80; decide⟩
  · show check (.ssqueeze 8) (windowEnd []) = none
    decide
  · show _ = drawsOf (.ssqueeze 8) (windowEnd [])
    decide

/-- SHA3-512 of three bytes at `D = 0`. -/
theorem witness_SpongeRunEqualsReference : ∃ (s : State) (sp : SpongeParams) (chunks counts : List (Word × BitVec 6))
    (ws : List Word) (rest : List Answer), s.Inv ∧ s.halt = false ∧ s.running = none ∧ spongeVariant 3 0 = some sp ∧
    (∀ c ∈ chunks, 1 ≤ c.2.toNat ∧ c.2.toNat ≤ 8) ∧ (∀ c ∈ counts, 1 ≤ c.2.toNat ∧ c.2.toNat ≤ 8) ∧
    (counts.map fun c => c.2.toNat).sum = sp.outLen.toNat ∧ supplied s ws rest ∧
    ws.length = s.params.D * (sp.rate.toNat / 8) * ((chunkBytes chunks).length / sp.rate.toNat + 1)
      + 300 * s.params.D * (s.params.D + 1) * ((chunkBytes chunks).length / sp.rate.toNat + 1
        + ((sp.outLen.toNat + sp.rate.toNat - 1) / sp.rate.toNat - 1)) :=
  ⟨raw (order 0) 5 [] [], ⟨72, 6, 64⟩, [(0x0201, 2), (3, 1)], List.replicate 8 (0, 8), [], [], inv_raw _ _ _ _ (by decide),
    rfl, rfl, by decide, by simp, by simp, by simp, rfl, by simp [raw, order, State.resetOf]⟩

/-- SHA3-512 of three bytes at `D = 1`: 9 lanes masked and one permutation. -/
theorem witness_SpongeRunSharesEqualReference : ∃ (s : State) (sp : SpongeParams) (chunks counts : List (Word × BitVec 6))
    (ws : List Word) (rest : List Answer), s.Inv ∧ s.halt = false ∧ s.running = none ∧ spongeVariant 3 0 = some sp ∧
    (∀ c ∈ chunks, 1 ≤ c.2.toNat ∧ c.2.toNat ≤ 8) ∧ (∀ c ∈ counts, 1 ≤ c.2.toNat ∧ c.2.toNat ≤ 8) ∧
    (counts.map fun c => c.2.toNat).sum = sp.outLen.toNat ∧ supplied s ws rest ∧ s.params.D = 1 ∧
    ws.length = s.params.D * (sp.rate.toNat / 8) * ((chunkBytes chunks).length / sp.rate.toNat + 1)
      + 300 * s.params.D * (s.params.D + 1) * ((chunkBytes chunks).length / sp.rate.toNat + 1
        + ((sp.outLen.toNat + sp.rate.toNat - 1) / sp.rate.toNat - 1)) := by
  obtain ⟨ws, h⟩ : ∃ ws : List Word, ws.length = 609 := ⟨List.replicate 609 7, List.length_replicate⟩
  exact ⟨raw (order 1) 5 [] ws, ⟨72, 6, 64⟩, [(0x0201, 2), (3, 1)], List.replicate 8 (0, 8), ws, [],
    inv_raw _ _ _ _ (by decide), rfl, rfl, by decide, by simp, by simp, by simp, (List.append_nil _).symm, rfl, by
      rw [h]; simp [raw, order, State.resetOf, chunkBytes, bytesOf]⟩

/-- Two sharings, of orders 1 and 0, of the same values. -/
theorem witness_PlaintextIndependentOfShares : ∃ i s s' t t', State.Inv s ∧ State.Inv s' ∧ s.running = none ∧
    s'.running = none ∧ samePlain s s' ∧ exec i s = .next t ∧ completed t ∧ exec i s' = .next t' ∧ completed t' ∧
    s.lanes ≠ s'.lanes := by
  refine ⟨.lunmask 24, raw (order 1) 5 [(24, [8, 13])] [], raw (order 0) 5 [(24, [5])] [], _, _,
    inv_raw _ _ _ _ (by decide), inv_raw _ _ _ _ (by decide), rfl, rfl,
    ⟨by decide, rfl, rfl, rfl, rfl, rfl, rfl, rfl, rfl, rfl, rfl, rfl⟩, exec_pure (by decide) rfl, ⟨rfl, rfl⟩,
    exec_pure (by decide) rfl, ⟨rfl, rfl⟩, by decide⟩

/-- Two states that differ in a lane, in ARG and in the word that is ready. -/
theorem witness_PublicBehaviourIndependentOfSecrets : ∃ i s s' t t', State.Inv s ∧ State.Inv s' ∧ samePublic s s' ∧
    (∀ n, i = .sinit n → s'.arg = s.arg) ∧ exec i s = .next t ∧ exec i s' = .next t' ∧ s.lanes ≠ s'.lanes ∧
    s.arg ≠ s'.arg := by
  obtain ⟨t, ht⟩ := exec_next (.lmask 24) (ready [7])
  obtain ⟨t', ht'⟩ := exec_next (.lmask 24) (raw (order 1) 6 [(24, [1, 1])] [9])
  exact ⟨.lmask 24, ready [7], raw (order 1) 6 [(24, [1, 1])] [9], t, t', ready_inv _, inv_raw _ _ _ _ (by decide),
    ⟨rfl, rfl, rfl, rfl, rfl, rfl, rfl, rfl, rfl, rfl, rfl, rfl, rfl, rfl⟩, (by intro n h; cases h), ht, ht', by decide,
    by decide⟩

end Sys2Proof.Tests
end

section
/-! Which instances exist (R10, R314), and that no step changes the order. -/

namespace Sys2Proof.Machine

/-- R10, R314: within the bounds, the instance built is the one in the reset state of the parameters given. -/
theorem construct_of_bounds {D DMax : Nat} (h : D ≤ DMax ∧ DMax ≤ 255) :
    State.construct D DMax = some (State.resetOf ⟨D, DMax, h.1, h.2⟩) := dif_pos h

theorem construct_of_not_bounds {D DMax : Nat} (h : ¬ (D ≤ DMax ∧ DMax ≤ 255)) : State.construct D DMax = none := dif_neg h

theorem construct_eq_none_iff {D DMax : Nat} : State.construct D DMax = none ↔ ¬ (D ≤ DMax ∧ DMax ≤ 255) :=
  ⟨fun hn h => by simp [construct_of_bounds h] at hn, construct_of_not_bounds⟩

theorem params_of_construct {D DMax : Nat} {s : State} (hs : State.construct D DMax = some s) :
    s.params.D = D ∧ s.params.DMax = DMax := by
  by_cases h : D ≤ DMax ∧ DMax ≤ 255
  · obtain rfl : State.resetOf ⟨D, DMax, h.1, h.2⟩ = s := by simpa [construct_of_bounds h] using hs
    exact ⟨rfl, rfl⟩
  · simp [construct_of_not_bounds h] at hs

/-- Settles O18, from what `construct` answers within and out of the bounds and the frame of every step. -/
theorem constructionRefusesOrdersOutOfBounds : Obligations.ConstructionRefusesOrdersOutOfBounds :=
  ⟨fun _ _ => construct_eq_none_iff, fun _ _ _ => params_of_construct, fun _ _ h => (step_frame h).1⟩

end Sys2Proof.Machine
end

section
/-! What one input does to the block, said once for every step; and from it that every step keeps the invariant. -/

namespace Sys2Proof.Machine

/-! ### The effect of one input -/

/-- What the input `e` does to the state `s` that has just consumed it (R81 to R92, R300, R315, R350). -/
inductive InputEffect : Input → State → State → Prop where
  /-- A read hands over a value; of a BUSY command it records only how much of RNG_COUNT was shown. -/
  | read {off width : Nat} {s : State} {v : Word} {n : Nat} {o : Option Running} (idle : s.running = none → o = none)
      (busy : ∀ r, s.running = some r → ∃ k, o = some { r with shown := k } ∧
        (r.shown ≤ r.drawn.length → r.shown ≤ k ∧ k ≤ r.drawn.length)) :
      InputEffect (.read off width) s { s with readData := v, freeTick := n, running := o }
  /-- A write that has no effect. -/
  | writeIgnored {off width : Nat} {v : Word} {s : State} : InputEffect (.write off width v) s s
  /-- A write to CMD, ARG or CTRL while BUSY. -/
  | writeBusy {off : Nat} {v : Word} {s : State} (halt : s.halt = false) (busy : s.running ≠ none) :
      InputEffect (.write off 8 v) s { s with ign := true }
  /-- A CMD write that is taken. -/
  | cmd {v : Word} {s t : State} (halt : s.halt = false) (idle : s.running = none) (taken : submit v s = .next t) :
      InputEffect (.write 0x00 8 v) s t
  /-- An ARG write that is taken. -/
  | arg {v : Word} {s : State} (halt : s.halt = false) (idle : s.running = none) :
      InputEffect (.write 0x08 8 v) s { s with arg := v }
  /-- A CTRL write that is taken. -/
  | ctrl {v : Word} {s : State} (halt : s.halt = false) (idle : s.running = none) :
      InputEffect (.write 0x20 8 v) s (writeCtrl v s)
  /-- An answer that no command waits for. -/
  | answerKept {a : Answer} {s : State} (idle : s.running = none) :
      InputEffect (.answer a) s { s with answers := s.answers ++ [a] }
  /-- An answer that a BUSY command waits for. -/
  | answerTaken {a : Answer} {s t : State} {r : Running} (busy : s.running = some r) (taken : takeAnswer a s = .next t) :
      InputEffect (.answer a) s t
  /-- An answer to a request of before a reset. -/
  | lateAnswer {a : Answer} {s : State} : InputEffect (.lateAnswer a) s s
  /-- Reset. -/
  | reset {s : State} : InputEffect .reset s (resetBlock s)

theorem inputEffect_of_takeInput {e : Input} {s t : State} (h : takeInput e s = .next t) : InputEffect e s t := by
  cases e with
  | read off width =>
    obtain ⟨v, n, o, hread, idle, busy⟩ := hostRead_keeps off width s
    rw [takeInput, hread] at h
    cases h
    exact .read idle busy
  | write off width v =>
    obtain rfl | ⟨hh, hr, rfl, -, rfl⟩ | ⟨hh, hr, rfl, rfl, hs⟩ | ⟨hh, hr, rfl, rfl, rfl⟩ | ⟨hh, hr, rfl, rfl, rfl⟩ :=
      hostWrite_cases off width v s t h
    · exact .writeIgnored
    · exact .writeBusy hh hr
    · exact .cmd hh hr hs
    · exact .arg hh hr
    · exact .ctrl hh hr
  | answer a =>
    cases hr : s.running with
    | none =>
      rw [takeInput, takeAnswer_idle hr] at h
      cases h
      exact .answerKept hr
    | some r => exact .answerTaken hr h
  | lateAnswer a => cases h; exact .lateAnswer
  | reset => cases h; exact .reset

/-- A step holds the state, or consumes the next input and takes its effect. -/
theorem step_cases {s t : State} (h : step s = .next t) :
    (s.inputs = [] ∧ t = s) ∨ ∃ e rest, s.inputs = e :: rest ∧ InputEffect e { s with inputs := rest } t := by
  cases hi : s.inputs with
  | nil =>
    simp only [step, hi] at h
    cases h
    exact .inl ⟨rfl, rfl⟩
  | cons e rest =>
    rw [step_cons hi] at h
    exact .inr ⟨e, rest, rfl, inputEffect_of_takeInput h⟩

/-! ### The two ways of a CTRL write (R43) -/

theorem writeCtrl_scrubs {v : Word} {s : State} (hv : v.getLsbD 0 = true) (hr : s.rawEn = false) :
    writeCtrl v s = { scrub s with rawEn := true } := by
  rw [writeCtrl, hv, hr]
  rfl

theorem writeCtrl_sets {v : Word} {s : State} (h : ¬ (v.getLsbD 0 = true ∧ s.rawEn = false)) :
    writeCtrl v s = { s with rawEn := v.getLsbD 0 } :=
  if_neg (by simpa using h)

/-! ### A BUSY command answered once more -/

/-- What a BUSY command does with its next answer, by the fields a host can tell it from: it ends, its word counted or its
Failure not, or it stays BUSY with the word drawn (R44, R360). -/
theorem takeAnswer_counts {s t : State} (h : s.Inv) {r : Running} (hr : s.running = some r) {a : Answer}
    (ht : takeAnswer a s = .next t) :
    t.answers = [] ∧ t.rngCount = s.rngCount + BitVec.ofNat 64 (wordsOf [a]).length ∧
      (t.running = none ∨ ∃ w, t.running = some { r with drawn := r.drawn ++ [w] }) := by
  obtain ⟨w, u, rfl, -, ⟨⟨-, hm⟩, -⟩, e⟩ | ⟨rfl, e⟩ | ⟨w, rfl, -, e⟩ := takeAnswer_cases h hr a <;>
    (rw [e] at ht; cases ht)
  · have hu : u.running = none := congrArg Meta.running hm
    exact ⟨rfl, rfl, .inl (by simp [restore, freshTemps, hu])⟩
  · exact ⟨rfl, by simp [restore, wordsOf], .inl rfl⟩
  · exact ⟨(h.busyOk r hr).2.1, rfl, .inr ⟨w, rfl⟩⟩

end Sys2Proof.Machine
end

section
/-! The invariant of the block: it holds at reset, and every input keeps it (R30, R31, R42, R46 to R49, R310, R311, R360). -/

namespace Sys2Proof.Machine

/-- A block that is idle and not halted meets the invariant as soon as its state has the right shape. -/
theorem inv_of_idle {s : State} (hs : bodyOk s) (hh : s.halt = false) (hr : s.running = none) (he : s.err ≠ .rng) : s.Inv where
  grid := hs.grid
  matrix := hs.matrix
  sponge := hs.sponge
  halted := by simp [hh, he]
  scrubbed := by simp [hh]
  busyOk := by simp [hr]

theorem err_ne_rng_of_inv {s : State} (h : s.Inv) (hh : s.halt = false) : s.err ≠ .rng := fun he => by
  simp [h.halted.mpr he] at hh

/-- The shape of the reset state, whatever the host and the source have ready. -/
theorem bodyOk_resetOf (p : Params) : bodyOk (State.resetOf p) :=
  ⟨gridOk_zeroGrid _, rfl, rfl, rfl, rfl, rfl, rfl, rfl, rfl⟩

/-- Settles O19: the reset state is idle, not halted, and of the right shape. -/
theorem resetMeetsInvariant : Obligations.ResetMeetsInvariant :=
  fun p => inv_of_idle (bodyOk_resetOf p) rfl rfl (by simp [State.resetOf])

theorem inv_resetBlock (s : State) : (resetBlock s).Inv :=
  have hs := bodyOk_resetOf s.params
  inv_of_idle ⟨hs.grid, hs.matrix, hs.sponge⟩ rfl rfl (by simp [resetBlock, State.resetOf])

/-- What a read records keeps the invariant: no more of RNG_COUNT is shown than was delivered (R44). -/
theorem inv_read {s : State} (h : s.Inv) {v : Word} {n : Nat} {o : Option Running} (idle : s.running = none → o = none)
    (busy : ∀ r, s.running = some r → ∃ k, o = some { r with shown := k } ∧
      (r.shown ≤ r.drawn.length → r.shown ≤ k ∧ k ≤ r.drawn.length)) :
    State.Inv { s with readData := v, freeTick := n, running := o } where
  grid := h.grid
  matrix := h.matrix
  sponge := h.sponge
  halted := h.halted
  scrubbed hh :=
    have ⟨hr, hs⟩ := h.scrubbed hh
    ⟨idle hr, congrArg (fun u : State => { u with readData := v, freeTick := n, running := o }) hs⟩
  busyOk q hq := by
    cases hr : s.running with
    | none => cases (idle hr).symm.trans hq
    | some r =>
      obtain ⟨k, hk, hle⟩ := busy r hr
      obtain rfl : { r with shown := k } = q := Option.some.inj (hk.symm.trans hq)
      obtain ⟨hh, ha, he, hc, hcount, hsh, hlt⟩ := h.busyOk r hr
      exact ⟨hh, ha, he, (check_congr rfl rfl rfl rfl rfl).trans hc, hcount, (hle hsh).2,
        hlt.trans_eq (drawsOf_congr rfl rfl rfl rfl).symm⟩

/-- IGN is free while the block is not halted. -/
theorem inv_setIgn {s : State} (h : s.Inv) (hh : s.halt = false) (b : Bool) : State.Inv { s with ign := b } where
  grid := h.grid
  matrix := h.matrix
  sponge := h.sponge
  halted := h.halted
  scrubbed e := by simp [hh] at e
  busyOk r hr := by
    obtain ⟨hh, ha, he, hc, hcount, hsh, hlt⟩ := h.busyOk r hr
    exact ⟨hh, ha, he, (check_congr rfl rfl rfl rfl rfl).trans hc, hcount, hsh,
      hlt.trans_eq (drawsOf_congr rfl rfl rfl rfl).symm⟩

theorem inv_submit {v : Word} {s t : State} (h : s.Inv) (hh : s.halt = false) (hr : s.running = none)
    (ht : submit v s = .next t) : t.Inv := by
  unfold submit at ht
  split at ht
  · exact inv_exec h hh hr ht
  · cases ht
    exact inv_rejected h hh hr (by simp)

theorem inv_writeCtrl {s : State} (h : s.Inv) (hh : s.halt = false) (hr : s.running = none) (v : Word) :
    (writeCtrl v s).Inv := by
  by_cases hw : v.getLsbD 0 = true ∧ s.rawEn = false
  · rw [writeCtrl_scrubs hw.1 hw.2]
    exact inv_scrub h hh hr true
  · rw [writeCtrl_sets hw]
    have he := err_ne_rng_of_inv h hh
    exact inv_of_idle ⟨h.grid, h.matrix, h.sponge⟩ hh hr he

/-- While no command is BUSY the answers that are ready are free. -/
theorem inv_setAnswers {s : State} (h : s.Inv) (hr : s.running = none) (as : List Answer) :
    State.Inv { s with answers := as } where
  grid := h.grid
  matrix := h.matrix
  sponge := h.sponge
  halted := h.halted
  scrubbed hh := ⟨hr, congrArg (fun u : State => { u with answers := as }) (h.scrubbed hh).2⟩
  busyOk r e := by cases hr.symm.trans e

/-- What is put back at the end of a BUSY interval does not touch the invariant. -/
theorem inv_restore {s t : State} (h : t.Inv) (hr : t.running = none) (r : Running) : (restore s r t).Inv where
  grid := h.grid
  matrix := h.matrix
  sponge := h.sponge
  halted := h.halted
  scrubbed hh :=
    ⟨by simp [restore, hr],
      congrArg (fun u : State => { u with ign := s.ign, running := u.running.map fun q : Running => { q with shown := r.shown } })
        (h.scrubbed hh).2⟩
  busyOk q e := by simp [restore, hr] at e

/-- A word that leaves the command BUSY: it is counted, and the command needs more (R44, R360). -/
theorem inv_wordDrawn {s : State} (h : s.Inv) {r : Running} (hr : s.running = some r) (w : Word)
    (hlt : r.drawn.length + 1 < drawsOf r.cmd s) :
    State.Inv { s with rngCount := s.rngCount + 1, running := some { r with drawn := r.drawn ++ [w] } } := by
  obtain ⟨hh, ha, he, hc, hcount, hsh, -⟩ := h.busyOk r hr
  refine ⟨h.grid, h.matrix, h.sponge, h.halted, fun e => by simp [hh] at e, fun q hq => ?_⟩
  cases hq
  refine ⟨hh, ha, he, (check_congr rfl rfl rfl rfl rfl).trans hc, ?_, ?_, ?_⟩
  · simp [hcount, BitVec.ofNat_add, BitVec.add_assoc]
  · simp only [List.length_append]
    omega
  · rw [List.length_append, List.length_singleton]
    exact hlt.trans_eq (drawsOf_congr rfl rfl rfl rfl).symm

/-- An answer that a BUSY command waits for: the command completes, fails, or waits on. -/
theorem inv_takeAnswer {s t : State} (h : s.Inv) {r : Running} (hr : s.running = some r) {a : Answer}
    (ht : takeAnswer a s = .next t) : t.Inv := by
  obtain ⟨w, u, -, -, ⟨⟨hu, hm⟩, -⟩, e⟩ | ⟨-, e⟩ | ⟨w, -, hlt, e⟩ := takeAnswer_cases h hr a <;>
    (rw [e] at ht; cases ht)
  · have hh : s.halt = false := (h.busyOk r hr).1
    have hu_inv := inv_completed (s := rewind r a s) hh rfl hu hm (s.rngCount + 1) []
    exact inv_restore hu_inv (congrArg Meta.running hm) r
  · exact inv_restore (inv_failed (rewind r a s) _ _) rfl r
  · exact inv_wordDrawn h hr w hlt

theorem inv_inputEffect {e : Input} {s t : State} (h : s.Inv) (he : InputEffect e s t) : t.Inv := by
  cases he with
  | read idle busy => exact inv_read h idle busy
  | writeIgnored => exact h
  | writeBusy hh _ => exact inv_setIgn h hh true
  | cmd hh hr ht => exact inv_submit h hh hr ht
  | arg hh hr =>
    have he := err_ne_rng_of_inv h hh
    exact inv_of_idle ⟨h.grid, h.matrix, h.sponge⟩ hh hr he
  | ctrl hh hr => exact inv_writeCtrl h hh hr _
  | answerKept hr => exact inv_setAnswers h hr _
  | answerTaken hr ht => exact inv_takeAnswer h hr ht
  | lateAnswer => exact h
  | reset => exact inv_resetBlock s

/-- Settles O20: consuming an input keeps the invariant, and so does the effect of each. -/
theorem stepKeepsInvariant : Obligations.StepKeepsInvariant := by
  intro s t h hst
  obtain ⟨-, rfl⟩ | ⟨e, rest, -, he⟩ := step_cases hst
  · exact h
  · exact inv_inputEffect (inv_inputs h rest) he

end Sys2Proof.Machine
end

section
/-! What the host reads in the registers, and what writes ARG, CTRL and RESULT (R36 to R44, R88). -/

namespace Sys2Proof.Machine

/-! ### Idle reads -/

/-- The word a register shows while no command is BUSY, by its offset (R36). -/
def registerWord (off : Nat) (s : State) : Word :=
  match off with
  | 0x08 => s.arg
  | 0x10 => s.result
  | 0x18 => statusWord s s.sph
  | 0x20 => ctrlWord s
  | 0x28 => infoWord s.params
  | 0x30 => s.rngCount
  | _ => 0

theorem readStatus_idle {s : State} (hr : s.running = none) :
    readStatus s = { s with readData := statusWord s s.sph } := by
  simp only [readStatus, hr]

theorem readCount_idle {s : State} (hr : s.running = none) :
    readCount s = { s with readData := s.rngCount } := by
  simp only [readCount, hr]

theorem readRegister_idle {s : State} (hr : s.running = none) (off : Nat) :
    readRegister off s = { s with readData := registerWord off s } := by
  unfold readRegister
  split
  case h_3 => exact readStatus_idle hr
  case h_6 => exact readCount_idle hr
  case h_7 => rw [registerWord] <;> assumption
  all_goals rfl

/-- A step that reads a register: the input is consumed, and the register map answers. -/
theorem step_readRegister {s : State} {off : Nat} {rest : List Input} (h : s.inputs = .read off 8 :: rest) (ho : off < 0x40)
    (h8 : off % 8 = 0) : step s = .next (readRegister off { s with inputs := rest }) := by
  rw [step_read h, hostRead_performed ho h8]

/-- STATUS of an idle block, without its BUSY bit. -/
theorem statusWord_idle {s : State} (hr : s.running = none) (p : Phase) : (statusWord s p).toNat
    = 2 * s.halt.toNat + 4 * s.ign.toNat + 16 * s.err.code.toNat + 256 * p.code.toNat := by
  simp [statusWord_toNat, State.busy, hr]

/-- Settles O8: an idle read returns `registerWord`, taken apart offset by offset. -/
theorem idleReadsReturnTheRegisters : Obligations.IdleReadsReturnTheRegisters := by
  intro s off rest hr hi ho h8
  have hidle : State.running { s with inputs := rest } = none := hr
  refine ⟨registerWord off { s with inputs := rest }, by rw [step_readRegister hi ho h8, readRegister_idle hidle], ?_⟩
  refine ⟨?_, ?_, ?_, ?_, ?_, ?_, ?_, ?_⟩ <;> rintro rfl
  · rfl
  · rfl
  · rfl
  · refine (statusWord_idle hidle s.sph).trans ?_
    cases s.err <;> cases s.sph <;> rfl
  · exact ctrlWord_toNat s
  · exact infoWord_toNat s.params
  · rfl
  · rfl

/-! ### INFO -/

/-- Settles O10: the bytes of `infoWord`, which depends on the parameters only, and these no step changes. -/
theorem infoReadsTheConfiguration : Obligations.InfoReadsTheConfiguration := by
  refine ⟨fun s rest hi => ⟨_, step_readRegister hi (by decide) (by decide), ?_⟩, fun s t h => (step_frame h).1⟩
  have hw : (readRegister 0x28 { s with inputs := rest }).readData.toNat = s.params.D + 256 * s.params.DMax + 65536 :=
    infoWord_toNat s.params
  have hD := s.params.D_le_DMax
  have hDMax := s.params.DMax_le_255
  rw [hw]
  omega

/-! ### ARG -/

theorem step_arg_taken {s : State} {v : Word} (h : takesWrite s 0x08 v) :
    ∃ rest, step s = .next { s with inputs := rest, arg := v } := by
  obtain ⟨rest, hi⟩ := takes_cons h
  obtain ⟨-, hh, hr⟩ := h
  exact ⟨rest, step_write s rest 0x08 v hi hh hr (by decide) (by decide)⟩

/-- Settles O11: a taken ARG write and a reset say what ARG becomes; the frame of every step says the rest. -/
theorem argHoldsTheLastTakenWrite : Obligations.ArgHoldsTheLastTakenWrite := by
  intro s t hst
  refine ⟨fun v hv => ?_, fun hreset => ?_, fun hno hnr => ((step_frame hst).2 hnr).1 hno⟩
  · obtain ⟨rest, e⟩ := step_arg_taken hv
    cases e.symm.trans hst
    rfl
  · obtain ⟨rest, -, e⟩ := step_reset hreset
    cases e.symm.trans hst
    rfl

/-! ### CTRL -/

theorem step_ctrl_taken {s : State} {v : Word} {rest : List Input} (hi : s.inputs = .write 0x20 8 v :: rest)
    (hh : s.halt = false) (hr : s.running = none) : step s = .next (writeCtrl v { s with inputs := rest }) :=
  step_write s rest 0x20 v hi hh hr (by decide) (by decide)

/-- What a taken CTRL write does to the fields it does not scrub (R43, R353). -/
theorem writeCtrl_frame (v : Word) (s : State) :
    (writeCtrl v s).rawEn = v.getLsbD 0 ∧ (writeCtrl v s).err = s.err ∧ (writeCtrl v s).ign = s.ign ∧
      (writeCtrl v s).halt = s.halt ∧ (writeCtrl v s).arg = s.arg ∧ (writeCtrl v s).rngCount = s.rngCount ∧
      (writeCtrl v s).answers = s.answers := by
  by_cases hw : v.getLsbD 0 = true ∧ s.rawEn = false
  · rw [writeCtrl_scrubs hw.1 hw.2, hw.1]
    exact ⟨rfl, rfl, rfl, rfl, rfl, rfl, rfl⟩
  · rw [writeCtrl_sets hw]
    exact ⟨rfl, rfl, rfl, rfl, rfl, rfl, rfl⟩

/-- A taken CTRL write, whole (R43). -/
theorem step_ctrl_taken_effect {s : State} {v : Word} {rest : List Input} (hi : s.inputs = .write 0x20 8 v :: rest)
    (hh : s.halt = false) (hr : s.running = none) :
    ∃ t, step s = .next t ∧ t.rawEn = v.getLsbD 0 ∧ t.err = s.err ∧ t.ign = s.ign ∧
      t.halt = s.halt ∧ t.arg = s.arg ∧ t.rngCount = s.rngCount ∧ t.answers = s.answers ∧
      (v.getLsbD 0 = true → s.rawEn = false → scrubbed s t) ∧
      (¬ (v.getLsbD 0 = true ∧ s.rawEn = false) → t = { s with inputs := rest, rawEn := v.getLsbD 0 }) := by
  obtain ⟨hraw, herr, hign, hhalt, harg, hcount, hans⟩ := writeCtrl_frame v { s with inputs := rest }
  refine ⟨_, step_ctrl_taken hi hh hr, hraw, herr, hign, hhalt, harg, hcount, hans, fun hv hre => ?_, fun hw => ?_⟩
  · have e : writeCtrl v { s with inputs := rest } = _ := writeCtrl_scrubs hv hre
    have hs := scrubbed_scrub s
    rw [e]
    exact ⟨hs.lanes, hs.rm, hs.sponge, hs.positions, hs.result, hs.sph, hs.params⟩
  · exact writeCtrl_sets hw

/-- Settles O12: a CTRL write goes one of three ways, and RAW_EN has no other writer but reset. -/
theorem ctrlWriteSetsRawEnAndScrubs : Obligations.CtrlWriteSetsRawEnAndScrubs := by
  refine ⟨fun s v rest hi => ⟨?_, ?_, ?_⟩, ?_, ?_, ?_⟩
  · exact step_write_halt s rest 0x20 8 v hi
  · exact fun hh hr => (step_write_busy s rest 0x20 v hi hh hr).trans (by simp)
  · exact step_ctrl_taken_effect hi
  · exact fun s t hst hno hnr => ((step_frame hst).2 hnr).2.1 hno
  · exact fun s rest hi => ⟨_, step_readRegister hi (by decide) (by decide), ctrlWord_toNat s⟩
  · exact fun s rest hi => ⟨_, step_cons hi, rfl⟩

/-! ### RESULT -/

theorem submit_ok {v : Word} {i : Instr} (h : decode v = .ok i) (s : State) : submit v s = exec i s := by
  rw [submit, h]

theorem submit_error {v : Word} {e : DecodeError} (h : decode v = .error e) (s : State) :
    submit v s = .next (reject .illegal s) := by
  rw [submit, h]

/-- RESULT after a CTRL write that is taken: only the scrub writes it. -/
theorem result_of_writeCtrl {v : Word} {s : State} (hne : (writeCtrl v s).result ≠ s.result) :
    v.getLsbD 0 = true ∧ s.rawEn = false ∧ (writeCtrl v s).result = 0 := by
  by_cases hw : v.getLsbD 0 = true ∧ s.rawEn = false
  · exact ⟨hw.1, hw.2, by rw [writeCtrl_scrubs hw.1 hw.2]; rfl⟩
  · rw [writeCtrl_sets hw] at hne
    exact absurd rfl hne

/-- A command that a step works on writes RESULT only as `result_of_exec` says. -/
theorem result_of_worksOn {s u v : State} {i : Instr} (hw : worksOn s i) (he : exec i u = .next v)
    (hne : v.result ≠ u.result) :
    (∃ la, worksOn s (.lunmask la)) ∨ (∃ n, worksOn s (.ssqueeze n)) ∨
      (v.result = 0 ∧
        ((∃ n, worksOn s (.sinit n)) ∨ entersRaw s ∨ v.halt = true ∨ s.inputs.head? = some .reset)) := by
  obtain ⟨la, rfl⟩ | ⟨n, rfl⟩ | ⟨h0, ⟨n, rfl⟩ | hh⟩ := result_of_exec he hne
  · exact .inl ⟨la, hw⟩
  · exact .inr (.inl ⟨n, hw⟩)
  · exact .inr (.inr ⟨h0, .inl ⟨n, hw⟩⟩)
  · exact .inr (.inr ⟨h0, .inr (.inr (.inl hh))⟩)

/-- Settles O29: of all inputs only a command, a CTRL write that scrubs and a reset touch RESULT. -/
theorem resultWrittenOnlyByItsCommands : Obligations.ResultWrittenOnlyByItsCommands := by
  intro s t hst hne
  obtain ⟨-, rfl⟩ | ⟨e, rest, hi, he⟩ := step_cases hst
  · exact absurd rfl hne
  have hhead : s.inputs.head? = some e := by rw [hi]; rfl
  cases he with
  | read | writeIgnored | writeBusy | arg | answerKept | lateAnswer => exact absurd rfl hne
  | @cmd v _ _ hh hr ht =>
    cases hd : decode v with
    | ok i =>
      rw [submit_ok hd] at ht
      exact result_of_worksOn (.inl ⟨v, ⟨hhead, hh, hr⟩, hd⟩) ht hne
    | error e =>
      rw [submit_error hd] at ht
      cases ht
      exact absurd rfl hne
  | @ctrl v _ hh hr =>
    obtain ⟨hv, hraw, h0⟩ := result_of_writeCtrl hne
    exact .inr (.inr ⟨h0, .inr (.inl ⟨v, ⟨hhead, hh, hr⟩, hv, hraw⟩)⟩)
  | @answerTaken a _ _ r hr ht =>
    obtain ⟨u, hu, rfl⟩ := takeAnswer_busy hr ht
    have hu_result := result_of_worksOn (.inr ⟨a, r, hhead, hr, rfl⟩) hu hne
    exact hu_result
  | reset => exact .inr (.inr ⟨rfl, .inr (.inr (.inr hhead))⟩)

end Sys2Proof.Machine
end

section
/-! What the host reads while a command is BUSY, what RNG_COUNT counts, and reset (R41, R42, R44, R54, R350). -/

namespace Sys2Proof.Machine

/-! ### STATUS while BUSY -/

theorem readStatus_busy {s : State} {r : Running} (hr : s.running = some r) :
    readStatus s = { s with readData := statusWord s (shownPhase s), freeTick := s.freeTick + 1 } := by
  simp only [readStatus, hr]

theorem shownPhase_of_ne_sfinal {s : State} {r : Running} (hr : s.running = some r) (hc : r.cmd ≠ .sfinal) :
    shownPhase s = s.sph := by
  simp only [shownPhase, hr, if_neg hc]

theorem shownPhase_of_sfinal {s : State} {r : Running} (hr : s.running = some r) (hc : r.cmd = .sfinal) :
    shownPhase s = .padded ∨ shownPhase s = finalPhase s := by
  simp only [shownPhase, hr, if_pos hc]
  split
  · exact .inl rfl
  · exact .inr rfl

theorem finalPhase_code (s : State) : (finalPhase s).code.toNat = if s.outLen = 0 then 5 else 4 := by
  unfold finalPhase
  split <;> rfl

/-- STATUS of a BUSY block: not halted, and ERR reads 0 (R309, R360). -/
theorem statusWord_busy {s : State} (h : s.Inv) {r : Running} (hr : s.running = some r) (p : Phase) :
    (statusWord s p).toNat = 1 + 4 * s.ign.toNat + 256 * p.code.toNat := by
  obtain ⟨hh, -, he, -⟩ := h.busyOk r hr
  simp [statusWord_toNat, State.busy, hr, hh, he, Err.code]

/-- Settles O15: the read shows `shownPhase`, which is the phase but for SFINAL. -/
theorem busyStatusRead : Obligations.BusyStatusRead := by
  intro s r rest h hr hi
  let s₀ : State := { s with inputs := rest }
  have hr₀ : s₀.running = some r := hr
  have hst : step s = .next (readStatus s₀) := step_readRegister hi (by decide) (by decide)
  refine ⟨_, (shownPhase s₀).code.toNat, hst, ?_, fun hc => ?_, fun hc => ?_⟩
  · rw [readStatus_busy hr₀]
    exact statusWord_busy (inv_inputs h rest) hr₀ _
  · rw [shownPhase_of_ne_sfinal hr₀ hc]
  · obtain hp | hp := shownPhase_of_sfinal hr₀ hc
    · exact .inl (by rw [hp]; rfl)
    · exact .inr (by rw [hp, finalPhase_code])

/-! ### RNG_COUNT -/

theorem shown_le_drawn {s : State} (h : s.Inv) {r : Running} (hr : s.running = some r) : r.shown ≤ r.drawn.length := by
  obtain ⟨-, -, -, -, -, hsh, -⟩ := h.busyOk r hr
  exact hsh

/-- What a read of RNG_COUNT shows: no less than before, no more than was delivered. -/
theorem shownCount_bounds {r : Running} (h : r.shown ≤ r.drawn.length) (tick : Nat) :
    r.shown ≤ shownCount r tick ∧ shownCount r tick ≤ r.drawn.length := by
  have := Nat.mod_lt (Config.freeCount tick) (show 0 < r.drawn.length - r.shown + 1 by omega)
  unfold shownCount
  omega

theorem readCount_busy {s : State} {r : Running} (hr : s.running = some r) :
    readCount s = { s with
      readData := r.start + BitVec.ofNat 64 (shownCount r s.freeTick)
      running := some { r with shown := shownCount r s.freeTick }
      freeTick := s.freeTick + 1 } := by
  simp only [readCount, hr]

theorem writeCtrl_running (v : Word) (s : State) : (writeCtrl v s).running = s.running := by
  unfold writeCtrl
  split <;> rfl

theorem submit_counts {v : Word} {s t : State} (h : s.Inv) (ht : submit v s = .next t) :
    ∃ used, s.answers = used ++ t.answers ∧ t.rngCount = s.rngCount + BitVec.ofNat 64 (wordsOf used).length := by
  cases hd : decode v with
  | ok i =>
    rw [submit_ok hd] at ht
    exact exec_counts (bodyOk_of_inv h) ht
  | error e =>
    rw [submit_error hd] at ht
    cases ht
    exact ⟨[], rfl, by simp [wordsOf]⟩

theorem answersAtHand_cons {s : State} {e : Input} {rest : List Input} (hi : s.inputs = e :: rest) :
    answersAtHand s = s.answers ++ answersIn [e] := by
  rw [answersAtHand, hi]
  cases e <;> rfl

/-- Every input but reset: the answers it uses come first of those at hand, and RNG_COUNT counts the words among them. -/
theorem inputEffect_counts {e : Input} {s t : State} (h : s.Inv) (he : InputEffect e s t) (hne : e ≠ .reset) :
    ∃ used, s.answers ++ answersIn [e] = used ++ t.answers ∧
      t.rngCount = s.rngCount + BitVec.ofNat 64 (wordsOf used).length := by
  cases he with
  | read | writeIgnored | writeBusy | arg | lateAnswer =>
    exact ⟨[], List.append_nil _, (BitVec.add_zero _).symm⟩
  | cmd _ _ ht =>
    obtain ⟨used, hu, hc⟩ := submit_counts h ht
    exact ⟨used, (List.append_nil _).trans hu, hc⟩
  | @ctrl v =>
    obtain ⟨-, -, -, -, -, hc, ha⟩ := writeCtrl_frame v s
    exact ⟨[], (List.append_nil _).trans ha.symm, hc.trans (BitVec.add_zero _).symm⟩
  | answerKept => exact ⟨[], rfl, (BitVec.add_zero _).symm⟩
  | @answerTaken a _ _ r hr ht =>
    obtain ⟨ha, hc, -⟩ := takeAnswer_counts h hr ht
    exact ⟨[a], by rw [ha, (h.busyOk r hr).2.1]; rfl, hc⟩
  | reset => exact absurd rfl hne

/-- A command that an input leaves BUSY is the same one, with at least the words it had drawn and shown (R44). -/
theorem inputEffect_running {e : Input} {s t : State} (h : s.Inv) (he : InputEffect e s t) {r q : Running}
    (hr : s.running = some r) (hq : t.running = some q) :
    q.cmd = r.cmd ∧ q.start = r.start ∧ r.drawn <+: q.drawn ∧ r.shown ≤ q.shown := by
  have same (hqr : s.running = some q) : q.cmd = r.cmd ∧ q.start = r.start ∧ r.drawn <+: q.drawn ∧ r.shown ≤ q.shown := by
    cases hr.symm.trans hqr
    exact ⟨rfl, rfl, List.prefix_rfl, le_rfl⟩
  cases he with
  | read idle busy =>
    obtain ⟨k, hk, hle⟩ := busy r hr
    cases hk.symm.trans hq
    exact ⟨rfl, rfl, List.prefix_rfl, (hle (shown_le_drawn h hr)).1⟩
  | writeIgnored | writeBusy | arg | answerKept | lateAnswer => exact same hq
  | cmd _ hidle _ => cases hidle.symm.trans hr
  | @ctrl v => exact same ((writeCtrl_running v s).symm.trans hq)
  | answerTaken hr' ht =>
    cases hr'.symm.trans hr
    obtain ⟨-, -, hn | ⟨w, hw⟩⟩ := takeAnswer_counts h hr ht
    · cases hn.symm.trans hq
    · cases hw.symm.trans hq
      exact ⟨rfl, rfl, List.prefix_append _ _, le_rfl⟩
  | reset => cases hq

/-- Settles O16: what each input uses and counts, the read of a BUSY block, and what stays of the BUSY command. -/
theorem rngCountCountsDeliveredWords : Obligations.RngCountCountsDeliveredWords := by
  refine ⟨fun s t h hst hnr => ?_, fun s rest hi => ⟨_, step_cons hi, rfl⟩, fun s r rest h hr hi => ?_,
    fun s t r q h hr hst hq => ?_⟩
  · obtain ⟨hi, rfl⟩ | ⟨e, rest, hi, he⟩ := step_cases hst
    · exact ⟨[], by simp [answersAtHand, hi], (BitVec.add_zero _).symm⟩
    · have hne : e ≠ .reset := fun hr => hnr (by rw [hi, hr]; rfl)
      obtain ⟨used, hused, hcount⟩ := inputEffect_counts (inv_inputs h rest) he hne
      exact ⟨used, (answersAtHand_cons hi).trans hused, hcount⟩
  · obtain ⟨hge, hle⟩ := shownCount_bounds (shown_le_drawn h hr) s.freeTick
    have hread := readCount_busy (s := { s with inputs := rest }) hr
    have hst := (step_readRegister hi (by decide) (by decide)).trans (congrArg Host.Outcome.next hread)
    exact ⟨_, shownCount r s.freeTick, hst, rfl, hge, hle, rfl⟩
  · obtain ⟨-, rfl⟩ | ⟨e, rest, -, he⟩ := step_cases hst
    · cases hr.symm.trans hq
      exact ⟨rfl, rfl, List.prefix_rfl, le_rfl⟩
    · exact inputEffect_running (inv_inputs h rest) he hr hq

/-! ### Reset -/

/-- Settles O17: the reset state is the table of R54 field by field, and a late answer is consumed and no more. -/
theorem resetLeavesTheTable : Obligations.ResetLeavesTheTable := by
  refine ⟨?_, fun s rest hi => ⟨_, step_cons hi, ?_, rfl, rfl⟩, fun s a rest hi => step_cons hi⟩
  all_goals exact ⟨rfl, rfl, rfl, rfl, rfl, rfl, rfl, rfl, rfl, rfl, rfl, rfl, rfl, rfl, rfl, rfl, rfl, rfl⟩

end Sys2Proof.Machine
end

section
/-! The access rules of the register window: no input stops the machine, which accesses are performed, and what reads and
writes leave as it is, idle and while BUSY (R81, R87 to R89); and which draws PERMUTE puts into which share (R97). -/

namespace Sys2Proof.Machine

/-! ### No input stops the machine (R81, R316, R371) -/

theorem hostWrite_next (off width : Nat) (v : Word) (s : State) : ∃ t, hostWrite off width v s = .next t := by
  unfold hostWrite
  split
  · exact ⟨s, rfl⟩
  split
  · exact ⟨s, rfl⟩
  split
  · exact ⟨writeBusy off s, rfl⟩
  · exact writeIdle_next off v s

theorem takeInput_next (e : Input) (s : State) : ∃ t, takeInput e s = .next t := by
  cases e with
  | read off width => exact ⟨hostRead off width s, rfl⟩
  | write off width v => exact hostWrite_next off width v s
  | answer a => exact takeAnswer_next a s
  | lateAnswer _ => exact ⟨s, rfl⟩
  | reset => exact ⟨resetBlock s, rfl⟩

/-- Settles O6: a step without input holds the state, and every input has an effect. -/
theorem everyStepAnswersANextState : Obligations.EveryStepAnswersANextState := by
  intro s
  cases hi : s.inputs with
  | nil => exact ⟨s, by rw [step, hi]⟩
  | cons e rest =>
    rw [step_cons hi]
    exact takeInput_next e _

/-! ### Accesses that are not performed (R81) -/

theorem performed_eq_false {off width : Nat} (h : width ≠ 8 ∨ off % 8 ≠ 0) : performed off width = false := by
  obtain hw | ho := h
  · simp [performed, hw]
  · simp [performed, ho]

theorem hostRead_notPerformed {off width : Nat} (ho : off < 0x40) (h : width ≠ 8 ∨ off % 8 ≠ 0) (s : State) :
    hostRead off width s = { s with readData := 0 } := by
  simp [hostRead, inWindow, ho, performed_eq_false h]

theorem hostWrite_notPerformed {off width : Nat} (h : width ≠ 8 ∨ off % 8 ≠ 0) (v : Word) (s : State) :
    hostWrite off width v s = .next s := by
  simp [hostWrite, performed_eq_false h]

/-- Settles O7, from what the window does with a read and with a write that is not performed. -/
theorem unalignedOrNarrowAccessNotPerformed : Obligations.UnalignedOrNarrowAccessNotPerformed := by
  refine fun s off width v rest ho h => ⟨fun hi => ?_, fun hi => ?_⟩
  · rw [step_read hi, hostRead_notPerformed ho h]
  · rw [step_cons hi]
    exact hostWrite_notPerformed h v _

/-! ### Reads (R87) -/

/-- Settles O9: `hostRead_keeps` names the three fields a read can touch, and of a BUSY command only the count shown. -/
theorem readsHaveNoSideEffect : Obligations.ReadsHaveNoSideEffect := by
  intro s off width rest hi
  obtain ⟨v, n, o, hread, idle, busy⟩ := hostRead_keeps off width { s with inputs := rest }
  refine ⟨_, (step_read hi).trans (congrArg Host.Outcome.next hread), rfl, ?_⟩
  cases hr : s.running with
  | none => rw [idle hr]
  | some r =>
    obtain ⟨k, hk, -⟩ := busy r hr
    rw [hk]
    rfl

/-! ### Idle writes (R88) -/

theorem writeIdle_noEffect {off : Nat} (h0 : off ≠ 0x00) (h8 : off ≠ 0x08) (h20 : off ≠ 0x20) (v : Word) (s : State) :
    writeIdle off v s = .next s := by
  unfold writeIdle
  split
  · exact absurd rfl h0
  · exact absurd rfl h8
  · exact absurd rfl h20
  · rfl

/-- Settles O13: an idle write to ARG sets it, and one to an offset that is not writable does nothing. -/
theorem otherWritesHaveNoEffect : Obligations.OtherWritesHaveNoEffect := by
  refine fun s off v rest hi hh hr => ⟨?_, fun ho => ?_⟩
  · rintro rfl
    exact step_write s rest 0x08 v hi hh hr (by decide) (by decide)
  · rw [step_write s rest off v hi hh hr (by omega) (by omega)]
    exact writeIdle_noEffect (by omega) (by omega) (by omega) v _

/-! ### While a command is BUSY (R89) -/

/-- Of the registers only STATUS and RNG_COUNT read otherwise while a command is BUSY. -/
theorem readRegister_of_ne {off : Nat} (h18 : off ≠ 0x18) (h30 : off ≠ 0x30) (s : State) :
    readRegister off s = { s with readData := registerWord off s } := by
  unfold readRegister
  split
  case h_3 => exact absurd rfl h18
  case h_6 => exact absurd rfl h30
  case h_7 => rw [registerWord] <;> assumption
  all_goals rfl

/-- An answer that leaves the command BUSY changes RNG_COUNT and the words drawn, and nothing else. -/
theorem sameWhileBusy_takeAnswer {s t : State} (h : s.Inv) {r : Running} (hr : s.running = some r) {a : Answer}
    (ht : takeAnswer a s = .next t) (hb : t.running.isSome) : sameWhileBusy s t := by
  obtain ⟨w, u, -, -, ⟨⟨-, hm⟩, -⟩, e⟩ | ⟨-, e⟩ | ⟨w, -, -, e⟩ := takeAnswer_cases h hr a <;>
    (rw [e] at ht; cases ht)
  · have hu : u.running = none := congrArg Meta.running hm
    simp [restore, hu] at hb
  · simp [restore] at hb
  · rfl

theorem sameWhileBusy_inputEffect {e : Input} {s t : State} (h : s.Inv) (he : InputEffect e s t)
    (hs : s.running.isSome) (ht : t.running.isSome) : sameWhileBusy s t := by
  cases he with
  | read | writeIgnored | writeBusy | lateAnswer => rfl
  | cmd _ idle _ | arg _ idle | ctrl _ idle | answerKept idle => simp [idle] at hs
  | answerTaken hr hta => exact sameWhileBusy_takeAnswer h hr hta ht
  | reset => cases ht

/-- Settles O57: a BUSY read returns `registerWord`, whose fields no step that leaves the command BUSY changes. -/
theorem busyReadsReturnTheValuesFromBefore : Obligations.BusyReadsReturnTheValuesFromBefore := by
  refine ⟨fun s off rest _ hi ho h8 h18 h30 => ?_, fun s t h hs hst ht => ?_⟩
  · refine ⟨registerWord off { s with inputs := rest }, by rw [step_readRegister hi ho h8, readRegister_of_ne h18 h30], ?_⟩
    refine ⟨?_, ?_, ?_, ?_, ?_, ?_⟩ <;> rintro rfl
    · rfl
    · rfl
    · rfl
    · exact ctrlWord_toNat s
    · exact infoWord_toNat s.params
    · rfl
  · obtain ⟨-, rfl⟩ | ⟨e, rest, -, he⟩ := step_cases hst
    · rfl
    · have hsame := sameWhileBusy_inputEffect (inv_inputs h rest) he hs ht
      exact congrArg (fun u : State => { u with inputs := s.inputs }) hsame

/-! ### The draws of PERMUTE (R97, R34) -/

/-- Settles O58: the body of PERMUTE takes its draws as `takes_permute` says, and the command writes its grid back. -/
theorem permuteSharesFollowTheDraws : Obligations.PermuteSharesFollowTheDraws := by
  intro s ws rest h ha hs hl
  have hbody : Takes (bodyOf .permute (accept s)) (permuteDraws s.params.D) _ :=
    takes_map (accept s).setGridDiscard (takes_permute h.grid)
  exact ⟨_, exec_takes (check_of_accepts ha) hbody hs hl, rfl⟩

end Sys2Proof.Machine
end

section
/-! The decoder and the encoder are inverse: a command is read back from its encoding, and a CMD value that decodes is the
one encoding of its command (R110, R114, R116 to R118); and the encodings the spec writes out (R121). -/

namespace Sys2Proof.Machine

/-! ### Decoding an encoding (R110, R116) -/

/-- Each row of R116 reads back the fields it uses and finds the others zero; the rows are grouped by the fields they use. -/
theorem decode_encode (i : Instr) : decode (encode i) = .ok i := by
  cases i with
  | lmask ld | lmxor ld | lxorc ld => exact decode_assemble _ ld 0 0 0
  | lunmask la => exact decode_assemble _ 0 la 0 0
  | lmov ld la | lnot ld la => exact decode_assemble _ ld la 0 0
  | lxor ld la lb | land ld la lb => exact decode_assemble _ ld la lb 0
  | lrotl ld la n => exact decode_assemble _ ld la 0 n
  | stclr | theta | rho | pi | chi | permute | sfinal => exact decode_assemble _ 0 0 0 0
  | iota n | round n | sinit n | sabsorb n | ssqueeze n => exact decode_assemble _ 0 0 0 n

/-- Settles O1: an assembled word decodes as the row of its opcode, and each row gives its command back. -/
theorem decodeEncodeGivesBack : Obligations.DecodeEncodeGivesBack := decode_encode

/-! ### Encoding what was decoded (R114, R117) -/

/-- A value that decodes has no reserved bit set, and its fields are those of a row of R116 (R118). -/
theorem decodeRow_of_decode {w : Word} {i : Instr} (h : decode w = .ok i) :
    fieldRsv w = 0 ∧ decodeRow (fieldOpc w) (fieldLd w) (fieldLa w) (fieldLb w) (fieldN w) = .ok i := by
  unfold decode at h
  split at h
  case isTrue hrsv => exact ⟨eq_of_beq hrsv, h⟩
  case isFalse => cases h

/-- Settles O2: the encoding is assembled from the fields of the value, and with RSV zero these are all its bits. -/
theorem decodedValueIsItsEncoding : Obligations.DecodedValueIsItsEncoding := by
  intro w i h
  obtain ⟨hrsv, hrow⟩ := decodeRow_of_decode h
  calc encode i = assemble (fieldOpc w) (fieldLd w) (fieldLa w) (fieldLb w) (fieldN w) := encode_of_decodeRow hrow
    _ = w := assemble_fields w hrsv

/-! ### The encodings the spec writes out (R121) -/

/-- Settles O3: each word is the encoding of its command, so `decode_encode` reads the command back. -/
theorem specWordsDecode : Obligations.SpecWordsDecode :=
  ⟨decode_encode (.land 2 0 1), decode_encode (.lrotl 4 3 4), decode_encode (.lunmask 24), decode_encode (.round 23),
    decode_encode (.sinit 1), decode_encode (.sabsorb 3), decode_encode (.ssqueeze 8)⟩

end Sys2Proof.Machine
end

section
/-! The laws of the masked gadgets (R150 to R158), and what each lane command leaves in its lane and outside it (R159 to
R168). -/

namespace Sys2Proof.Machine

/-! ### The gadgets, share by share -/

theorem laneIs_shareAt {D : Nat} {a : Lane} (ha : a.length = D + 1) : laneIs D a (shareAt a) := ⟨ha, fun _ _ => rfl⟩

/-- R150: `mask` gives each draw as a share, and the rest as share `D`. -/
theorem laneIs_mask {D : Nat} {ws : List Word} (h : ws.length = D) (v : Word) :
    laneIs D (ws ++ [v ^^^ xorAll ws]) (maskShare D v ws) :=
  ⟨by simp [h], fun _ hk => shareAt_mask h hk⟩

/-- R152: `xor` works share by share. -/
theorem laneIs_gXor {D : Nat} {a b : Lane} {f g : Nat → Word} (ha : laneIs D a f) (hb : laneIs D b g) :
    laneIs D (gXor a b) fun k => f k ^^^ g k := by
  obtain ⟨hla, hfa⟩ := ha
  obtain ⟨hlb, hfb⟩ := hb
  refine ⟨by simp [hla, hlb], fun k hk => ?_⟩
  rw [shareAt_gXor a b (hla.trans hlb.symm), hfa k hk, hfb k hk]

theorem laneIs_xorShare0 {D : Nat} {a : Lane} (ha : a.length = D + 1) (c : Word) :
    laneIs D (xorShare0 a c) fun k => if k = 0 then shareAt a 0 ^^^ c else shareAt a k :=
  ⟨by simp [ha], fun k _ => shareAt_xorShare0 a c (by omega) k⟩

/-- R153: `not` complements each share, but for share 0 when `D + 1` is even. -/
theorem laneIs_gNot {D : Nat} {a : Lane} (ha : a.length = D + 1) : laneIs D (gNot D a) (notShare D a) :=
  ⟨by simp [ha], fun _ hk => shareAt_gNot ha hk⟩

/-- R155: `rotl_s` rotates each share. -/
theorem laneIs_gRotl {D : Nat} {a : Lane} (ha : a.length = D + 1) (n : Nat) :
    laneIs D (gRotl a n) fun k => (shareAt a k).rotateLeft n :=
  ⟨by simp [ha], fun k _ => (shareAt_gRotl a n k).trans (rotl_eq_rotateLeft _ n)⟩

/-- R154: each share of `and`, with each draw at its pair. -/
theorem laneIs_andShares {D : Nat} {a b : Lane} (ha : a.length = D + 1) (hb : b.length = D + 1) {ws : List Word}
    (h : ws.length = D * (D + 1) / 2) :
    laneIs D (andShares D a b (matrixOf D ws)) (andShare D (shareAt a) (shareAt b) ws) :=
  ⟨length_andShares D a b _ ha hb, fun _ hk => shareAt_andShares_eq ha hb h hk⟩

/-- The law of `rotl_s` (R158), with the library's rotation. -/
theorem gUnmask_gRotl_rotateLeft (a : Lane) (n : Nat) : gUnmask (gRotl a n) = (gUnmask a).rotateLeft n :=
  (gUnmask_gRotl a n).trans (rotl_eq_rotateLeft _ n)

/-- Settles O30, from what each gadget draws, its shares, and what they unmask to. -/
theorem gadgetLaws : Obligations.GadgetLaws := by
  intro D a b v n c rest ha hb
  refine ⟨fun ws h => ?_, gUnmask_gXor a b (ha.trans hb.symm), gUnmask_gNot D a ha, fun ws h => ?_,
    gUnmask_gRotl_rotateLeft a n⟩
  · exact ⟨_, (takes_gMask D v).done ws rest c h, laneIs_mask h v, gUnmask_maskShares v ws⟩
  · exact ⟨_, (takes_gAnd D a b).done ws rest c h, laneIs_andShares ha hb h, gUnmask_andShares D a b _ ha hb⟩

/-! ### A command that sets one lane (R159) -/

/-- A command that draws nothing and sets lane `L`: the lane, and what is unchanged. -/
theorem exec_setLane {i : Instr} {s : State} {L : Nat} {a : Lane} (h : s.Inv) (ha : accepts i s) (hL : L < 25)
    (hb : bodyOf i (accept s) = Draw.pure ((accept s).setLane L a)) :
    ∃ t, exec i s = .next t ∧ ranLinear s t ∧ othersSame L s t ∧ laneAt t.lanes L = a := by
  obtain ⟨t, hexec, hran, hlanes⟩ := bodyGrid h ha hb
  exact ⟨t, hexec, hran, set_others h hlanes, by rw [hlanes, accept_lanes, set_same h hL]⟩

/-- A command that draws `n` words and sets lane `L` to what it makes of them: the lane, and what is unchanged. -/
theorem exec_setLane_drawn {i : Instr} {s : State} {L n : Nat} {f : List Word → Lane} {ws : List Word}
    {rest : List Answer} (h : s.Inv) (ha : accepts i s) (hL : L < 25)
    (hb : Takes (bodyOf i (accept s)) n fun ws => (accept s).setLane L (f ws)) (hs : supplied s ws rest)
    (hl : ws.length = n) :
    ∃ t, exec i s = .next t ∧ ranMasked n rest s t ∧ othersSame L s t ∧ laneAt t.lanes L = f ws := by
  have hran := ran_mk s n rest ((accept s).setLane L (f ws)) rfl ⟨rfl, rfl⟩
  exact ⟨_, exec_takes (check_of_accepts ha) hb hs hl,
    ⟨hran, ⟨rfl, rfl, rfl⟩, ⟨rfl, rfl, rfl, rfl, rfl⟩, rfl, h.matrix⟩, set_others h rfl, set_same h hL _⟩

/-! ### Masking ARG (R160 to R162) -/

theorem takes_bodyLmask (ld : BitVec 5) (s : State) :
    Takes (bodyLmask ld s) s.params.D fun ws => s.setLane ld.toNat (ws ++ [s.arg ^^^ xorAll ws]) :=
  takes_map _ (takes_gMask s.params.D s.arg)

theorem takes_bodyLmxor (ld : BitVec 5) (s : State) :
    Takes (bodyLmxor ld s) s.params.D fun ws =>
      s.setLane ld.toNat (gXor (s.lane ld) (ws ++ [s.arg ^^^ xorAll ws])) :=
  takes_map _ (takes_gMask s.params.D s.arg)

/-- Settles O31: the lane becomes what `mask` makes of the draws. -/
theorem lmaskMasksArg : Obligations.LmaskMasksArg := by
  intro ld s ws rest h ha hs hl
  have hd : ¬ 25 ≤ ld.toNat := ha.operands
  have hbody := takes_bodyLmask ld (accept s)
  obtain ⟨t, hexec, hran, hothers, hlane⟩ := exec_setLane_drawn h ha (lane_of_not_bad hd) hbody hs hl
  exact ⟨t, hexec, hran, hothers, hlane ▸ ⟨laneIs_mask hl s.arg, gUnmask_maskShares s.arg ws⟩⟩

/-- Settles O32: the lane becomes its XOR with what `mask` makes of the draws. -/
theorem lmxorXorsMaskedArg : Obligations.LmxorXorsMaskedArg := by
  intro ld s ws rest h ha hs hl
  have hd : ¬ 25 ≤ ld.toNat := ha.operands
  have hbody := takes_bodyLmxor ld (accept s)
  obtain ⟨t, hexec, hran, hothers, hlane⟩ := exec_setLane_drawn h ha (lane_of_not_bad hd) hbody hs hl
  have hlen := lane_len h hd
  have hvalue : gUnmask (gXor (laneAt s.lanes ld.toNat) (ws ++ [s.arg ^^^ xorAll ws]))
      = gUnmask (laneAt s.lanes ld.toNat) ^^^ s.arg := by
    rw [gUnmask_gXor _ _ (by simp [hlen, hl]), gUnmask_maskShares]
  exact ⟨t, hexec, hran, hothers, hlane ▸ ⟨laneIs_gXor (laneIs_shareAt hlen) (laneIs_mask hl s.arg), hvalue⟩⟩

/-- Settles O33: the lane becomes `xorShare0` of itself. -/
theorem lxorcXorsArgIntoShareZero : Obligations.LxorcXorsArgIntoShareZero := by
  intro ld s h ha
  have hd : ¬ 25 ≤ ld.toNat := ha.operands
  have hlen := lane_len h hd
  have hpos : 0 < (laneAt s.lanes ld.toNat).length := by omega
  obtain ⟨t, hexec, hran, hothers, hlane⟩ := exec_setLane h ha (lane_of_not_bad hd) rfl
  exact ⟨t, hexec, hran, hothers, hlane ▸ ⟨laneIs_xorShare0 hlen s.arg, gUnmask_xorShare0 _ s.arg hpos⟩⟩

/-! ### Unmasking (R163) -/

/-- Settles O34: RESULT becomes the XOR of the list of shares, which is the XOR of the shares named one by one. -/
theorem lunmaskWritesResult : Obligations.LunmaskWritesResult := by
  intro la s h ha
  have hlen := lane_len h (l := la) ha.operands
  have hexec := exec_pure (i := .lunmask la) (check_of_accepts ha) rfl
  refine ⟨_, hexec, ran_pure s _ rfl ⟨rfl, rfl⟩, ⟨rfl, rfl, rfl⟩, ⟨rfl, rfl, rfl, rfl, rfl⟩, rfl, rfl, ?_⟩
  rw [← hlen]
  exact xorAll_eq_range (laneAt s.lanes la.toNat)

/-! ### The commands on shares (R164 to R167) -/

/-- Settles O35: the lane becomes the source lane as it was. -/
theorem lmovCopiesALane : Obligations.LmovCopiesALane := by
  intro ld la s h ha
  obtain ⟨hd, -⟩ := not_or.mp ha.operands
  exact exec_setLane h ha (lane_of_not_bad hd) rfl

/-- Settles O36: the lane becomes `xor` of the two source lanes as they were; a lane XORed with itself is zero. -/
theorem lxorXorsShareByShare : Obligations.LxorXorsShareByShare := by
  intro ld la lb s h ha
  obtain ⟨hd, hab⟩ := not_or.mp ha.operands
  obtain ⟨hla, hlb⟩ := not_or.mp hab
  have hlen := (lane_len h hla).trans (lane_len h hlb).symm
  have hxor := laneIs_gXor (laneIs_shareAt (lane_len h hla)) (laneIs_shareAt (lane_len h hlb))
  obtain ⟨t, hexec, hran, hothers, hlane⟩ := exec_setLane h ha (lane_of_not_bad hd) rfl
  have hzero (e : la = lb) (k : Nat) (hk : k ≤ s.params.D) :
      shareAt (gXor (laneAt s.lanes la.toNat) (laneAt s.lanes lb.toNat)) k = 0 := by
    subst e
    exact (hxor.2 k hk).trans BitVec.xor_self
  exact ⟨t, hexec, hran, hothers, hlane ▸ ⟨hxor, gUnmask_gXor _ _ hlen, hzero⟩⟩

/-- Settles O37: the lane becomes `not` of the source lane as it was. -/
theorem lnotComplementsTheValue : Obligations.LnotComplementsTheValue := by
  intro ld la s h ha
  obtain ⟨hd, hla⟩ := not_or.mp ha.operands
  obtain ⟨t, hexec, hran, hothers, hlane⟩ := exec_setLane h ha (lane_of_not_bad hd) rfl
  exact ⟨t, hexec, hran, hothers, hlane ▸ ⟨laneIs_gNot (lane_len h hla), gUnmask_gNot _ _ (lane_len h hla)⟩⟩

/-- Settles O38: the lane becomes `rotl_s` of the source lane as it was. -/
theorem lrotlRotatesEveryShare : Obligations.LrotlRotatesEveryShare := by
  intro ld la n s h ha
  obtain ⟨hd, hla⟩ := not_or.mp ha.operands
  obtain ⟨t, hexec, hran, hothers, hlane⟩ := exec_setLane h ha (lane_of_not_bad hd) rfl
  exact ⟨t, hexec, hran, hothers, hlane ▸ ⟨laneIs_gRotl (lane_len h hla) _, gUnmask_gRotl_rotateLeft _ _⟩⟩

/-! ### The masked AND (R168) -/

/-- Where `Rm` is zero already, dropping the matrix of an AND gadget changes nothing but the lane (R154). -/
theorem setGridDiscard_set {s : State} (h : s.rm = zeroMatrix s.params.D) (L : Nat) (a : Lane) :
    s.setGridDiscard (s.lanes.set L a) = s.setLane L a := by
  rw [State.setGridDiscard, State.setLane, ← h]

/-- LAND draws the words of one AND gadget and sets its lane to what the gadget makes of them. -/
theorem takes_bodyLand {s : State} (h : s.rm = zeroMatrix s.params.D) (ld la lb : BitVec 5) :
    Takes (bodyLand ld la lb s) (s.params.D * (s.params.D + 1) / 2) fun ws =>
      s.setLane ld.toNat (andShares s.params.D (s.lane la) (s.lane lb) (matrixOf s.params.D ws)) :=
  takes_congr (takes_map _ (takes_gAnd s.params.D (s.lane la) (s.lane lb))) fun _ _ => setGridDiscard_set h _ _

/-- Settles O39: the lane becomes `and` of the two source lanes as they were. -/
theorem landIsTheMaskedAnd : Obligations.LandIsTheMaskedAnd := by
  intro ld la lb s ws rest h ha hs hl
  obtain ⟨hd, hab⟩ := not_or.mp ha.operands
  obtain ⟨hla, hlb⟩ := not_or.mp hab
  have hbody := takes_bodyLand (s := accept s) h.matrix ld la lb
  obtain ⟨t, hexec, hran, hothers, hlane⟩ := exec_setLane_drawn h ha (lane_of_not_bad hd) hbody hs hl
  have hlenA := lane_len h hla
  have hlenB := lane_len h hlb
  exact ⟨t, hexec, hran, hothers, hlane ▸ ⟨laneIs_andShares hlenA hlenB hl, gUnmask_andShares _ _ _ _ hlenA hlenB⟩⟩

end Sys2Proof.Machine
end

section
/-! What each round command leaves in every lane and outside the lanes, and that rounds and the permutation are their steps
run one after another (R201 to R222). -/

namespace Sys2Proof.Machine

/-! ### The transforms, lane by lane and share by share -/

theorem laneIs_zeroGrid (D : Nat) {L : Nat} (hL : L < 25) : laneIs D (laneAt (zeroGrid D) L) fun _ => 0 := by
  have hlane : laneAt (zeroGrid D) L = zeroLane D := List.getD_replicate _ hL
  exact hlane ▸ ⟨length_zeroLane D, fun k hk => List.getD_replicate _ (Nat.lt_succ_of_le hk)⟩

theorem laneIs_map_range (D : Nat) (f : Nat → Word) : laneIs D ((List.range (D + 1)).map f) f := by
  refine ⟨by simp, fun k hk => ?_⟩
  simp [shareAt, List.getD_eq_getElem?_getD, Nat.lt_succ_of_le hk]

/-- R203: theta acts on each slice of shares alone. -/
theorem slice_theta {D : Nat} {g : Grid} (h : gridOk D g) (k : Nat) : slice k (theta g) = plainTheta (slice k g) := by
  have hlen := length_columnParity h
  rw [theta_eq, slice_laneIndices, plainTheta]
  refine map_laneIndices_congr fun L hL => ?_
  rw [shareAt_gXor _ _ (by simp [length_laneAt h hL, hlen]), shareAt_gXor _ _ (by simp [hlen]), shareAt_gRotl,
    shareAt_columnParity h, shareAt_columnParity h, plainAt_slice, laneXY_mod_div g hL]

theorem flat_mod {x : Nat} (hx : x < 5) (y : Nat) : (x + 5 * y) % 5 = x := by omega

theorem flat_div {x : Nat} (hx : x < 5) (y : Nat) : (x + 5 * y) / 5 = y := by omega

/-- R204: each lane is rotated by its own offset. -/
theorem laneXY_rho (g : Grid) {x y : Nat} (hx : x < 5) (hy : y < 5) :
    laneXY (rho g) x y = gRotl (laneXY g x y) (rhoOffset x y) := by
  rw [rho, laneXY_map _ hx hy, laneXY_eq g hx hy, flat_mod hx, flat_div hx]

/-- The flat-index table of R205 inverts the mapping `(x, y) ↦ (y, 2x + 3y)`. -/
theorem piSource_target : ∀ x < 5, ∀ y < 5,
    piSource.getD (y % 5 + 5 * ((2 * x + 3 * y) % 5)) 0 = x % 5 + 5 * (y % 5) := by decide

/-- R205: the lane at `(x, y)` goes to `(y, 2x + 3y)`. -/
theorem laneXY_pi {D : Nat} {g : Grid} (h : gridOk D g) {x y : Nat} (hx : x < 5) (hy : y < 5) :
    laneXY (pi g) y (2 * x + 3 * y) = laneXY g x y := by
  rw [laneXY, laneAt_pi h (flat_lt _ _), piSource_target x hx y hy, laneXY]

/-- The words of lane `L` are all there. -/
theorem length_laneWords {ws : List Word} {m L : Nat} (hl : ws.length = 25 * m) (hL : L < 25) :
    ((ws.drop (L * m)).take m).length = m := by
  have hle : (L + 1) * m ≤ 25 * m := Nat.mul_le_mul_right m hL
  rw [Nat.succ_mul] at hle
  rw [List.length_take, List.length_drop]
  omega

/-- R206: chi gives lane `L` the `L`-th `D(D+1)/2` of its words. -/
theorem eachOf_chiOf {D : Nat} {g : Grid} (h : gridOk D g) {ws : List Word} (hl : ws.length = 25 * andDraws D) :
    eachOf (chiOf D g) (andDraws D) laneIndices ws = chiShares D g ws := by
  rw [eachOf_eq_map, chiShares]
  exact map_laneIndices_congr fun L hL => chiOf_shares h L (length_laneWords hl hL)

theorem takes_chi_shares {D : Nat} {g : Grid} (h : gridOk D g) : Takes (chi D g) (25 * andDraws D) (chiShares D g) :=
  takes_congr (takes_chi D g) fun _ hl => eachOf_chiOf h hl

/-- R206: each lane of chi, share by share. -/
theorem laneIs_chiShares (D : Nat) (g : Grid) (ws : List Word) {x y : Nat} (hx : x < 5) (hy : y < 5) :
    laneIs D (laneXY (chiShares D g ws) x y) fun k => shareAt (laneXY g x y) k ^^^
      andShare D (notShare D (laneXY g (x + 1) y)) (shareAt (laneXY g (x + 2) y))
        ((ws.drop ((x + 5 * y) * andDraws D)).take (andDraws D)) k := by
  rw [chiShares, laneXY_map _ hx hy, flat_mod hx, flat_div hx]
  exact laneIs_map_range D _

/-- What a computation makes of its words is what its draws are known to satisfy. -/
theorem takes_satisfies {α : Type} {x : Draw α} {n : Nat} {f : List Word → α} {Q : α → Prop} (hf : Takes x n f)
    (hQ : Draws x n Q) {ws : List Word} (hl : ws.length = n) : Q (f ws) := by
  obtain ⟨g, hg, hQ⟩ := hQ
  have hdone : Drawn.done (f ws) _ = Drawn.done (g ws) _ := (hf.done ws [] 0 hl).symm.trans (hg.done ws [] 0 hl)
  rw [(Drawn.done.inj hdone).1]
  exact hQ ws hl

/-- R209: the permutation's shares, round after round, each with the next words. -/
theorem permuteShares_eq_foldOf (D : Nat) (g : Grid) (ws : List Word) : permuteShares D g ws =
    foldOf (fun g i => roundShares D i g) (25 * andDraws D) (List.range 24) g ws := by
  have hfold := foldOf_range' (fun g i => roundShares D i g) (25 * andDraws D) ws 24 0 g
  rw [Nat.zero_mul, List.drop_zero, ← List.range_eq_range'] at hfold
  exact hfold.symm

/-! ### The commands that draw nothing (R215 to R218, R220) -/

/-- Settles O40: the grid becomes the zero grid. -/
theorem stclrZeroesTheLanes : Obligations.StclrZeroesTheLanes := by
  intro s h ha
  obtain ⟨t, hexec, hran, hlanes⟩ := bodyGrid h ha (g := zeroGrid s.params.D) rfl
  exact ⟨t, hexec, hran, hlanes ▸ ⟨(gridOk_zeroGrid _).1, fun L hL => laneIs_zeroGrid _ hL⟩⟩

/-- Settles O41: theta is the plain theta on each slice of shares, and on their XOR. -/
theorem thetaActsOnEverySlice : Obligations.ThetaActsOnEverySlice := by
  intro s h ha
  obtain ⟨t, hexec, hran, hlanes⟩ := bodyGrid h ha (g := theta s.lanes) rfl
  refine ⟨t, hexec, hran, ?_⟩
  rw [State.values, hlanes]
  exact ⟨gridOk_theta h.grid, fun k _ => slice_theta h.grid k, values_theta h.grid⟩

/-- Settles O42: each lane becomes its own rotation, share by share. -/
theorem rhoRotatesEveryLane : Obligations.RhoRotatesEveryLane := by
  intro s h ha
  obtain ⟨t, hexec, hran, hlanes⟩ := bodyGrid h ha (g := rho s.lanes) rfl
  refine ⟨t, hexec, hran, ?_⟩
  rw [State.values, hlanes]
  refine ⟨(gridOk_rho h.grid).1, fun x hx y hy => ?_, values_rho s.lanes⟩
  rw [laneXY_rho s.lanes hx hy]
  exact laneIs_gRotl (length_laneXY h.grid x y) (rhoOffset x y)

/-- Settles O43: by the mapping of pi, and by its flat-index table. -/
theorem piMovesWholeLanes : Obligations.PiMovesWholeLanes := by
  intro s h ha
  obtain ⟨t, hexec, hran, hlanes⟩ := bodyGrid h ha (g := pi s.lanes) rfl
  refine ⟨t, hexec, hran, ?_⟩
  rw [hlanes]
  exact ⟨(gridOk_pi h.grid).1, fun x hx y hy => laneXY_pi h.grid hx hy, fun L hL => laneAt_pi h.grid hL⟩

/-- Settles O45: iota sets lane 0 to `xorShare0` of itself. -/
theorem iotaChangesShareZeroOfLaneZero : Obligations.IotaChangesShareZeroOfLaneZero := by
  intro n s h ha
  obtain ⟨t, hexec, hran, hlanes⟩ := bodyGrid h ha (g := iota n.toNat s.lanes) rfl
  have hlane : laneAt t.lanes 0 = xorShare0 (laneAt s.lanes 0) (rc n.toNat) := by
    rw [hlanes, iota, set_same h (by omega)]
  refine ⟨t, hexec, hran, set_others h hlanes, ?_, ?_⟩
  · exact hlane ▸ laneIs_xorShare0 (length_laneAt h.grid (by omega)) (rc n.toNat)
  · rw [State.values, hlanes]
    exact values_iota h.grid n.toNat

/-! ### The commands that draw (R219, R221, R222) -/

/-- A raw command that makes a new grid of the `n` words it draws. -/
theorem exec_setGrid_drawn {i : Instr} {s : State} {n : Nat} {f : List Word → Grid} {ws : List Word} {rest : List Answer}
    (ha : accepts i s) (hb : Takes (bodyOf i (accept s)) n fun ws => (accept s).setGridDiscard (f ws))
    (hs : supplied s ws rest) (hl : ws.length = n) :
    exec i s = .next (afterRaw s (f ws) (s.rngCount + BitVec.ofNat 64 n) rest (Config.freeTemps s.freeTick)
      (s.freeTick + 1) (zeroMatrix s.params.D)) :=
  exec_takes (check_of_accepts ha) hb hs hl

theorem ranMasked_afterRaw (s : State) (g : Grid) (n : Nat) (rest : List Answer) (T : Temps) (k : Nat) :
    ranMasked n rest s (afterRaw s g (s.rngCount + BitVec.ofNat 64 n) rest T k (zeroMatrix s.params.D)) :=
  ⟨⟨rfl, rfl, rfl, rfl, ⟨rfl, rfl, rfl, rfl, rfl, rfl, rfl⟩⟩, ⟨rfl, rfl, rfl⟩, ⟨rfl, rfl, rfl, rfl, rfl⟩, rfl, rfl⟩

/-- Settles O44: chi takes its words lane by lane, and on the values is plain chi whatever they are. -/
theorem chiUsesAFreshAndForEveryLane : Obligations.ChiUsesAFreshAndForEveryLane := by
  intro s ws rest h ha hs hl
  have hchi := takes_chi_shares h.grid
  have hbody : Takes (bodyOf .chi (accept s)) _ _ := takes_map (accept s).setGridDiscard hchi
  obtain ⟨hgrid, hvalues⟩ := takes_satisfies hchi (draws_chi h.grid) hl
  exact ⟨_, exec_setGrid_drawn ha hbody hs hl, ranMasked_afterRaw _ _ _ _ _ _, hgrid.1,
    fun _ hx _ hy => laneIs_chiShares s.params.D s.lanes ws hx hy, hvalues⟩

/-- Settles O47: the permutation draws its words and is Keccak-f[1600] on the values whatever they are. -/
theorem permuteIsKeccakF : Obligations.PermuteIsKeccakF := by
  intro s ws rest h ha hs hl
  have hbody : Takes (bodyOf .permute (accept s)) _ _ := takes_map (accept s).setGridDiscard (takes_permute h.grid)
  obtain ⟨hgrid, hvalues⟩ := takes_satisfies (takes_permute h.grid) (draws_permute h.grid) hl
  exact ⟨_, exec_setGrid_drawn ha hbody hs hl, ranMasked_afterRaw _ _ _ _ _ _, hgrid, hvalues⟩

/-! ### Raw commands one after another (R208, R209, R221) -/

/-- Acceptance loses nothing that an accepted command reads. -/
theorem exec_accept {i : Instr} {s : State} (hc : check i s = none) : exec i (accept s) = exec i s := by
  rw [exec_of_accepted hc, exec_of_accepted ((check_accept i s).trans hc)]
  rfl

theorem runAll_accept {i : Instr} {s : State} (hc : check i s = none) (l : List (Word × Instr)) :
    runAll ((s.arg, i) :: l) (accept s) = runAll ((s.arg, i) :: l) s := by
  have he : exec i { accept s with arg := s.arg } = exec i { s with arg := s.arg } := exec_accept hc
  rw [runAll, runAll, he]

/-- A raw command that leaves `afterRaw` of an idle state lets the run go on from there; it returns no bytes. -/
theorem runAll_raw {i : Instr} (hraw : isRaw i = true) {s t : State} (hr : s.running = none) {a : Word} {g : Grid}
    {c : Word} {as : List Answer} {T : Temps} {k : Nat} {rm : RandMatrix}
    (he : exec i { t with arg := a } = .next (afterRaw s g c as T k rm)) (l : List (Word × Instr)) :
    runAll ((a, i) :: l) t = runAll l (afterRaw s g c as T k rm) := by
  have hgo : (afterRaw s g c as T k rm).err = .ok ∧ (afterRaw s g c as T k rm).running = none := ⟨rfl, hr⟩
  simp only [runAll, he, if_pos hgo]
  cases runAll l (afterRaw s g c as T k rm) with
  | none => rfl
  | some q =>
    cases i with
    | ssqueeze n => cases hraw
    | _ => rfl

/-- R208: the five commands one after another apply their transforms to the grid, CHI with all the words. -/
theorem runAll_fiveSteps {n : BitVec 6} {s : State} {ws : List Word} {rest : List Answer}
    (hg : gridOk s.params.D s.lanes) (hr : s.running = none) (hc : check (.round n) s = none) (hs : supplied s ws rest)
    (hl : ws.length = 25 * andDraws s.params.D) :
    ∃ T k, runAll [(s.arg, .theta), (s.arg, .rho), (s.arg, .pi), (s.arg, .chi), (s.arg, .iota n)] s =
      some (afterRaw s (roundShares s.params.D n.toNat s.lanes ws)
        (s.rngCount + BitVec.ofNat 64 (25 * andDraws s.params.D)) rest T k (zeroMatrix s.params.D), []) := by
  have hn : (Instr.iota n).wellFormed = true := (check_none hc).2.2.2
  have htheta : check .theta s = none := raw_check hc rfl rfl rfl
  have hrho : check .rho s = none := raw_check hc rfl rfl rfl
  have hpi : check .pi s = none := raw_check hc rfl rfl rfl
  have hchi : check .chi s = none := raw_check hc rfl rfl rfl
  have hiota : check (.iota n) s = none := raw_check hc rfl rfl hn
  have hfirst := lin_first (i := .theta) (fun _ => rfl) htheta
  rw [show s.answers = ws.map .word ++ rest from hs] at hfirst
  rw [roundShares, ← eachOf_chiOf (gridOk_pi (gridOk_rho (gridOk_theta hg))) hl]
  exact ⟨_, _, calc
    _ = _ := runAll_raw rfl hr hfirst _
    _ = _ := runAll_raw rfl hr (lin_after (fun _ => rfl) hrho ..) _
    _ = _ := runAll_raw rfl hr (lin_after (fun _ => rfl) hpi ..) _
    _ = _ := runAll_raw rfl hr (chi_after hchi hl ..) _
    _ = _ := runAll_raw rfl hr (lin_after (fun _ => rfl) hiota ..) _
    _ = _ := rfl⟩

/-- Settles O46: ROUND and its five steps make the same grid of the same words. -/
theorem roundIsItsFiveSteps : Obligations.RoundIsItsFiveSteps := by
  intro n s ws rest h ha hs hl
  have hround := takes_round_shares h.grid n.toNat
  have hbody : Takes (bodyOf (.round n) (accept s)) _ _ := takes_map (accept s).setGridDiscard hround
  obtain ⟨-, hvalues⟩ := takes_satisfies hround (draws_round h.grid n.toNat) hl
  obtain ⟨T, k, hrun⟩ := runAll_fiveSteps h.grid ha.idle (check_of_accepts ha) hs hl
  exact ⟨_, _, exec_setGrid_drawn ha hbody hs hl, ranMasked_afterRaw _ _ _ _ _ _, hrun, rfl, hvalues⟩

/-- ROUND, in a run of raw commands. -/
theorem round_after {s : State} {n : BitVec 6} (hc : check (.round n) s = none) {g : Grid} (hg : gridOk s.params.D g)
    {ws : List Word} (hl : ws.length = 25 * andDraws s.params.D) (c : Word) (rest : List Answer) (T : Temps) (k : Nat)
    (rm : RandMatrix) :
    exec (.round n) { afterRaw s g c (ws.map .word ++ rest) T k rm with arg := s.arg } =
      .next (afterRaw s (roundShares s.params.D n.toNat g ws) (c + BitVec.ofNat 64 (25 * andDraws s.params.D)) rest
        (Config.freeTemps k) (k + 1) (zeroMatrix s.params.D)) := by
  let u := afterRaw s g c (ws.map .word ++ rest) T k rm
  have hbody : Takes (bodyOf (.round n) (accept u)) _ _ :=
    takes_map (accept u).setGridDiscard (takes_round_shares hg n.toNat)
  exact exec_takes ((check_after _ s g c _ T k rm).trans hc) hbody rfl hl

/-- Rounds one after another, each with the next words. -/
theorem runAll_rounds {s : State} (hr : s.running = none) (hc : check .permute s = none) (rest : List Answer) :
    ∀ (is : List Nat) (g : Grid) (ws : List Word) (c : Word) (T : Temps) (k : Nat), (∀ i ∈ is, i < 24) →
      gridOk s.params.D g → ws.length = 25 * andDraws s.params.D * is.length →
      ∃ T' k', runAll (is.map fun i => (s.arg, Instr.round (BitVec.ofNat 6 i)))
          (afterRaw s g c (ws.map .word ++ rest) T k (zeroMatrix s.params.D)) =
        some (afterRaw s (foldOf (fun g i => roundShares s.params.D i g) (25 * andDraws s.params.D) is g ws)
          (c + BitVec.ofNat 64 (25 * andDraws s.params.D * is.length)) rest T' k' (zeroMatrix s.params.D), [])
  | [], g, ws, c, T, k, _, _, hl => by
    obtain rfl : ws = [] := List.eq_nil_of_length_eq_zero hl
    exact ⟨T, k, by simp [runAll, foldOf]⟩
  | i :: is, g, ws, c, T, k, hi, hg, hl => by
    have hi24 : i < 24 := hi i List.mem_cons_self
    have hn : (BitVec.ofNat 6 i).toNat = i := by rw [BitVec.toNat_ofNat, Nat.mod_eq_of_lt (by omega)]
    have hround : check (.round (BitVec.ofNat 6 i)) s = none :=
      raw_check hc rfl rfl (by rw [Instr.wellFormed, roundOk, hn]; exact decide_eq_true hi24)
    have hcount : 25 * andDraws s.params.D * (i :: is).length
        = 25 * andDraws s.params.D + 25 * andDraws s.params.D * is.length := by
      rw [List.length_cons, Nat.mul_succ, Nat.add_comm]
    obtain ⟨hwords, htake, hdrop⟩ := words_split (rest := rest) rfl (hl.trans hcount)
    obtain ⟨T', k', hrun⟩ := runAll_rounds hr hc rest is _ _ (c + BitVec.ofNat 64 (25 * andDraws s.params.D))
      (Config.freeTemps k) (k + 1) (fun j hj => hi j (List.mem_cons_of_mem i hj))
      (gridOk_roundShares i g (ws.take (25 * andDraws s.params.D))) hdrop
    refine ⟨T', k', ?_⟩
    have hfirst := round_after hround hg htake c ((ws.drop (25 * andDraws s.params.D)).map .word ++ rest) T k
      (zeroMatrix s.params.D)
    rw [hn] at hfirst
    rw [List.map_cons, hwords, runAll_raw rfl hr hfirst, hrun, hcount, BitVec.ofNat_add, BitVec.add_assoc]
    rfl

/-- Settles O48: the rounds leave the grid of PERMUTE's shares, having drawn the same words. -/
theorem roundsInOrderEqualPermute : Obligations.RoundsInOrderEqualPermute := by
  intro s ws rest h ha hs hl
  have hc := check_of_accepts ha
  have hbody : Takes (bodyOf .permute (accept s)) _ _ := takes_map (accept s).setGridDiscard (takes_permute h.grid)
  have hdraws : 25 * andDraws s.params.D * (List.range 24).length = permuteDraws s.params.D := permuteDraws_eq s.params.D
  have hstart : afterRaw s s.lanes s.rngCount (ws.map .word ++ rest) s.temps s.freeTick (zeroMatrix s.params.D)
      = accept s := by
    rw [← h.matrix, ← show s.answers = ws.map .word ++ rest from hs]
    rfl
  obtain ⟨T, k, hrun⟩ := runAll_rounds ha.idle hc rest (List.range 24) s.lanes ws s.rngCount s.temps s.freeTick
    (fun _ => List.mem_range.mp) h.grid (hl.trans hdraws.symm)
  rw [hstart, hdraws, ← permuteShares_eq_foldOf] at hrun
  have hround : check (.round 0) s = none := raw_check hc rfl rfl rfl
  exact ⟨_, _, exec_setGrid_drawn ha hbody hs hl, (runAll_accept hround _).symm.trans hrun, rfl⟩

/-! ### The permutation of the zero state (R210) -/

/-- Settles O49: a closed fact, found by running the reference. -/
theorem keccakFOfZero : Obligations.KeccakFOfZero := by
  unfold Obligations.KeccakFOfZero
  decide +kernel

end Sys2Proof.Machine
end

section
/-! What a command that completes leaves, and the four sponge commands on the reference sponge (R250 to R263). -/

namespace Sys2Proof.Machine

/-! ### The phase (R250) -/

/-- A command that a step works on changes the phase only as `phase_of_exec` says. -/
theorem phase_of_worksOn {s u v : State} {i : Instr} (hw : worksOn s i) (he : exec i u = .next v)
    (hh : s.halt = false) (hsph : u.sph = s.sph) (hlen : u.outLen = s.outLen) (hne : v.sph ≠ s.sph) :
    (∃ n, worksOn s (.sinit n) ∧ v.sph = .absorbing) ∨
    (worksOn s .sfinal ∧ s.sph = .absorbing ∧ v.sph = if s.outLen = 0 then .done else .squeezing) ∨
    (∃ n, worksOn s (.ssqueeze n) ∧ s.sph = .squeezing ∧ v.sph = .done ∧ v.delivered = v.outLen) ∨
    (entersRaw s ∧ v.sph = .empty) ∨
    (s.halt = false ∧ v.halt = true ∧ v.sph = .empty) ∨
    (s.inputs.head? = some .reset ∧ v.sph = .empty) := by
  rw [← hsph] at hne ⊢
  rw [← hlen]
  obtain ⟨n, rfl, h1⟩ | ⟨rfl, h1⟩ | ⟨n, rfl, h1⟩ | ⟨h1, h2⟩ := phase_of_exec he hne
  · exact .inl ⟨n, hw, h1⟩
  · exact .inr (.inl ⟨hw, h1⟩)
  · exact .inr (.inr (.inl ⟨n, hw, h1⟩))
  · exact .inr (.inr (.inr (.inr (.inl ⟨hh, h1, h2⟩))))

/-- The phase after a CTRL write that is taken: only the scrub changes it. -/
theorem sph_of_writeCtrl {v : Word} {s : State} (hne : (writeCtrl v s).sph ≠ s.sph) :
    v.getLsbD 0 = true ∧ s.rawEn = false ∧ (writeCtrl v s).sph = .empty := by
  by_cases hw : v.getLsbD 0 = true ∧ s.rawEn = false
  · exact ⟨hw.1, hw.2, by rw [writeCtrl_scrubs hw.1 hw.2]; rfl⟩
  · rw [writeCtrl_sets hw] at hne
    exact absurd rfl hne

/-- Settles O28: of all inputs only a command, a CTRL write that scrubs and a reset change the phase. -/
theorem phaseChangesOnlyByItsTable : Obligations.PhaseChangesOnlyByItsTable := by
  intro s t h hst hne
  obtain ⟨-, rfl⟩ | ⟨e, rest, hi, he⟩ := step_cases hst
  · exact absurd rfl hne
  have hhead : s.inputs.head? = some e := by rw [hi]; rfl
  cases he with
  | read | writeIgnored | writeBusy | arg | answerKept | lateAnswer => exact absurd rfl hne
  | @cmd v _ _ hh hr ht =>
    cases hd : decode v with
    | ok i =>
      rw [submit_ok hd] at ht
      exact phase_of_worksOn (.inl ⟨v, ⟨hhead, hh, hr⟩, hd⟩) ht hh rfl rfl hne
    | error e =>
      rw [submit_error hd] at ht
      cases ht
      exact absurd rfl hne
  | @ctrl v _ hh hr =>
    obtain ⟨hv, hraw, h0⟩ := sph_of_writeCtrl hne
    exact .inr (.inr (.inr (.inl ⟨⟨v, ⟨hhead, hh, hr⟩, hv, hraw⟩, h0⟩)))
  | @answerTaken a _ _ r hr ht =>
    obtain ⟨u, hu, rfl⟩ := takeAnswer_busy hr ht
    have hh : s.halt = false := (h.busyOk r hr).1
    have hu_phase := phase_of_worksOn (.inr ⟨a, r, hhead, hr, rfl⟩) hu hh rfl rfl hne
    exact hu_phase
  | reset => exact .inr (.inr (.inr (.inr (.inr ⟨hhead, rfl⟩))))

/-! ### A command that completes -/

/-- The end of a command that was accepted in `s` and drew `n` words: its body left `u`, and `rest` is still ready. -/
def ended (s : State) (n : Nat) (rest : List Answer) (u : State) : State :=
  freshTemps { u with rngCount := s.rngCount + BitVec.ofNat 64 n, answers := rest }

theorem accepts_of_check {i : Instr} {s : State} (hr : s.running = none) (hh : s.halt = false) (hc : check i s = none) :
    accepts i s := by
  obtain ⟨henabled, hphase, hconfig, hoperands⟩ := (check_eq_none_iff i s).mp hc
  exact ⟨hr, hh, henabled, hphase, hconfig, hoperands⟩

/-- A command whose body makes a state of the words it draws ends in that state, and has run. -/
theorem exec_ended {i : Instr} {s : State} {n : Nat} {f : List Word → State} {ws : List Word} {rest : List Answer}
    (hc : check i s = none) (hb : Takes (bodyOf i (accept s)) n f) (hs : supplied s ws rest) (hl : ws.length = n) :
    exec i s = .next (ended s n rest (f ws)) ∧ ran n rest s (ended s n rest (f ws)) := by
  have hdone := hb.done ws [] 0 hl
  have hmeta := always_meta i (accept s) _ _ _ hdone
  have hkeeps := always_keepsArg i (accept s) _ _ _ hdone
  exact ⟨exec_takes hc hb hs hl, ran_mk s n rest (f ws) hmeta hkeeps⟩

/-- What a computation makes of its words is settled. -/
theorem takes_unique {α : Type} {x : Draw α} {n : Nat} {f g : List Word → α} (hf : Takes x n f) (hg : Takes x n g)
    {ws : List Word} (hl : ws.length = n) : f ws = g ws :=
  (Drawn.done.inj ((hf.done ws [] 0 hl).symm.trans (hg.done ws [] 0 hl))).1

/-- A computation that turns out to draw nothing makes its one value. -/
theorem takes_value_of_pure {α : Type} {x : Draw α} {n : Nat} {f : List Word → α} {a : α} (hf : Takes x n f)
    (hx : x = Draw.pure a) {ws : List Word} (hl : ws.length = n) : f ws = a := by
  have hdone := hf.done ws [] 0 hl
  rw [hx] at hdone
  exact (Drawn.done.inj hdone).1.symm

/-! ### SINIT (R260) -/

/-- R252: what CUSTOM takes from ARG. -/
theorem customParams_values {arg : Word} {sp : SpongeParams} (h : customParams arg = some sp) :
    sp.rate.toNat = arg.toNat % 2 ^ 16 ∧ sp.ds.toNat = arg.toNat / 2 ^ 16 % 2 ^ 8 ∧
      sp.outLen.toNat = arg.toNat / 2 ^ 32 := by
  have harg := arg.isLt
  unfold customParams at h
  simp only at h
  split at h
  · rename_i hvalid
    simp only [Bool.and_eq_true, decide_eq_true_eq, BitVec.extractLsb'_toNat, Nat.shiftRight_zero] at hvalid
    obtain ⟨⟨-, hle⟩, -⟩ := hvalid
    cases h
    simp only [BitVec.extractLsb'_toNat, BitVec.toNat_setWidth, Nat.shiftRight_eq_div_pow]
    refine ⟨?_, trivial, ?_⟩ <;> omega
  · cases h

/-- SINIT starts the sponge of its variant; it draws nothing. -/
theorem exec_sinit {n : BitVec 6} {s : State} {sp : SpongeParams} (hsp : spongeVariant n s.arg = some sp) :
    exec (.sinit n) s = .next (ended s 0 s.answers (startSponge sp (accept s))) ∧
      ran 0 s.answers s (ended s 0 s.answers (startSponge sp (accept s))) := by
  have hc : check (.sinit n) s = none := by simp [check, isRaw, phaseAllows, configInvalid, operandsOk, hsp]
  have hb : bodyOf (.sinit n) (accept s) = Draw.pure (startSponge sp (accept s)) := by
    show bodySinit n (accept s) = _
    rw [bodySinit, accept_arg, hsp]
  exact exec_ended (ws := []) hc (hb ▸ takes_pure _) rfl rfl

/-- Settles O50: the sponge starts on the scrubbed state, with the parameters of the variant table. -/
theorem sinitSetsTheVariant : Obligations.SinitSetsTheVariant := by
  intro n s h ha
  obtain ⟨sp, hsp⟩ := sinit_of_check (check_of_accepts ha)
  obtain ⟨hexec, hran⟩ := exec_sinit hsp
  have hscrub := scrubbed_scrub s
  refine ⟨_, hexec, hran, ⟨hscrub.lanes, hscrub.rm, ⟨rfl, rfl, rfl⟩, ⟨rfl, rfl, rfl, rfl⟩, rfl, rfl, rfl⟩, rfl, ?_⟩
  show (sp.rate.toNat, sp.ds.toNat, sp.outLen.toNat) = _
  unfold spongeVariant at hsp
  split at hsp
  case h_7 hn =>
    obtain ⟨hrate, hds, hlen⟩ := customParams_values hsp
    rw [hn, hrate, hds, hlen]
    rfl
  case h_8 => cases hsp
  all_goals
    rename_i hn
    cases hsp
    rw [hn]
    rfl

/-! ### SABSORB (R261) -/

/-- The `n ≤ 8` bytes of one SABSORB complete at most one lane. -/
theorem lanesCompleted_le_one (s : State) {n : Nat} (hn : n ≤ 8) : lanesCompleted s n ≤ 1 := by
  unfold lanesCompleted
  omega

theorem blocksCompleted_zero_or_one (s : State) (n : Nat) : blocksCompleted s n = 0 ∨ blocksCompleted s n = 1 := by
  unfold blocksCompleted
  split <;> simp

/-- The words of a SABSORB that completes a lane: those of the lane, and of the permutation where a block is complete. -/
theorem bytesDraws_of_lane {s : State} {n : Nat} (h : lanesCompleted s n = 1) : bytesDraws s n =
    s.params.D + (if blocksCompleted s n = 1 then permuteDraws s.params.D else 0) := by
  obtain hb | hb := blocksCompleted_zero_or_one s n <;> simp [bytesDraws, h, hb]

/-- Settles O51: the relation to the reference and the frame hold whatever is drawn, and the shares follow the draws. -/
theorem sabsorbAbsorbsTheBytes : Obligations.SabsorbAbsorbsTheBytes := by
  intro n s msg ws rest h ha hab hs hl
  have hc := check_of_accepts ha
  have hn := (count_of_check hc).2
  have hstate : absorbState (accept s) msg := ⟨h.grid, hab⟩
  have hshape := absorbShape_of_absorbState hstate
  obtain ⟨f, hf, hQ⟩ := draws_bodySabsorb hstate hn
  obtain ⟨hexec, hran⟩ := exec_ended hc hf hs hl
  obtain ⟨⟨hgrid, habs⟩, hsame⟩ := hQ ws hl
  rw [hsame.same.params] at hgrid
  obtain ⟨hrate, hds, hout⟩ := hsame.spongeParams
  refine ⟨_, hexec, hran, ⟨hrate, hds, hout⟩, hsame.result, hsame.spos, hsame.delivered, hsame.rm h.matrix, hgrid, habs,
    fun hzero => ?_, fun hone => ?_⟩
  · obtain ⟨u, hu, hlanes⟩ := sabsorb_short (s := accept s) hshape hzero
    exact (congrArg State.lanes (takes_value_of_pure hf hu hl)).trans hlanes
  · obtain ⟨g, hg, hlanes⟩ := sabsorb_lane (s := accept s) hshape hn hone
    rw [← bytesDraws_of_lane (s := accept s) hone] at hg hlanes
    exact (congrArg State.lanes (takes_unique hf hg hl)).trans (hlanes ws hl)

/-! ### SFINAL (R262) -/

theorem length_padLanes (s : State) : (padLanes s).length = s.rate.toNat / 8 - s.apos.toNat / 8 := by
  simp [padLanes]

/-- The words SFINAL masks into the lanes from `APOS div 8` on are those of the padded block of R253. -/
theorem padLane_of_absorbed {s : State} {msg : List Byte} (h : absorbed s msg) : ∀ L ∈ padLanes s,
    padLane s L = blockWord (padBlock s.rate.toNat s.ds (absorbFull s.rate.toNat msg).2) L := by
  obtain ⟨-, hrate, hapos, hlt, hlacc, -⟩ := h
  intro L hL
  simp only [padLanes, List.mem_range'_1] at hL
  rw [blockWord_padBlock hrate hapos hlt hlacc, if_neg (by omega)]

/-- The shares SFINAL makes of its draws, the bytes received being `msg`. -/
def sfinalShares (s : State) (msg : List Byte) (ws : List Word) : Grid :=
  let lanes := s.rate.toNat / 8 - s.apos.toNat / 8
  let block := padBlock s.rate.toNat s.ds (absorbFull s.rate.toNat msg).2
  permuteShares s.params.D
    (maskLanes s.params.D (blockWord block) (List.range' (s.apos.toNat / 8) lanes) s.lanes ws) (ws.drop (s.params.D * lanes))

theorem takes_sfinal_of_absorbed {s : State} {msg : List Byte} (hg : gridOk s.params.D s.lanes) (h : absorbed s msg) :
    Takes (bodySfinal s) (drawsOf .sfinal s) fun ws =>
      startSqueeze { s.setGridDiscard (sfinalShares s msg ws) with lacc := 0, apos := 0 } := by
  have hbody := takes_bodySfinal hg h.2.1
  rw [length_padLanes] at hbody
  refine takes_congr hbody fun ws _ => ?_
  rw [← length_padLanes, maskLanes_take, maskLanes_congr (padLane_of_absorbed h), length_padLanes]
  rfl

/-- Settles O52: SFINAL makes the shares of its draws, and on the values ends the reference absorb whatever they are. -/
theorem sfinalPadsAndPermutes : Obligations.SfinalPadsAndPermutes := by
  intro s msg ws rest h ha hab hs hl
  have hbody := takes_sfinal_of_absorbed (s := accept s) h.grid hab
  obtain ⟨hexec, hran⟩ := exec_ended (i := .sfinal) (check_of_accepts ha) hbody hs hl
  obtain ⟨g, hgrid, hu, hvalues⟩ := takes_satisfies hbody (draws_bodySfinal (s := accept s) h.grid hab.2.1) hl
  have hlanes : sfinalShares s msg ws = g := congrArg State.lanes hu
  subst hlanes
  exact ⟨_, hexec, hran, ⟨rfl, rfl, rfl⟩, rfl, rfl, hgrid, hvalues msg hab, rfl, rfl, rfl, rfl, rfl, rfl⟩

/-! ### SSQUEEZE (R263) -/

/-- DELIVERED does not wrap, as no more bytes are delivered than OUTLEN says (R48). -/
theorem delivered_add_toNat {s : State} {n : BitVec 6} (h : n.toNat ≤ s.outLen.toNat - s.delivered.toNat) :
    (s.delivered + n.setWidth 64).toNat = s.delivered.toNat + n.toNat := by
  have hd := s.delivered.isLt
  have hlen := s.outLen.isLt
  rw [BitVec.toNat_add, BitVec.toNat_setWidth, Nat.mod_eq_of_lt (by omega : n.toNat < 2 ^ 64), Nat.mod_eq_of_lt (by omega)]

/-- A squeeze inside its rate window leaves the lanes and moves SPOS on. -/
theorem ssqueeze_inWindow {s : State} (h : squeezeShape s) {n : BitVec 6} (hw : windowsOpened s n.toNat = 0) {m : Nat}
    {f : List Word → State} (hf : Takes (bodySsqueeze n s) m f) {ws : List Word} (hl : ws.length = m) :
    (f ws).lanes = s.lanes ∧ (f ws).spos.toNat = s.spos.toNat + n.toNat := by
  obtain ⟨u, hu, hlanes, hspos⟩ := ssqueeze_short hw
  obtain ⟨-, ⟨-, -, hrate⟩, -⟩ := h
  rw [takes_value_of_pure hf hu hl, hspos, BitVec.toNat_add, BitVec.toNat_ofNat]
  refine ⟨hlanes, ?_⟩
  unfold windowsOpened at hw
  split at hw <;> omega

/-- A squeeze into the next rate window permutes the lanes once, and SPOS counts on from the start of the window. -/
theorem ssqueeze_nextWindow {s : State} (h : squeezeShape s) {n : BitVec 6} (hn : n.toNat ≤ 8)
    (hw : windowsOpened s n.toNat = 1) {f : List Word → State}
    (hf : Takes (bodySsqueeze n s) (permuteDraws s.params.D * windowsOpened s n.toNat) f) {ws : List Word}
    (hl : ws.length = permuteDraws s.params.D * windowsOpened s n.toNat) :
    (f ws).lanes = permuteShares s.params.D s.lanes ws ∧ (f ws).values = keccakF s.values ∧
      (f ws).spos.toNat + s.rate.toNat = s.spos.toNat + n.toNat := by
  rw [hw, Nat.mul_one] at hf hl
  obtain ⟨g, hg, hshares⟩ := ssqueeze_window h hn hw
  obtain ⟨hlanes, hspos⟩ := hshares ws hl
  obtain ⟨hgrid, ⟨hr8, hr1, hr2⟩, hle⟩ := h
  obtain ⟨-, hvalues⟩ := takes_satisfies (takes_permute hgrid) (draws_permute hgrid) hl
  rw [takes_unique hf hg hl, State.values, hlanes, hspos, BitVec.toNat_ofNat]
  refine ⟨rfl, hvalues, ?_⟩
  unfold windowsOpened at hw
  split at hw <;> omega

theorem squeezeShape_of_bodyOk {s : State} (h : bodyOk s) (hph : s.sph = .squeezing) : squeezeShape s := by
  have hsponge := h.sponge
  simp only [spongeOk, hph] at hsponge
  obtain ⟨hrate, -, -, hspos, -⟩ := hsponge
  exact ⟨h.grid, hrate, hspos⟩

/-- Settles O53: the bytes are those of the loop of R255, and the lanes move on where a window is opened. -/
theorem ssqueezeDeliversTheNextBytes : Obligations.SsqueezeDeliversTheNextBytes := by
  intro n s ws rest h ha hs hl
  have hc := check_of_accepts ha
  obtain ⟨hph, -, hn, hle⟩ := squeezing_of_check hc
  have hshape : squeezeShape (accept s) := squeezeShape_of_bodyOk (bodyOk_accept (bodyOk_of_inv h)) hph
  obtain ⟨f, hf, hQ⟩ := draws_bodySsqueeze hshape hn
  obtain ⟨hexec, hran⟩ := exec_ended (i := .ssqueeze n) hc hf hs hl
  have hstill := fun hw => ssqueeze_inWindow hshape hw hf hl
  have hnext := fun hw => ssqueeze_nextWindow hshape hn hw hf hl
  obtain ⟨u, ⟨hgrid, -, -⟩, hsame, bs, hlen, hu, hbytes⟩ := hQ ws hl
  rw [hu] at hexec hran hstill hnext
  have hdelivered := delivered_add_toNat hle
  have hremaining : remaining s = bs ++
      squeezeFrom s.rate.toNat (s.outLen.toNat - s.delivered.toNat - n.toNat) u.values u.spos.toNat := by
    have hsplit := hbytes (s.outLen.toNat - s.delivered.toNat - n.toNat)
    rw [Nat.add_sub_cancel' hle] at hsplit
    exact hsplit
  have hrate : u.rate = s.rate := hsame.spongeParams.rate
  have hout : u.outLen = s.outLen := hsame.spongeParams.outLen
  refine ⟨_, hexec, hran, ⟨hrate, hsame.spongeParams.ds, hout⟩, hsame.apos, hsame.lacc, hsame.rm h.matrix, ?_, ?_, ?_, ?_,
    hdelivered, hstill, hnext, ?_⟩
  · rw [hsame.same.params] at hgrid
    exact hgrid
  · rw [hremaining, List.take_left' hlen]
    exact bytesOf_leWord bs n.toNat hlen hn
  · rw [← hlen]
    exact leWord_lt bs
  · rw [hremaining, List.drop_left' hlen, Nat.sub_sub, ← hdelivered, ← hrate, ← hout]
    rfl
  · show (if s.delivered + n.setWidth 64 = s.outLen then Phase.done else s.sph) =
      if s.delivered + n.setWidth 64 = u.outLen then Phase.done else Phase.squeezing
    rw [hout, hph]

end Sys2Proof.Machine
end

section
/-! A whole sponge run on the values: SINIT, the SABSORB commands, SFINAL and the SSQUEEZE commands one after another, with
the words each draws (R257 to R259). -/

namespace Sys2Proof.Machine

/-! ### Commands one after another -/

/-- What the commands of a run leave: an idle block of the same order, with `n` more words counted and `rest` ready. -/
structure ranOn (n : Nat) (rest : List Answer) (s t : State) : Prop where
  idle : Idle t
  params : t.params = s.params
  count : t.rngCount = s.rngCount + BitVec.ofNat 64 n
  answers : t.answers = rest

theorem ranOn_refl {s : State} (h : Idle s) : ranOn 0 s.answers s s := ⟨h, rfl, by simp, rfl⟩

theorem ranOn_trans {n m : Nat} {as rest : List Answer} {s t u : State} (h : ranOn n as s t) (k : ranOn m rest t u) :
    ranOn (n + m) rest s u where
  idle := k.idle
  params := k.params.trans h.params
  count := by rw [k.count, h.count, BitVec.add_assoc, BitVec.ofNat_add]
  answers := k.answers

theorem ranOn_of_exec {n : Nat} {rest : List Answer} {s t : State} {a : Word} {i : Instr} (h : Idle s)
    (he : exec i { s with arg := a } = .next t) (hr : ran n rest { s with arg := a } t) : ranOn n rest s t :=
  ⟨idle_exec (idle_arg h a) he hr, hr.same.params, hr.count, hr.answers⟩

/-- The words of a command come first, those of the commands after it follow. -/
theorem ranOn_split {ws : List Word} {k : Nat} {as rest : List Answer} {s t u : State}
    (h : ranOn (ws.take k).length as s t) (j : ranOn (ws.drop k).length rest t u) : ranOn ws.length rest s u := by
  have hboth := ranOn_trans h j
  rwa [← List.length_append, List.take_append_drop] at hboth

/-- A command that returns no bytes lets the run go on from where it ends. -/
theorem runAll_silent {a : Word} {i : Instr} {s t : State} {n : Nat} {rest : List Answer} {l : List (Word × Instr)}
    (hi : ∀ k, i ≠ .ssqueeze k) (he : exec i { s with arg := a } = .next t) (hr : ran n rest { s with arg := a } t)
    (hs : s.running = none) : runAll ((a, i) :: l) s = runAll l t := by
  rw [runAll_step he hr hs]
  cases runAll l t with
  | none => rfl
  | some q =>
    cases i with
    | ssqueeze k => exact absurd rfl (hi k)
    | _ => rfl

/-! ### Starting -/

theorem absorbed_startSponge {sp : SpongeParams} (hr : rateOk sp.rate) (s : State) : absorbed (startSponge sp s) [] := by
  have hpos : 0 < sp.rate.toNat := Nat.lt_of_lt_of_le (by decide) hr.2.1
  have hvalues : gridValues (zeroGrid s.params.D) = xorBlock 0 [] (List.replicate 25 0) := by
    rw [gridValues_zeroGrid, xorBlock_zero _ List.length_replicate]
  have hnil : absorbFull (startSponge sp s).rate.toNat [] = (List.replicate 25 0, []) := rfl
  simp only [absorbed, hnil]
  exact ⟨rfl, hr, rfl, hpos, rfl, hvalues⟩

/-- SINIT in a run: nothing is received yet. -/
theorem runAll_sinit {s : State} (hi : Idle s) {v : BitVec 6} {a : Word} {sp : SpongeParams}
    (hsp : spongeVariant v a = some sp) (l : List (Word × Instr)) :
    ∃ t, ranOn 0 s.answers s t ∧ absorbed t [] ∧ t.lanes = zeroGrid s.params.D ∧ t.rate = sp.rate ∧ t.ds = sp.ds ∧
      t.outLen = sp.outLen ∧ runAll ((a, .sinit v) :: l) s = runAll l t := by
  obtain ⟨hexec, hran⟩ := exec_sinit (s := { s with arg := a }) hsp
  exact ⟨_, ranOn_of_exec hi hexec hran, absorbed_startSponge (rateOk_spongeVariant hsp) _, rfl, rfl, rfl, rfl,
    runAll_silent (fun _ => Instr.noConfusion) hexec hran hi.running⟩

/-! ### Absorbing -/

theorem check_sabsorb {s : State} {n : BitVec 6} (hs : s.sph = .absorbing) (hn : 1 ≤ n.toNat ∧ n.toNat ≤ 8) :
    check (.sabsorb n) s = none := by
  simp [check, isRaw, phaseAllows, configInvalid, operandsOk, Instr.wellFormed, countOk, hs, hn]

theorem check_sfinal {s : State} (hs : s.sph = .absorbing) : check .sfinal s = none := by
  simp [check, isRaw, phaseAllows, configInvalid, operandsOk, Instr.wellFormed, hs]

/-- SABSORB in a run: its bytes are received. -/
theorem runAll_sabsorb {s : State} {msg : List Byte} (hi : Idle s) (hab : absorbed s msg) {n : BitVec 6}
    (hn : 1 ≤ n.toNat ∧ n.toNat ≤ 8) {ws : List Word} {rest : List Answer} (hs : supplied s ws rest)
    (hl : ws.length = drawsOf (.sabsorb n) s) (a : Word) (l : List (Word × Instr)) :
    ∃ t, ranOn ws.length rest s t ∧ paramsSame s t ∧ absorbed t (msg ++ bytesOf a n.toNat) ∧
      runAll ((a, .sabsorb n) :: l) s = runAll l t := by
  have ha : accepts (.sabsorb n) { s with arg := a } := accepts_of_check hi.running hi.halt (check_sabsorb hab.1 hn)
  obtain ⟨t, hexec, hran, hparams, -, -, -, -, -, habs, -, -⟩ :=
    sabsorbAbsorbsTheBytes n { s with arg := a } msg ws rest (idle_arg hi a).inv ha hab hs hl
  exact ⟨t, hl ▸ ranOn_of_exec hi hexec hran, ⟨hparams.rate, hparams.ds, hparams.outLen⟩, habs,
    runAll_silent (fun _ => Instr.noConfusion) hexec hran hi.running⟩

/-- R259: what one SABSORB draws, out of the words of the whole input. -/
theorem absorbCost_add_drawsOf {s : State} {msg : List Byte} (h : absorbed s msg) {n : BitVec 6} (hn : n.toNat ≤ 8) :
    absorbCost s.params.D s.rate.toNat msg.length + drawsOf (.sabsorb n) s =
      absorbCost s.params.D s.rate.toNat (msg.length + n.toNat) := by
  obtain ⟨hr8, hr1, -⟩ := h.2.1
  rw [← cost_step hr8 hr1 hn, ← apos_of_absorbed h]
  rfl

theorem absorbCost_mono (D : Nat) {r : Nat} (h8 : r % 8 = 0) (hr : 8 ≤ r) : Monotone (absorbCost D r) :=
  monotone_nat_of_le_succ fun m => (Nat.le_add_right _ _).trans_eq (cost_step (m := m) (n := 1) h8 hr (by decide))

/-- SABSORB commands absorb their bytes, and draw the words of them. -/
theorem runAll_absorbs (l : List (Word × Instr)) (rest : List Answer) : ∀ (chunks : List (Word × BitVec 6)) (s : State)
    (msg : List Byte) (ws : List Word), Idle s → absorbed s msg → (∀ c ∈ chunks, 1 ≤ c.2.toNat ∧ c.2.toNat ≤ 8) →
    supplied s ws rest →
    absorbCost s.params.D s.rate.toNat msg.length + ws.length =
      absorbCost s.params.D s.rate.toNat (msg.length + (chunkBytes chunks).length) →
    ∃ t, ranOn ws.length rest s t ∧ paramsSame s t ∧ absorbed t (msg ++ chunkBytes chunks) ∧
      runAll (absorbCommands chunks ++ l) s = runAll l t
  | [], s, msg, ws, hi, hab, _, hs, hl => by
    obtain rfl : ws = [] := List.eq_nil_of_length_eq_zero (by simpa [chunkBytes] using hl)
    obtain rfl : s.answers = rest := hs
    exact ⟨s, ranOn_refl hi, ⟨rfl, rfl, rfl⟩, by simpa [chunkBytes] using hab, rfl⟩
  | (a, n) :: chunks, s, msg, ws, hi, hab, hn, hs, hl => by
    have hn8 : 1 ≤ n.toNat ∧ n.toNat ≤ 8 := hn (a, n) List.mem_cons_self
    have hbytes : chunkBytes ((a, n) :: chunks) = bytesOf a n.toNat ++ chunkBytes chunks := rfl
    have hfirst := absorbCost_add_drawsOf hab hn8.2
    have hmono := absorbCost_mono s.params.D hab.2.1.1 hab.2.1.2.1
      (Nat.le_add_right (msg.length + n.toNat) (chunkBytes chunks).length)
    rw [hbytes, List.length_append, length_bytesOf, ← Nat.add_assoc] at hl
    obtain ⟨hwords, htake, hdrop⟩ := words_split (n := drawsOf (.sabsorb n) s)
      (m := ws.length - drawsOf (.sabsorb n) s) hs (by omega)
    obtain ⟨u, honu, hparamsu, habu, hrunu⟩ := runAll_sabsorb hi hab hn8 hwords htake a (absorbCommands chunks ++ l)
    obtain ⟨t, hont, hparamst, habt, hrunt⟩ := runAll_absorbs l rest chunks u _ _ honu.idle habu
      (fun c hc => hn c (List.mem_cons_of_mem _ hc)) honu.answers (by
        rw [honu.params, hparamsu.rate, List.length_append, length_bytesOf, hdrop]
        omega)
    exact ⟨t, ranOn_split honu hont,
      ⟨hparamst.rate.trans hparamsu.rate, hparamst.ds.trans hparamsu.ds, hparamst.outLen.trans hparamsu.outLen⟩,
      by rwa [hbytes, ← List.append_assoc], hrunu.trans hrunt⟩

/-! ### Squeezing -/

/-- The output has begun: SPOS is where DELIVERED bytes put it, and the phase says whether more are to come. -/
structure squeezed (s : State) : Prop where
  rate : rateOk s.rate
  phase : s.sph = if s.delivered = s.outLen then .done else .squeezing
  spos : s.spos.toNat = sposAt s.rate.toNat s.delivered.toNat

/-- SFINAL in a run: the output begins, with the reference squeeze after the reference absorb still to come. -/
theorem runAll_sfinal {s : State} {msg : List Byte} (hi : Idle s) (hab : absorbed s msg) {ws : List Word}
    {rest : List Answer} (hs : supplied s ws rest) (hl : ws.length = drawsOf .sfinal s) (a : Word)
    (l : List (Word × Instr)) :
    ∃ t, ranOn ws.length rest s t ∧ paramsSame s t ∧ squeezed t ∧ t.delivered.toNat = 0 ∧
      remaining t = squeezeRef s.rate.toNat s.outLen.toNat (absorbRef s.rate.toNat s.ds msg) ∧
      runAll ((a, .sfinal) :: l) s = runAll l t := by
  have ha : accepts .sfinal { s with arg := a } := accepts_of_check hi.running hi.halt (check_sfinal hab.1)
  obtain ⟨t, hexec, hran, ⟨hrate, hds, hout⟩, -, -, -, hvalues, -, -, -, hspos, hdelivered, hph⟩ :=
    sfinalPadsAndPermutes { s with arg := a } msg ws rest (idle_arg hi a).inv ha hab hs hl
  have hphase : t.sph = if t.delivered = t.outLen then .done else .squeezing := by
    rw [hph, hdelivered, hout]
    exact if_congr eq_comm rfl rfl
  have hremaining : remaining t = squeezeRef s.rate.toNat s.outLen.toNat (absorbRef s.rate.toNat s.ds msg) := by
    rw [remaining, hrate, hout, hdelivered, hvalues, hspos]
    rfl
  exact ⟨t, hl ▸ ranOn_of_exec hi hexec hran, ⟨hrate, hds, hout⟩,
    ⟨hrate ▸ hab.2.1, hphase, by rw [hspos, hdelivered]; rfl⟩, by rw [hdelivered]; rfl, hremaining,
    runAll_silent (fun _ => Instr.noConfusion) hexec hran hi.running⟩

theorem check_ssqueeze {s : State} {n : BitVec 6} (hs : s.sph = .squeezing) (hn : 1 ≤ n.toNat ∧ n.toNat ≤ 8)
    (hle : n.toNat ≤ s.outLen.toNat - s.delivered.toNat) : check (.ssqueeze n) s = none := by
  simp [check, isRaw, phaseAllows, configInvalid, operandsOk, countOk, hs, hn, hle]

/-- SSQUEEZE moves SPOS on to where the bytes delivered put it. -/
theorem spos_of_ssqueeze {s t : State} {n : BitVec 6} {d : Nat} (he : exec (.ssqueeze n) s = .next t) (ht : completed t)
    (hr : rateOk s.rate) (hd : s.spos.toNat = sposAt s.rate.toNat d) : t.spos.toNat = sposAt s.rate.toNat (d + n.toNat) := by
  obtain ⟨-, u, p, hb, rfl⟩ := exec_completed he ht
  have hloop := always_spos hr.2.1 hr.2.2 (List.range n.toNat) d (accept s, 0) rfl hd
  rw [List.length_range] at hloop
  have hbody : Always (fun u => u.spos.toNat = sposAt s.rate.toNat (d + n.toNat)) (bodyOf (.ssqueeze n) (accept s)) :=
    always_bind hloop fun tr htr => always_pure htr
  have hu := hbody _ _ _ hb
  exact hu

/-- SSQUEEZE in a run: it returns the next of the bytes to come. -/
theorem runAll_ssqueeze {s : State} (hi : Idle s) (hsq : squeezed s) {n : BitVec 6} (hn : 1 ≤ n.toNat ∧ n.toNat ≤ 8)
    (hle : s.delivered.toNat + n.toNat ≤ s.outLen.toNat) {ws : List Word} {rest : List Answer} (hs : supplied s ws rest)
    (hl : ws.length = drawsOf (.ssqueeze n) s) (a : Word) (l : List (Word × Instr)) :
    ∃ t bs, ranOn ws.length rest s t ∧ paramsSame s t ∧ squeezed t ∧ t.delivered.toNat = s.delivered.toNat + n.toNat ∧
      remaining s = bs ++ remaining t ∧
      ∀ u out, runAll l t = some (u, out) → runAll ((a, .ssqueeze n) :: l) s = some (u, bs ++ out) := by
  have hph : s.sph = .squeezing := hsq.phase.trans (if_neg fun e => by rw [e] at hle; omega)
  have hc : check (.ssqueeze n) { s with arg := a } = none := check_ssqueeze hph hn (Nat.le_sub_of_add_le' hle)
  obtain ⟨t, hexec, hran, ⟨hrate, hds, hout⟩, -, -, -, -, hbytes, -, hremaining, hdelivered, -, -, hpht⟩ :=
    ssqueezeDeliversTheNextBytes n { s with arg := a } ws rest (idle_arg hi a).inv
      (accepts_of_check hi.running hi.halt hc) hs hl
  have hon := ranOn_of_exec hi hexec hran
  have hspos := spos_of_ssqueeze hexec ⟨hran.err, hon.idle.running⟩ hsq.rate hsq.spos
  refine ⟨t, bytesOf t.result n.toNat, hl ▸ hon, ⟨hrate, hds, hout⟩,
    ⟨hrate ▸ hsq.rate, hpht, by rw [hrate, hdelivered]; exact hspos⟩, hdelivered, ?_, fun u out hrun => ?_⟩
  · rw [hbytes, hremaining]
    exact (List.take_append_drop _ _).symm
  · rw [runAll_step hexec hran hi.running, hrun]
    rfl

/-- R259: what one SSQUEEZE draws, out of the words of the whole output. -/
theorem squeezeCost_add_drawsOf {s : State} (h : squeezed s) {n : BitVec 6} (hn : 1 ≤ n.toNat ∧ n.toNat ≤ 8) :
    squeezeCost s.params.D s.rate.toNat s.delivered.toNat + drawsOf (.ssqueeze n) s =
      squeezeCost s.params.D s.rate.toNat (s.delivered.toNat + n.toNat) := by
  rw [← squeezeCost_step h.rate.2.1 hn.1 hn.2, ← h.spos]
  rfl

theorem squeezeCost_mono (D r : Nat) : Monotone (squeezeCost D r) := fun _ _ h =>
  Nat.mul_le_mul_left _ (Nat.sub_le_sub_right (Nat.div_le_div_right (by omega)) 1)

/-- SSQUEEZE commands that make up the rest of the output return it, and draw the words of it. -/
theorem runAll_squeezes (rest : List Answer) : ∀ (counts : List (Word × BitVec 6)) (s : State) (ws : List Word), Idle s →
    squeezed s → (∀ c ∈ counts, 1 ≤ c.2.toNat ∧ c.2.toNat ≤ 8) →
    s.delivered.toNat + (counts.map fun c => c.2.toNat).sum = s.outLen.toNat → supplied s ws rest →
    squeezeCost s.params.D s.rate.toNat s.delivered.toNat + ws.length = squeezeCost s.params.D s.rate.toNat s.outLen.toNat →
    ∃ t, ranOn ws.length rest s t ∧ t.sph = .done ∧ runAll (squeezeCommands counts) s = some (t, remaining s)
  | [], s, ws, hi, hsq, _, hsum, hs, hl => by
    have hall : s.delivered.toNat = s.outLen.toNat := hsum
    rw [hall] at hl
    obtain rfl : ws = [] := List.eq_nil_of_length_eq_zero (Nat.left_eq_add.mp hl.symm)
    obtain rfl : s.answers = rest := hs
    refine ⟨s, ranOn_refl hi, hsq.phase.trans (if_pos (BitVec.eq_of_toNat_eq hall)), ?_⟩
    rw [remaining, hall, Nat.sub_self]
    rfl
  | (a, n) :: counts, s, ws, hi, hsq, hn, hsum, hs, hl => by
    have hn8 : 1 ≤ n.toNat ∧ n.toNat ≤ 8 := hn (a, n) List.mem_cons_self
    rw [List.map_cons, List.sum_cons, ← Nat.add_assoc] at hsum
    have hle : s.delivered.toNat + n.toNat ≤ s.outLen.toNat := hsum ▸ Nat.le_add_right _ _
    have hfirst := squeezeCost_add_drawsOf hsq hn8
    have hmono := squeezeCost_mono s.params.D s.rate.toNat hle
    obtain ⟨hwords, htake, hdrop⟩ := words_split (n := drawsOf (.ssqueeze n) s)
      (m := ws.length - drawsOf (.ssqueeze n) s) hs (by omega)
    obtain ⟨u, bs, honu, hparams, hsqu, hdelivered, hremaining, hrunu⟩ :=
      runAll_ssqueeze hi hsq hn8 hle hwords htake a (squeezeCommands counts)
    obtain ⟨t, hont, hdone, hrunt⟩ := runAll_squeezes rest counts u _ honu.idle hsqu
      (fun c hc => hn c (List.mem_cons_of_mem _ hc)) (by rw [hdelivered, hparams.outLen]; exact hsum) honu.answers (by
        rw [honu.params, hparams.rate, hdelivered, hparams.outLen, hdrop]
        omega)
    exact ⟨t, ranOn_split honu hont, hdone, by rw [hremaining]; exact hrunu _ _ hrunt⟩

/-! ### The whole run -/

theorem absorbCost_zero (D r : Nat) : absorbCost D r 0 = 0 := by simp [absorbCost]

theorem squeezeCost_zero (D : Nat) {r : Nat} (hr : 8 ≤ r) : squeezeCost D r 0 = 0 := by
  rw [squeezeCost, Nat.div_eq_of_lt (by omega : 0 + r - 1 < r), Nat.mul_zero]

/-- R259: what SFINAL draws, by the length of the input. -/
theorem drawsOf_sfinal {s : State} {msg : List Byte} (h : absorbed s msg) : drawsOf .sfinal s =
    s.params.D * (s.rate.toNat / 8 - msg.length % s.rate.toNat / 8) + permuteDraws s.params.D := by
  rw [← apos_of_absorbed h]
  rfl

/-- R259: the words of the input, of the last block and of the output, in all. -/
theorem runCost_eq {r : Nat} (hr : 8 ≤ r) (D m outLen : Nat) :
    absorbCost D r m + (D * (r / 8 - m % r / 8) + permuteDraws D + squeezeCost D r outLen) =
      D * (r / 8) * (m / r + 1) + 300 * D * (D + 1) * (m / r + 1 + ((outLen + r - 1) / r - 1)) := by
  have hlast : m % r / 8 + (r / 8 - m % r / 8) = r / 8 :=
    Nat.add_sub_cancel' (Nat.div_le_div_right (Nat.mod_lt m (by omega)).le)
  unfold absorbCost squeezeCost permuteDraws
  calc _ = D * (m / r * (r / 8) + (m % r / 8 + (r / 8 - m % r / 8))) +
        300 * D * (D + 1) * (m / r + 1 + ((outLen + r - 1) / r - 1)) := by ring
    _ = _ := by rw [hlast]; ring

/-- SFINAL and the SSQUEEZE commands after it return the reference squeeze after the reference absorb. -/
theorem runAll_finish {s : State} {msg : List Byte} (hi : Idle s) (hab : absorbed s msg) (fin : Word)
    {counts : List (Word × BitVec 6)} (hn : ∀ c ∈ counts, 1 ≤ c.2.toNat ∧ c.2.toNat ≤ 8)
    (hsum : (counts.map fun c => c.2.toNat).sum = s.outLen.toNat) {ws : List Word} {rest : List Answer}
    (hs : supplied s ws rest)
    (hl : ws.length = drawsOf .sfinal s + squeezeCost s.params.D s.rate.toNat s.outLen.toNat) :
    ∃ t, ranOn ws.length rest s t ∧ t.sph = .done ∧ runAll ((fin, .sfinal) :: squeezeCommands counts) s =
      some (t, squeezeRef s.rate.toNat s.outLen.toNat (absorbRef s.rate.toNat s.ds msg)) := by
  obtain ⟨hwords, htake, hdrop⟩ := words_split hs hl
  obtain ⟨u, honu, hparams, hsqu, hdelivered, hremaining, hrunu⟩ :=
    runAll_sfinal hi hab hwords htake fin (squeezeCommands counts)
  obtain ⟨t, hont, hdone, hrunt⟩ := runAll_squeezes rest counts u _ honu.idle hsqu hn
    (by rw [hdelivered, hparams.outLen, Nat.zero_add, hsum]) honu.answers
    (by rw [honu.params, hparams.rate, hparams.outLen, hdelivered, squeezeCost_zero _ hab.2.1.2.1, hdrop, Nat.zero_add])
  exact ⟨t, ranOn_split honu hont, hdone, by rw [hrunu, hrunt, hremaining]⟩

/-- SABSORB commands, SFINAL and SSQUEEZE commands after SINIT. -/
theorem runAll_started {s : State} (hi : Idle s) (hab : absorbed s []) {chunks : List (Word × BitVec 6)}
    (hchunks : ∀ c ∈ chunks, 1 ≤ c.2.toNat ∧ c.2.toNat ≤ 8) (fin : Word) {counts : List (Word × BitVec 6)}
    (hcounts : ∀ c ∈ counts, 1 ≤ c.2.toNat ∧ c.2.toNat ≤ 8)
    (hsum : (counts.map fun c => c.2.toNat).sum = s.outLen.toNat) {ws : List Word} {rest : List Answer}
    (hs : supplied s ws rest) (hl : ws.length = absorbCost s.params.D s.rate.toNat (chunkBytes chunks).length +
      (s.params.D * (s.rate.toNat / 8 - (chunkBytes chunks).length % s.rate.toNat / 8) + permuteDraws s.params.D +
        squeezeCost s.params.D s.rate.toNat s.outLen.toNat)) :
    ∃ t, ranOn ws.length rest s t ∧ t.sph = .done ∧
      runAll (absorbCommands chunks ++ (fin, .sfinal) :: squeezeCommands counts) s =
        some (t, squeezeRef s.rate.toNat s.outLen.toNat (absorbRef s.rate.toNat s.ds (chunkBytes chunks))) := by
  obtain ⟨hwords, htake, hdrop⟩ := words_split hs hl
  obtain ⟨u, honu, hparams, habu, hrunu⟩ := runAll_absorbs ((fin, .sfinal) :: squeezeCommands counts) _ chunks s [] _ hi hab
    hchunks hwords (by rw [htake, List.length_nil, absorbCost_zero, Nat.zero_add, Nat.zero_add])
  rw [List.nil_append] at habu
  obtain ⟨t, hont, hdone, hrunt⟩ := runAll_finish honu.idle habu fin hcounts (hparams.outLen ▸ hsum) honu.answers
    (by rw [drawsOf_sfinal habu, honu.params, hparams.rate, hparams.outLen, hdrop])
  rw [hparams.rate, hparams.ds, hparams.outLen] at hrunt
  exact ⟨t, ranOn_split honu hont, hdone, hrunu.trans hrunt⟩

/-- Settles O54: SINIT starts with nothing received; SABSORB and SFINAL make the reference absorb of the input, and SSQUEEZE
returns the reference squeeze after it. -/
theorem spongeRunEqualsReference : Obligations.SpongeRunEqualsReference := by
  intro s v a fin sp chunks counts ws rest hinv hh hr hsp hchunks hcounts hsum m r draws hs hl
  have hcost := runCost_eq (rateOk_spongeVariant hsp).2.1 s.params.D m sp.outLen.toNat
  obtain ⟨u, honu, habu, -, hrate, hds, hout, hrunu⟩ := runAll_sinit ⟨hinv, hh, hr⟩ hsp
    (absorbCommands chunks ++ (fin, .sfinal) :: squeezeCommands counts)
  obtain ⟨t, hont, hdone, hrunt⟩ := runAll_started honu.idle habu hchunks fin hcounts (hout ▸ hsum)
    (honu.answers.trans hs) (by rw [honu.params, hrate, hout]; exact hl.trans hcost.symm)
  rw [hrate, hds, hout] at hrunt
  refine ⟨t, _, ?_, rfl, hdone, ?_, hont.answers⟩
  · rw [List.singleton_append, List.append_assoc, List.singleton_append]
    exact hrunu.trans hrunt
  · rw [(ranOn_trans honu hont).count, Nat.zero_add, hl]

end Sys2Proof.Machine
end

section
/-! A whole sponge run on shares: each command moves the masked reference of R253 and R255 on by the same draws to the same
lanes (R257). -/

namespace Sys2Proof.Machine

/-! ### A run taken apart -/

/-- The bytes a command that left `t` returns in a run. -/
def returned : Instr → State → List Byte
  | .ssqueeze n, t => bytesOf t.result n.toNat
  | _, _ => []

/-- A run that succeeds is a command that completes, and a run from where it ends. -/
theorem runAll_cons {a : Word} {i : Instr} {l : List (Word × Instr)} {s t : State} {out : List Byte}
    (h : runAll ((a, i) :: l) s = some (t, out)) :
    ∃ u bs, exec i { s with arg := a } = .next u ∧ completed u ∧ runAll l u = some (t, bs) ∧ out = returned i u ++ bs := by
  obtain ⟨u, hu⟩ := exec_next i { s with arg := a }
  simp only [runAll, hu] at h
  split at h
  · rename_i hcompleted
    cases hrun : runAll l u with
    | none => simp [hrun] at h
    | some q =>
      rw [hrun] at h
      cases h
      exact ⟨u, q.2, hu, hcompleted, hrun, by cases i <;> rfl⟩
  · cases h

/-! ### Absorbing -/

/-- SABSORB moves the masked reference on by its bytes. -/
theorem sabsorb_tail {s t : State} {a : Word} {n : BitVec 6} {p : List Byte} (hro : rateOk s.rate) (hp : holds s p)
    (he : exec (.sabsorb n) { s with arg := a } = .next t) (ht : completed t) :
    ∃ p', holds t p' ∧ paramsSame s t ∧ t.params = s.params ∧ ∀ (ds : Byte) (m : List Byte),
      absorbTail s.params.D s.rate.toNat ds (p ++ (bytesOf a n.toNat ++ m)) (p.length / 8) s.lanes s.port =
        absorbTail s.params.D s.rate.toNat ds (p' ++ m) (p'.length / 8) t.lanes t.port := by
  obtain ⟨-, u, q, hbody, rfl⟩ := exec_completed he ht
  have hp0 : holds (accept { s with arg := a }) p := ⟨hp.apos, hp.lt, hp.lacc⟩
  obtain ⟨p', hp', hparams, hD, htail⟩ := absorbBytes_tail (s := accept { s with arg := a }) _ hro hp0 hbody
  exact ⟨p', ⟨hp'.apos, hp'.lt, hp'.lacc⟩, ⟨hparams.rate, hparams.ds, hparams.outLen⟩, hD, htail⟩

/-- SABSORB commands move the masked reference on by all their bytes. -/
theorem absorbCommands_tail {l : List (Word × Instr)} {t : State} {out : List Byte} :
    ∀ (chunks : List (Word × BitVec 6)) {s : State} {p : List Byte}, rateOk s.rate → holds s p →
    runAll (absorbCommands chunks ++ l) s = some (t, out) →
    ∃ u p', runAll l u = some (t, out) ∧ holds u p' ∧ paramsSame s u ∧ u.params = s.params ∧
      ∀ (ds : Byte) (m : List Byte),
        absorbTail s.params.D s.rate.toNat ds (p ++ (chunkBytes chunks ++ m)) (p.length / 8) s.lanes s.port =
          absorbTail s.params.D s.rate.toNat ds (p' ++ m) (p'.length / 8) u.lanes u.port
  | [], s, p, _, hp, h => ⟨s, p, h, hp, ⟨rfl, rfl, rfl⟩, rfl, fun _ _ => rfl⟩
  | (a, n) :: chunks, s, p, hro, hp, h => by
    obtain ⟨u, bs, he, hu, hrun, rfl⟩ := runAll_cons h
    obtain ⟨p1, hp1, hparams1, hD1, htail1⟩ := sabsorb_tail hro hp he hu
    obtain ⟨v, p2, hrun2, hp2, hparams2, hD2, htail2⟩ := absorbCommands_tail chunks (hparams1.rate ▸ hro) hp1 hrun
    rw [hD1, hparams1.rate] at htail2
    refine ⟨v, p2, hrun2, hp2,
      ⟨hparams2.rate.trans hparams1.rate, hparams2.ds.trans hparams1.ds, hparams2.outLen.trans hparams1.outLen⟩,
      hD2.trans hD1, fun ds m => ?_⟩
    rw [show chunkBytes ((a, n) :: chunks) = bytesOf a n.toNat ++ chunkBytes chunks from rfl, List.append_assoc, htail1, htail2]

/-- SFINAL ends the masked absorb. -/
theorem sfinal_tail {s t : State} {a : Word} {p : List Byte} (hro : rateOk s.rate) (hp : holds s p)
    (he : exec .sfinal { s with arg := a } = .next t) (ht : completed t) :
    absorbTail s.params.D s.rate.toNat s.ds p (p.length / 8) s.lanes s.port = .done t.lanes t.port ∧ t.rate = s.rate ∧
      t.params = s.params ∧ t.spos = 0 := by
  obtain ⟨-, u, q, hbody, rfl⟩ := exec_completed he ht
  have hp0 : holds (accept { s with arg := a }) p := ⟨hp.apos, hp.lt, hp.lacc⟩
  have htail := bodySfinal_tail (s := accept { s with arg := a }) hro hp0 hbody
  exact htail

/-! ### Squeezing -/

/-- SSQUEEZE moves the masked reference on, and returns its next bytes. -/
theorem ssqueeze_tail {s t : State} {a : Word} {n : BitVec 6} (hro : rateOk s.rate) (hsp : s.spos.toNat ≤ s.rate.toNat)
    (he : exec (.ssqueeze n) { s with arg := a } = .next t) (ht : completed t) :
    t.rate = s.rate ∧ t.params = s.params ∧ t.spos.toNat ≤ t.rate.toNat ∧
      ∀ m, maskedSqueezeFrom s.params.D s.rate.toNat (n.toNat + m) s.lanes s.spos.toNat s.port =
        withBytes (bytesOf t.result n.toNat) (maskedSqueezeFrom s.params.D s.rate.toNat m t.lanes t.spos.toNat) t.port := by
  obtain ⟨hc, u, q, hbody, rfl⟩ := exec_completed he ht
  obtain ⟨-, -, hn, -⟩ := squeezing_of_check hc
  obtain ⟨⟨v, r⟩, q', hloop, hu⟩ := bind_done hbody
  rw [List.range_eq_range'] at hloop
  obtain ⟨bs, hlen, rfl, hrate, hD, hspos, htail⟩ :=
    squeezeBytes_tail n.toNat 0 (s := accept { s with arg := a }) (out := []) hro hsp rfl hloop
  cases hu
  have hbytes : bytesOf (leWord bs) n.toNat = bs := bytesOf_leWord bs n.toNat hlen hn
  refine ⟨hrate, hD, hspos, fun m => ?_⟩
  show _ = withBytes (bytesOf (leWord bs) n.toNat) _ _
  rw [hbytes]
  exact htail m

/-- SSQUEEZE commands return the bytes of the masked reference, and end where it ends. -/
theorem squeezeCommands_tail {t : State} : ∀ (counts : List (Word × BitVec 6)) {s : State} {out : List Byte}, rateOk s.rate →
    s.spos.toNat ≤ s.rate.toNat → runAll (squeezeCommands counts) s = some (t, out) →
    maskedSqueezeFrom s.params.D s.rate.toNat (counts.map fun c => c.2.toNat).sum s.lanes s.spos.toNat s.port =
      .done (t.lanes, out) t.port
  | [], s, out, _, _, h => by
    cases h
    rfl
  | (a, n) :: counts, s, out, hro, hsp, h => by
    obtain ⟨u, bs, he, hu, hrun, rfl⟩ := runAll_cons h
    obtain ⟨hrate, hD, hspos, htail⟩ := ssqueeze_tail hro hsp he hu
    have hrest := squeezeCommands_tail counts (hrate ▸ hro) hspos hrun
    rw [hrate, hD] at hrest
    rw [List.map_cons, List.sum_cons, htail]
    simp only [withBytes, Draw.map, Draw.bind, hrest]
    rfl

/-! ### The whole run -/

/-- After SINIT, a run that succeeds is the masked reference run from the zero grid. -/
theorem maskedSponge_of_runAll {s t : State} {chunks counts : List (Word × BitVec 6)} {fin : Word} {out : List Byte}
    (hro : rateOk s.rate) (hp : holds s []) (hg : s.lanes = zeroGrid s.params.D)
    (h : runAll (absorbCommands chunks ++ (fin, .sfinal) :: squeezeCommands counts) s = some (t, out)) :
    maskedSponge s.params.D s.rate.toNat s.ds (counts.map fun c => c.2.toNat).sum (chunkBytes chunks) s.port =
      .done (t.lanes, out) t.port := by
  obtain ⟨u, p, hrunu, hpu, hparams, hDu, htail⟩ := absorbCommands_tail chunks hro hp h
  have hrou : rateOk u.rate := hparams.rate ▸ hro
  obtain ⟨v, bs, hev, hv, hrunv, rfl⟩ := runAll_cons hrunu
  obtain ⟨hlast, hratev, hDv, hsposv⟩ := sfinal_tail hrou hpu hev hv
  have habsorb : maskedAbsorbFrom s.params.D s.rate.toNat s.ds (chunkBytes chunks).length (chunkBytes chunks)
      (zeroGrid s.params.D) s.port = .done v.lanes v.port := by
    have hall := htail s.ds []
    rw [List.append_nil, List.append_nil, List.nil_append, hg] at hall
    rw [maskedAbsorb_fuel _ _ _ (Nat.lt_of_lt_of_le (by decide) hro.2.1) _ _ (Nat.le_refl _)]
    rw [hDu, hparams.rate, hparams.ds] at hlast
    exact hall.trans hlast
  have hsqueeze := squeezeCommands_tail counts (hratev ▸ hrou) (by rw [hsposv]; exact Nat.zero_le _) hrunv
  rw [hratev, hparams.rate, hDv, hDu, hsposv] at hsqueeze
  rw [maskedSponge, Draw.bind, habsorb]
  exact hsqueeze

/-- Settles O59: the run succeeds, and SINIT leaves the zero grid, from which the masked reference goes along with it. -/
theorem spongeRunSharesEqualReference : Obligations.SpongeRunSharesEqualReference := by
  intro s v a fin sp chunks counts ws rest hinv hh hr hsp hchunks hcounts hsum m r draws hs hl
  obtain ⟨t, out, hrun, -⟩ :=
    spongeRunEqualsReference s v a fin sp chunks counts ws rest hinv hh hr hsp hchunks hcounts hsum hs hl
  refine ⟨t, out, hrun, ?_⟩
  obtain ⟨u, honu, habu, hgrid, hrate, hds, -, hrunu⟩ := runAll_sinit ⟨hinv, hh, hr⟩ hsp
    (absorbCommands chunks ++ (fin, .sfinal) :: squeezeCommands counts)
  rw [List.singleton_append, List.append_assoc, List.singleton_append] at hrun
  have hmasked := maskedSponge_of_runAll habu.2.1 (holds_of_absorbed habu) (honu.params ▸ hgrid) (hrunu.symm.trans hrun)
  have hport : u.port = ⟨s.answers, s.rngCount⟩ := by
    rw [State.port, honu.answers, honu.count, BitVec.add_zero]
  rw [honu.params, hrate, hds, hsum, hport] at hmasked
  exact hmasked

end Sys2Proof.Machine
end

section
/-! What a CMD write that is taken answers: ERR_ILLEGAL off the table, a rejection by the first check that fails, or the
command accepted; and a Failure among the words it draws (R300 to R310, R360). -/

namespace Sys2Proof.Machine

/-! ### A CMD write that is taken (R300) -/

theorem step_cmd_taken {s : State} {w : Word} {rest : List Input} (hi : s.inputs = .write 0x00 8 w :: rest)
    (hh : s.halt = false) (hr : s.running = none) : step s = submit w { s with inputs := rest } :=
  step_write s rest 0x00 w hi hh hr (by decide) (by decide)

/-- Settles O5: a taken CMD write is submitted, and its value decodes. -/
theorem stepRunsDecodedCommand : Obligations.StepRunsDecodedCommand := by
  intro s w i rest hi hh hr hd
  rw [step_cmd_taken hi hh hr, submit_ok hd]

/-! ### The checks, one by one (R307) -/

section
variable {i : Instr} {s : State}

theorem check_disabled (hraw : opcodeOf i < 0x20) (hoff : s.rawEn = false) : check i s = some .disabled := by
  have h : isRaw i = true := (isRaw_iff i).mpr hraw
  simp [check, h, hoff]

/-- The check of RAW_EN lets the command through (R303). -/
theorem gate_passes (hgate : opcodeOf i < 0x20 → s.rawEn = true) : (isRaw i && !s.rawEn) = false := by
  rw [← isRaw_iff] at hgate
  cases h : isRaw i with
  | false => rfl
  | true => rw [hgate h]; rfl

theorem check_sequence (hgate : opcodeOf i < 0x20 → s.rawEn = true) (hphase : ¬ phaseRow s.sph (opcodeOf i)) :
    check i s = some .sequence := by
  rw [← phaseAllows_iff] at hphase
  simp [check, gate_passes hgate, hphase]

theorem check_config (hgate : opcodeOf i < 0x20 → s.rawEn = true) (hphase : phaseRow s.sph (opcodeOf i))
    (hconfig : badConfig i s.arg) : check i s = some .config := by
  rw [← phaseAllows_iff] at hphase
  rw [← configInvalid_iff] at hconfig
  simp [check, gate_passes hgate, hphase, hconfig]

theorem check_operand (hgate : opcodeOf i < 0x20 → s.rawEn = true) (hphase : phaseRow s.sph (opcodeOf i))
    (hconfig : ¬ badConfig i s.arg) (hoperand : badOperand i s) : check i s = some .operand := by
  rw [← phaseAllows_iff] at hphase
  rw [← configInvalid_iff] at hconfig
  have hoperands : operandsOk i s = false := by
    rw [Bool.eq_false_iff, Ne, operandsOk_iff]
    exact not_not_intro hoperand
  simp [check, gate_passes hgate, hphase, hconfig, hoperands]

end

/-! ### ERR after a command (R301, R308 to R310) -/

/-- An accepted command leaves ERR 0, or 15 when it failed. -/
theorem err_of_accepted {i : Instr} {s t : State} (hc : check i s = none) (ht : exec i s = .next t) :
    t.err = .ok ∨ t.err = .rng := by
  obtain ⟨e, he, -⟩ | ⟨-, u, p, hm, -, hx⟩ | ⟨-, p, hx⟩ | ⟨-, p, hx⟩ := exec_cases i s
  · cases hc.symm.trans he
  all_goals cases hx.symm.trans ht
  · exact .inl (congrArg Meta.err hm)
  · exact .inr rfl
  · exact .inl rfl

/-- No command that decodes is ERR_ILLEGAL. -/
theorem err_ne_illegal_of_exec {i : Instr} {s t : State} (ht : exec i s = .next t) : t.err ≠ .illegal := by
  cases hc : check i s with
  | some e =>
    cases (exec_of_rejected hc).symm.trans ht
    exact (check_ne_rng hc).2.1
  | none =>
    obtain he | he := err_of_accepted hc ht <;> simp [he]

/-- Settles O21: each check that fails is the first, and a command that passes them all is accepted. -/
theorem checksInOrderAndRejectionIsPrecise : Obligations.ChecksInOrderAndRejectionIsPrecise := by
  refine ⟨fun w s => ⟨fun e he => submit_error he s, fun i hi => submit_ok hi s⟩, fun i s => ?_⟩
  refine ⟨?_, ?_, ?_, ?_, ?_⟩
  · exact fun hraw hoff => exec_of_rejected (check_disabled hraw hoff)
  · exact fun hgate hphase => exec_of_rejected (check_sequence hgate hphase)
  · exact fun hgate hphase hconfig => exec_of_rejected (check_config hgate hphase hconfig)
  · exact fun hgate hphase hconfig hoperand => exec_of_rejected (check_operand hgate hphase hconfig hoperand)
  · intro hgate hphase hconfig hoperand
    obtain ⟨t, ht⟩ := exec_next i s
    exact ⟨t, ht, err_of_accepted ((check_eq_none_iff i s).mpr ⟨hgate, hphase, hconfig, hoperand⟩) ht⟩

/-! ### ERR_ILLEGAL (R302) -/

theorem decodes_iff_followsTable {w : Word} : (∃ i, decode w = .ok i) ↔ followsTable w := by
  refine ⟨fun ⟨i, hi⟩ => ?_, decodes_of_followsTable⟩
  rw [← decodedValueIsItsEncoding w i hi]
  exact followsTable_encode i

theorem decode_error_of_not_followsTable {w : Word} (h : ¬ followsTable w) : ∃ e, decode w = .error e := by
  cases hd : decode w with
  | error e => exact ⟨e, rfl⟩
  | ok i => exact absurd (decodes_iff_followsTable.mp ⟨i, hd⟩) h

/-- Settles O4: the values that decode are those that follow the table, and no command that decodes is ERR_ILLEGAL. -/
theorem illegalExactlyOffTheTable : Obligations.IllegalExactlyOffTheTable := by
  intro s w rest hi hh hr
  rw [step_cmd_taken hi hh hr]
  refine ⟨fun hoff => ?_, fun hon => ?_⟩
  · obtain ⟨e, he⟩ := decode_error_of_not_followsTable hoff
    exact submit_error he _
  · obtain ⟨i, hd⟩ := decodes_of_followsTable hon
    obtain ⟨t, ht⟩ := exec_next i { s with inputs := rest }
    exact ⟨i, t, hd, (submit_ok hd _).trans ht, err_ne_illegal_of_exec ht⟩

/-! ### A Failure among the words a command draws (R310) -/

/-- What the failure of a command leaves (R310, R353). -/
theorem scrubbed_rngFailure (s : State) (c : Word) (as : List Answer) :
    scrubbed s (freshTemps (rngFailure { accept s with rngCount := c, answers := as })) :=
  have h := scrubbed_scrub s
  ⟨h.lanes, h.rm, h.sponge, h.positions, h.result, h.sph, h.params⟩

theorem andDraws_zero : andDraws 0 = 0 := rfl

theorem permuteDraws_zero : permuteDraws 0 = 0 := rfl

/-- At masking order 0 a lane is one share, and no command draws (R150, R154, R368). -/
theorem drawsOf_order_zero {s : State} (hD : s.params.D = 0) (i : Instr) : drawsOf i s = 0 := by
  cases i <;> simp [drawsOf, hD, andDraws_zero, permuteDraws_zero]

/-- Settles O23: the Failure comes before the last word the command draws, and ends it as `exec_failed` says. -/
theorem failureScrubsAndHalts : Obligations.FailureScrubsAndHalts := by
  refine ⟨fun i s ws rest h ha hs hl => ?_, fun i s hD => drawsOf_order_zero hD i⟩
  have hc := check_of_accepts ha
  have hfail := exec_failed hc (draws_body_all (bodyOk_of_inv h) hc) hs hl
  exact ⟨_, hfail, scrubbed_rngFailure s _ _, rfl, rfl, rfl, rfl, rfl, rfl, rfl⟩

end Sys2Proof.Machine
end

section
/-! The writes that the block ignores, while BUSY and while HALT = 1; what still reads then, and how HALT is left (R311,
R312, R315). -/

namespace Sys2Proof.Machine

/-! ### IGN (R315) -/

/-- A CMD write that is taken clears IGN, rejected or not (R308, R309). -/
theorem ign_of_submit {v : Word} {s t : State} (ht : submit v s = .next t) : t.ign = false := by
  cases hd : decode v with
  | ok i =>
    rw [submit_ok hd] at ht
    exact (exec_keeps ht).ign
  | error e =>
    rw [submit_error hd] at ht
    cases ht
    rfl

/-- Settles O14: a BUSY write goes as `step_write_busy` says; the frame of every step says what else leaves IGN set. -/
theorem busyWritesAreIgnoredAndSetIgn : Obligations.BusyWritesAreIgnoredAndSetIgn := by
  refine ⟨fun s off v rest hi hh hr => ?_, fun s t hst hset hclear => ?_, fun s t htaken hst => ?_⟩
  · rw [step_write_busy s rest off v hi hh hr]
    exact ⟨fun ho => by rw [if_pos ho], fun h0 h8 h20 => by rw [if_neg (by simp [h0, h8, h20])]⟩
  · by_contra hno
    obtain ⟨hcmd, hreset⟩ := not_or.mp hno
    obtain ⟨-, -, -, hkeep⟩ := (step_frame hst).2 hreset
    simp [hkeep hset hcmd] at hclear
  · obtain ⟨w, hw⟩ | hreset := htaken
    · obtain ⟨rest, hi⟩ := takes_cons hw
      obtain ⟨-, hh, hr⟩ := hw
      exact ign_of_submit ((step_cmd_taken hi hh hr).symm.trans hst)
    · obtain ⟨rest, -, e⟩ := step_reset hreset
      cases e.symm.trans hst
      rfl

/-! ### HALT (R311, R312) -/

/-- Settles O27: the frame of every step keeps HALT, and the reset state is not halted. -/
theorem onlyResetLeavesHalt : Obligations.OnlyResetLeavesHalt := by
  refine ⟨fun s t hset hst hclear => ?_, fun s t hreset hst => ?_⟩
  · by_contra hreset
    obtain ⟨-, -, hkeep, -⟩ := (step_frame hst).2 hreset
    simp [hkeep hset] at hclear
  · obtain ⟨rest, -, e⟩ := step_reset hreset
    cases e.symm.trans hst
    rfl

theorem hostRead_answers (off width : Nat) (s : State) : (hostRead off width s).answers = s.answers := by
  obtain ⟨v, n, o, e, -⟩ := hostRead_keeps off width s
  rw [e]

/-- What the host reads of an idle block at an offset of the register map (R36). -/
theorem readData_of_idleRead {off : Nat} {s : State} (hr : s.running = none) (ho : off < 0x40) (h8 : off % 8 = 0) :
    (hostRead off 8 s).readData = registerWord off s := by
  rw [hostRead_performed ho h8, readRegister_idle hr]

/-- STATUS of a halted block: HALT = 1, ERR = 15, BUSY = 0 and SPH = EMPTY (R311). -/
theorem statusWord_halted {s : State} (h : s.Inv) (hh : s.halt = true) :
    (statusWord s s.sph).toNat = 0xF2 + 4 * s.ign.toNat := by
  obtain ⟨hr, hscrub⟩ := h.scrubbed hh
  have he : s.err = .rng := h.halted.mp hh
  have hp : s.sph = .empty := (congrArg State.sph hscrub).symm
  rw [statusWord_idle hr, hh, he, hp]
  show 2 * 1 + 4 * s.ign.toNat + 16 * 15 + 256 * 0 = _
  omega

/-- RESULT of a halted block (R310, R353). -/
theorem result_halted {s : State} (h : s.Inv) (hh : s.halt = true) : s.result = 0 :=
  (congrArg State.result (h.scrubbed hh).2).symm

/-- Settles O26: a halted block is idle and scrubbed, so it ignores writes, reads as an idle block, and keeps answers. -/
theorem haltIgnoresWritesAndStillReads : Obligations.HaltIgnoresWritesAndStillReads := by
  intro s rest h hh
  have h₀ : State.Inv { s with inputs := rest } := inv_inputs h rest
  have hr₀ : State.running { s with inputs := rest } = none := (h₀.scrubbed hh).1
  refine ⟨fun off width v hi => step_write_halt s rest off width v hi hh, fun off hi => ?_, fun a hi => ?_⟩
  · refine ⟨_, step_read hi, hostRead_answers off 8 _, ?_, ?_, ?_, ?_, ?_, ?_⟩ <;> rintro rfl <;>
      rw [readData_of_idleRead hr₀ (by decide) (by decide)]
    · exact statusWord_halted h₀ hh
    · exact result_halted h₀ hh
    · rfl
    · exact ctrlWord_toNat s
    · rfl
    · exact infoWord_toNat s.params
  · rw [step_cons hi]
    exact takeAnswer_idle hr₀

end Sys2Proof.Machine
end

section
/-! How an accepted command goes on by the words at hand: it completes with the draws of R368, it waits, and a command that
waits ends as the atomic one (R309, R360, R361, R368). -/

namespace Sys2Proof.Machine

/-- Settles O22: the body leaves the fields of `Meta` as acceptance set them, and draws the words of R368. -/
theorem acceptedCommandCompletes : Obligations.AcceptedCommandCompletes := by
  intro i s ws rest h ha hs hl
  obtain ⟨u, ⟨⟨-, hm⟩, -⟩, hexec⟩ := exec_completes (bodyOk_of_inv h) (check_of_accepts ha) hs hl
  exact ⟨_, hexec, congrArg Meta.err hm, congrArg Meta.ign hm, (congrArg Meta.halt hm).trans ha.notHalted,
    (congrArg Meta.running hm).trans ha.idle, rfl, rfl⟩

/-- Settles O24: `exec_waiting`, with the fields that acceptance sets. -/
theorem missingAnswerLeavesTheCommandBusy : Obligations.MissingAnswerLeavesTheCommandBusy := by
  intro i s ws h ha hs hl
  have hc := check_of_accepts ha
  exact exec_waiting hc (draws_body_all (bodyOk_of_inv h) hc) hs hl

/-! ### A BUSY interval (R361) -/

theorem answersIn_cons (e : Input) (es : List Input) : answersIn (e :: es) = answersIn [e] ++ answersIn es :=
  answersIn_append [e] es

/-- An input whose answers are words, and fewer than a command needs, is no answer or one such word. -/
theorem word_of_answersIn {e : Input} {vs : List Word} (h : answersIn [e] = vs.map .word) {a : Answer}
    (he : e = .answer a) : ∃ w, a = .word w ∧ vs.length = 1 := by
  subst he
  obtain ⟨w, rfl, hw⟩ := List.map_eq_singleton_iff.mp h.symm
  exact ⟨w, hw.symm, rfl⟩

/-- Inputs that bring a BUSY command fewer words than it needs, and no reset, leave it BUSY with those words. -/
theorem during_run {s : State} (h : s.Inv) {i : Instr} (hh : s.halt = false) (hc : check i s = none) (a : Answer) :
    ∀ (es : List Input) (ws vs : List Word) (g : Bool) (sh : Nat) (rd : Word) (k : Nat),
      (∀ e ∈ es, e ≠ .reset) → answersIn es = vs.map .word → ws.length + vs.length < drawsOf i s →
      ∃ g' sh' rd' k', Host.Core.run core (es ++ [Input.answer a]).length (during s i ws g sh (es ++ [Input.answer a]) rd k)
        = Host.Core.run core 1 (during s i (ws ++ vs) g' sh' [.answer a] rd' k')
  | [], ws, vs, g, sh, rd, k, _, hvs, _ => by
    obtain rfl : vs = [] := List.map_eq_nil_iff.mp hvs.symm
    exact ⟨g, sh, rd, k, by rw [List.append_nil]; rfl⟩
  | e :: es, ws, vs, g, sh, rd, k, hne, hvs, hlt => by
    rw [answersIn_cons] at hvs
    obtain ⟨us, xs, rfl, hus, hxs⟩ := List.map_eq_append_iff.mp hvs.symm
    rw [List.length_append] at hlt
    obtain ⟨g₁, sh₁, rd₁, k₁, hstep⟩ := during_step h hh hc ws g sh e (es ++ [Input.answer a]) rd k (hne e List.mem_cons_self)
      fun b hb => by
        obtain ⟨w, hw, hlen⟩ := word_of_answersIn hus.symm hb
        exact ⟨w, hw, by omega⟩
    rw [← hus, wordsOf_map_word] at hstep
    obtain ⟨g', sh', rd', k', hrun⟩ := during_run h hh hc a es (ws ++ us) xs g₁ sh₁ rd₁ k₁
      (fun e he => hne e (List.mem_cons_of_mem _ he)) hxs.symm (by rw [List.length_append]; omega)
    rw [List.append_assoc] at hrun
    exact ⟨g', sh', rd', k', (runCore_cons hstep).trans hrun⟩

/-- The answers of a BUSY interval that ends with the answer `a`: words, fewer than the command draws, and then its last
word or a Failure. -/
theorem answers_before_last {as bs : List Answer} {a : Answer} {ws : List Word} {n : Nat} (has : bs ++ [a] = as)
    (h : as = ws.map .word ∧ ws.length = n ∨ as = ws.map .word ++ [.failure] ∧ ws.length < n) :
    ∃ vs : List Word, bs = vs.map .word ∧ vs.length < n ∧
      ((∃ w, a = .word w ∧ vs.length + 1 = n) ∨ (a = .failure ∧ vs.length < n)) := by
  subst has
  obtain ⟨hw, hl⟩ | ⟨hw, hl⟩ := h
  · obtain ⟨vs, us, rfl, rfl, hus⟩ := List.map_eq_append_iff.mp hw.symm
    obtain ⟨w, rfl, rfl⟩ := List.map_eq_singleton_iff.mp hus
    rw [List.length_append, List.length_singleton] at hl
    exact ⟨vs, rfl, by omega, .inl ⟨w, rfl, hl⟩⟩
  · obtain ⟨rfl, ha⟩ := List.append_inj' hw rfl
    exact ⟨ws, rfl, hl, .inr ⟨List.singleton_inj.mp ha, hl⟩⟩

/-- Settles O25: the command waits through all inputs but the last answer, which ends it as the atomic command. -/
theorem busyCommandEqualsAtomicCommand : Obligations.BusyCommandEqualsAtomicCommand := by
  intro i s ws as es a h ha hans hin hne has hcase
  have hc := check_of_accepts ha
  rw [hin, answersIn_append] at has
  obtain ⟨vs, hvs, hlt, hend⟩ := answers_before_last has hcase
  have hwait := exec_waiting (ws := []) hc (draws_body_all (bodyOk_of_inv h) hc) hans (by rw [List.length_nil]; omega)
  obtain ⟨g, sh, rd, k, hrun⟩ := during_run h ha.notHalted hc a es [] vs false 0 s.readData s.freeTick hne hvs (by simpa using hlt)
  obtain ⟨t, v, hexec, hidle, hnone, hstep, hsame⟩ := during_end h ha.idle hc vs g sh a rd k hend
  rw [hvs] at has
  rw [← hin] at hrun
  have hlast : Host.Core.run core 1 (during s i vs g sh [Input.answer a] rd k) = .next v := runCore_cons hstep
  exact ⟨t, _, v, has ▸ hexec, hidle, hnone, hwait, hrun.trans hlast, hsame⟩

end Sys2Proof.Machine
end

section
/-! Two runs of one command side by side: the plaintext results do not depend on the sharing, and the public behaviour does
not depend on the secrets (R31, R34, R211, R364, R369). -/

namespace Sys2Proof.Machine

/-! ### Equal plaintext (R369) -/

theorem samePlain_accept {s s' : State} (h : samePlain s s') : samePlain (accept s) (accept s') :=
  ⟨h.values, h.arg, h.result, h.sph, h.rawEn, h.rate, h.ds, h.outLen, h.apos, h.lacc, h.spos, h.delivered⟩

/-- The end of a command leaves the plaintext its body left. -/
theorem samePlain_finished {u u' : State} (h : samePlain u u') (c c' : Word) (as as' : List Answer) :
    samePlain (freshTemps { u with rngCount := c, answers := as }) (freshTemps { u' with rngCount := c', answers := as' }) :=
  ⟨h.values, h.arg, h.result, h.sph, h.rawEn, h.rate, h.ds, h.outLen, h.apos, h.lacc, h.spos, h.delivered⟩

/-- Settles O55: two runs that complete ran the body to its end, and from equal plaintext the body makes equal plaintext. -/
theorem plaintextIndependentOfShares : Obligations.PlaintextIndependentOfShares := by
  intro i s s' t t' h h' _ _ hplain hexec hdone hexec' hdone'
  obtain ⟨hc, u, p, hbody, rfl⟩ := exec_completed hexec hdone
  obtain ⟨hc', u', p', hbody', rfl⟩ := exec_completed hexec' hdone'
  have hpair : plainPair (accept s) (accept s') := ⟨h.grid, h'.grid, samePlain_accept hplain⟩
  have hrelated := rel_body hpair i ((check_accept i s).trans hc) ((check_accept i s').trans hc')
  exact samePlain_finished (hrelated _ _ _ _ _ _ hbody hbody').plain _ _ _ _

/-! ### Equal public values (R364) -/

section
variable {i : Instr} {s s' : State}

theorem publicPair_accept (h : samePublic s s') : publicPair (accept s) (accept s') :=
  ⟨h.params, h.sph, h.rate, h.ds, h.outLen, h.apos, h.spos, h.delivered⟩

theorem drawsOf_of_samePublic (h : samePublic s s') : drawsOf i s' = drawsOf i s :=
  drawsOf_congr h.params h.apos h.rate h.spos

theorem samePublic_reject (h : samePublic s s') (e : Err) : samePublic (reject e s) (reject e s') :=
  ⟨h.params, h.sph, h.rawEn, h.rate, h.ds, h.outLen, h.apos, h.spos, h.delivered, h.halt, rfl, h.rngCount, h.answers, h.busy⟩

/-- Two commands that ran and drew as many words leave the same in public, if their bodies did. -/
theorem samePublic_of_ran (h : samePublic s s') {n : Nat} {rest rest' : List Answer} {t t' : State} (hran : ran n rest s t)
    (hran' : ran n rest' s' t') (hrest : rest'.map Answer.isWord = rest.map Answer.isWord) (hpair : publicPair t t') :
    samePublic t t' where
  params := hpair.params
  sph := hpair.sph
  rawEn := by rw [hran'.same.rawEn, hran.same.rawEn, h.rawEn]
  rate := hpair.rate
  ds := hpair.ds
  outLen := hpair.outLen
  apos := hpair.apos
  spos := hpair.spos
  delivered := hpair.delivered
  halt := by rw [hran'.same.halt, hran.same.halt, h.halt]
  err := by rw [hran'.err, hran.err]
  rngCount := by rw [hran'.count, hran.count, h.rngCount]
  answers := by rw [hran'.answers, hran.answers, hrest]
  busy := by rw [hran'.same.running, hran.same.running, h.busy]

/-- A Failure after as many words leaves the same in public: the scrubbed and halted block (R310). -/
theorem samePublic_failed (h : samePublic s s') (n : Nat) {rest rest' : List Answer}
    (hrest : rest'.map Answer.isWord = rest.map Answer.isWord) :
    samePublic
      (freshTemps (rngFailure { accept s with rngCount := s.rngCount + BitVec.ofNat 64 n, answers := rest }))
      (freshTemps (rngFailure { accept s' with rngCount := s'.rngCount + BitVec.ofNat 64 n, answers := rest' })) :=
  ⟨h.params, rfl, h.rawEn, rfl, rfl, rfl, rfl, rfl, rfl, rfl, rfl, congrArg (· + BitVec.ofNat 64 n) h.rngCount, hrest, rfl⟩

/-- A command that waits with as many words shows the same in public (R360). -/
theorem samePublic_waiting (h : samePublic s s') {ws ws' : List Word} (hlen : ws'.length = ws.length) :
    samePublic
      { accept s with
        rngCount := s.rngCount + BitVec.ofNat 64 ws.length, answers := [], running := some ⟨i, s.rngCount, ws, 0⟩ }
      { accept s' with
        rngCount := s'.rngCount + BitVec.ofNat 64 ws'.length, answers := [], running := some ⟨i, s'.rngCount, ws', 0⟩ } :=
  ⟨h.params, h.sph, h.rawEn, h.rate, h.ds, h.outLen, h.apos, h.spos, h.delivered, h.halt, rfl, by rw [h.rngCount, hlen], rfl,
    by simp [h.rngCount, hlen]⟩

/-- A command accepted in two states of the same public values completes in both, fails in both or waits in both. -/
theorem samePublic_of_accepted (h : s.Inv) (h' : s'.Inv) (hpub : samePublic s s') (harg : ∀ n, i = .sinit n → s'.arg = s.arg)
    (hc : check i s = none) : ∃ t t', exec i s = .next t ∧ exec i s' = .next t' ∧ samePublic t t' := by
  have hc' : check i s' = none := (check_public hpub harg).trans hc
  have hbody := draws_body_all (bodyOk_of_inv h) hc
  have hbody' := draws_body_all (bodyOk_of_inv h') hc'
  rw [drawsOf_of_samePublic hpub] at hbody'
  obtain ⟨ws, ws', rest, rest', hs, hs', hl, hl', hrest⟩ | ⟨ws, ws', rest, rest', hs, hs', hlt, hlen, hrest⟩ |
    ⟨ws, ws', hs, hs', hlt, hlen⟩ := split_same (drawsOf i s) hpub.answers
  · obtain ⟨f, hf, -⟩ := hbody
    obtain ⟨f', hf', -⟩ := hbody'
    obtain ⟨hexec, hran⟩ := exec_ended hc hf hs hl
    obtain ⟨hexec', hran'⟩ := exec_ended hc' hf' hs' hl'
    have hpair : publicPair (f ws) (f' ws') := public_body (publicPair_accept hpub) i harg _ _ _ _ _ _
      (hf.done ws [] 0 hl) (hf'.done ws' [] 0 hl')
    exact ⟨_, _, hexec, hexec', samePublic_of_ran hpub hran hran' hrest
      ⟨hpair.params, hpair.sph, hpair.rate, hpair.ds, hpair.outLen, hpair.apos, hpair.spos, hpair.delivered⟩⟩
  · have hexec' := exec_failed hc' hbody' hs' (by omega)
    rw [hlen] at hexec'
    exact ⟨_, _, exec_failed hc hbody hs hlt, hexec', samePublic_failed hpub ws.length hrest⟩
  · exact ⟨_, _, exec_waiting hc hbody hs hlt, exec_waiting hc' hbody' hs' (by omega), samePublic_waiting hpub hlen⟩

end

/-- Settles O56: the checks read public values only, and an accepted command goes the same of three ways in both states. -/
theorem publicBehaviourIndependentOfSecrets : Obligations.PublicBehaviourIndependentOfSecrets := by
  intro i s s' t t' h h' hpub harg hexec hexec'
  cases hc : check i s with
  | some e =>
    have hc' : check i s' = some e := (check_public hpub harg).trans hc
    cases (exec_of_rejected hc).symm.trans hexec
    cases (exec_of_rejected hc').symm.trans hexec'
    exact samePublic_reject hpub e
  | none =>
    obtain ⟨u, u', hu, hu', hsame⟩ := samePublic_of_accepted h h' hpub harg hc
    cases hu.symm.trans hexec
    cases hu'.symm.trans hexec'
    exact hsame

end Sys2Proof.Machine
end
